-- ==== Sys2Proof/Word.lean ====
section
/-! DEFINITION. Word: the 32-bit register word (10_state.md R20) and the 8-bit buffer byte
(20_memory.md R62). -/

namespace Sys2Proof

/-- A host-visible register, and a command word (R20, R80). -/
abbrev Word := BitVec 32

/-- One byte of an image buffer (R62). -/
abbrev Byte := BitVec 8

end Sys2Proof
end

