-- ==== Sys2Proof/Config.lean ====
section
/-! DEFINITION. Config: what an implementation of the block fixes (the OPEN parameters of 00_scope.md R7)
and the values the spec leaves open, as constants with no body. -/

namespace Sys2Proof

/-- `ENTRY_BITS`, the width of a stats entry: OPEN (R7, R66, U1).  Log entry 8. -/
opaque Config.entryBits : Nat

/-- A stats entry: `ENTRY_BITS` bits that only the coder interprets (R46, R66). -/
abbrev Entry := BitVec Config.entryBits

/-- `ARITH`, the decode function of an external coder whose states are numbered (R70): `none` is FAIL,
`some (bit, e', k')` the decoded bit, the updated entry and the coder's next state.  Log entry 5. -/
opaque Config.arith : Nat → Entry → Option (Bool × Entry × Nat)

/-- The state an external coder is in after it answered FAIL (R248: "as the coder left it after answering
FAIL"): open.  Log entry 5. -/
opaque Config.coderAfterFail : Nat → Entry → Nat

/-- The initial state of the external coder, `CoderState₀` (R70, U2): open.  Log entry 6. -/
opaque Config.coderState0 : Nat

/-- The state of the coder after a reset of the block, which is outside the block (R272, U22): open.  The
argument counts the resets, so that each one has a value of its own.  Log entry 7. -/
opaque Config.coderAfterReset : Nat → Nat

/-- What an entry of the stats RAM holds after a reset until a decode zeroes it (R48, U6: unspecified): open.  The
arguments are the number of resets so far and the entry's index.  Log entry 12. -/
opaque Config.powerOnEntry : Nat → Nat → Entry

/-- The OPEN parameters that are plain numbers, and the window's base (R7, R64).  `N_HANDLES` is the length of
the descriptor table (`State.descs`).  No step changes them.  Log entries 10 and 11. -/
structure Params where
  /-- `BUF_CAPACITY`, bytes of bitmap memory (R68). -/
  bufCapacity : Nat
  /-- `REG_BASE`, the host address of register offset 0x00 (R64). -/
  regBase : Nat
deriving DecidableEq, Repr

end Sys2Proof
end

