-- ==== Sys2Proof/Syntax.lean ====
section
/-! DEFINITION. Syntax: the commands of 30_encoding.md R83, one constructor per row of the opcode table.  A
command's fields are the operand bits of its command word (R81); its other operands are the parameter registers,
read when it runs (R82). -/

namespace Sys2Proof

/-- The commands of R83.  `clrv` is the clear value of IMG_CLEAR, `tp` is TPGDON or TPGRON, and `mmr` is the
request for MMR coding, which a well-formed command does not make. -/
inductive Instr where
  | nop
  | imgNew
  | imgClone
  | imgRelease
  | imgGet
  | imgSet
  | imgClear (clrv : Bool)
  | imgResize
  | imgReadb
  | imgWriteb
  | composeOr
  | composeAnd
  | composeXor
  | composeXnor
  | composeReplace
  | genPrecheck
  | genDecodeT0 (tp mmr : Bool)
  | genDecodeT1 (tp mmr : Bool)
  | genDecodeT2 (tp mmr : Bool)
  | genDecodeT3 (tp mmr : Bool)
  | refDecodeT0 (tp : Bool)
  | refDecodeT1 (tp : Bool)
  | clrst
deriving DecidableEq, Repr

end Sys2Proof
end

