-- ==== Sys2Proof/WellFormed.lean ====
section
/-! DEFINITION. WellFormed: the one constraint R81 puts on the operand bits of a command: the MMR bit of a
GEN_DECODE "must be 0". -/

namespace Sys2Proof

/-- R81: MMR = 0 in a GEN_DECODE.  Every other operand bit may take both values. -/
def Instr.wf : Instr → Bool
  | .genDecodeT0 _ mmr | .genDecodeT1 _ mmr | .genDecodeT2 _ mmr | .genDecodeT3 _ mmr => !mmr
  | .nop | .imgNew | .imgClone | .imgRelease | .imgGet | .imgSet | .imgClear _ | .imgResize | .imgReadb
  | .imgWriteb | .composeOr | .composeAnd | .composeXor | .composeXnor | .composeReplace | .genPrecheck
  | .refDecodeT0 _ | .refDecodeT1 _ | .clrst => true

end Sys2Proof
end

