-- ==== Sys2Proof/Decode.lean ====
section
/-! DEFINITION. Decode: from a command word to a command or a rejection by name (30_encoding.md R81, R83, R84),
and the encoder. -/

namespace Sys2Proof

/-- Why a command word is rejected at decode (R84). -/
inductive Reject where
  | reservedBits
  | unknownOpcode
  | badOp
  | badTemplate
  | mmrUnsupported
deriving DecidableEq, Repr

/-- OPC, bits [7:0] (R81). -/
def opcOf (w : Word) : Nat := (w.extractLsb' 0 8).toNat
/-- TMPL, bits [9:8] (R81). -/
def tmplOf (w : Word) : Nat := (w.extractLsb' 8 2).toNat
/-- TP, bit [10] (R81). -/
def tpOf (w : Word) : Bool := w.getLsbD 10
/-- MMR, bit [11] (R81). -/
def mmrOf (w : Word) : Bool := w.getLsbD 11
/-- COP, bits [14:12] (R81). -/
def copOf (w : Word) : Nat := (w.extractLsb' 12 3).toNat
/-- CLRV, bit [15] (R81). -/
def clrvOf (w : Word) : Bool := w.getLsbD 15
/-- RSV, bits [31:16] (R81). -/
def rsvOf (w : Word) : Nat := (w.extractLsb' 16 16).toNat

/-- COMPOSE by its operator value (R90). -/
def decodeCompose (cop : Nat) : Except Reject Instr :=
  match cop with
  | 0 => .ok .composeOr
  | 1 => .ok .composeAnd
  | 2 => .ok .composeXor
  | 3 => .ok .composeXnor
  | 4 => .ok .composeReplace
  | _ => .error .badOp

/-- GEN_DECODE by its template (R83); MMR = 1 is rejected for every template (R84, C4). -/
def decodeGen (tmpl : Nat) (tp mmr : Bool) : Except Reject Instr :=
  if mmr then .error .mmrUnsupported
  else match tmpl with
    | 0 => .ok (.genDecodeT0 tp false)
    | 1 => .ok (.genDecodeT1 tp false)
    | 2 => .ok (.genDecodeT2 tp false)
    | _ => .ok (.genDecodeT3 tp false)

/-- REF_DECODE by its template; templates 2 and 3 are rejected (R84). -/
def decodeRef (tmpl : Nat) (tp : Bool) : Except Reject Instr :=
  match tmpl with
  | 0 => .ok (.refDecodeT0 tp)
  | 1 => .ok (.refDecodeT1 tp)
  | _ => .error .badTemplate

/-- The opcode map (R83) over the low half of the word; an opcode outside it is unknown. -/
def decodeOpc (w : Word) : Except Reject Instr :=
  match opcOf w with
  | 0x00 => .ok .nop
  | 0x01 => .ok .imgNew
  | 0x02 => .ok .imgClone
  | 0x03 => .ok .imgRelease
  | 0x04 => .ok .imgGet
  | 0x05 => .ok .imgSet
  | 0x06 => .ok (.imgClear (clrvOf w))
  | 0x07 => .ok .imgResize
  | 0x08 => .ok .imgReadb
  | 0x09 => .ok .imgWriteb
  | 0x10 => decodeCompose (copOf w)
  | 0x20 => .ok .genPrecheck
  | 0x21 => decodeGen (tmplOf w) (tpOf w) (mmrOf w)
  | 0x22 => decodeRef (tmplOf w) (tpOf w)
  | 0x3F => .ok .clrst
  | _ => .error .unknownOpcode

/-- The decode procedure of R84: the reserved bits first, then the opcode, then the opcode's own check. -/
def decode (w : Word) : Except Reject Instr :=
  if rsvOf w ≠ 0 then .error .reservedBits else decodeOpc w

/-- A command word from its fields, RSV = 0 (R81). -/
def mkWord (opc tmpl cop : Nat) (tp mmr clrv : Bool) : Word :=
  BitVec.ofNat 32
    (opc + 0x100 * tmpl + 0x400 * tp.toNat + 0x800 * mmr.toNat + 0x1000 * cop + 0x8000 * clrv.toNat)

/-- The word of a command, unused fields 0 (R83: the match of its row, with its operand bits). -/
def encode : Instr → Word
  | .nop => mkWord 0x00 0 0 false false false
  | .imgNew => mkWord 0x01 0 0 false false false
  | .imgClone => mkWord 0x02 0 0 false false false
  | .imgRelease => mkWord 0x03 0 0 false false false
  | .imgGet => mkWord 0x04 0 0 false false false
  | .imgSet => mkWord 0x05 0 0 false false false
  | .imgClear clrv => mkWord 0x06 0 0 false false clrv
  | .imgResize => mkWord 0x07 0 0 false false false
  | .imgReadb => mkWord 0x08 0 0 false false false
  | .imgWriteb => mkWord 0x09 0 0 false false false
  | .composeOr => mkWord 0x10 0 0 false false false
  | .composeAnd => mkWord 0x10 0 1 false false false
  | .composeXor => mkWord 0x10 0 2 false false false
  | .composeXnor => mkWord 0x10 0 3 false false false
  | .composeReplace => mkWord 0x10 0 4 false false false
  | .genPrecheck => mkWord 0x20 0 0 false false false
  | .genDecodeT0 tp mmr => mkWord 0x21 0 0 tp mmr false
  | .genDecodeT1 tp mmr => mkWord 0x21 1 0 tp mmr false
  | .genDecodeT2 tp mmr => mkWord 0x21 2 0 tp mmr false
  | .genDecodeT3 tp mmr => mkWord 0x21 3 0 tp mmr false
  | .refDecodeT0 tp => mkWord 0x22 0 0 tp false false
  | .refDecodeT1 tp => mkWord 0x22 1 0 tp false false
  | .clrst => mkWord 0x3F 0 0 false false false

/-- The bits of a command's word that matter: RSV, OPC, the selecting field of its row (the row's mask, R83) and
its operand bits.  The other bits are ignored (R81, R91). -/
def usedBits : Instr → Word
  | .imgClear _ => 0xFFFF80FF
  | .composeOr | .composeAnd | .composeXor | .composeXnor | .composeReplace => 0xFFFF70FF
  | .genDecodeT0 _ _ | .genDecodeT1 _ _ | .genDecodeT2 _ _ | .genDecodeT3 _ _ => 0xFFFF0FFF
  | .refDecodeT0 _ | .refDecodeT1 _ => 0xFFFF07FF
  | .nop | .imgNew | .imgClone | .imgRelease | .imgGet | .imgSet | .imgResize | .imgReadb | .imgWriteb
  | .genPrecheck | .clrst => 0xFFFF00FF

/-- The command this decoder reads from a table word of `nbits` bits, the bits above them 0. -/
def decodeTableWord (nbits w : Nat) : Option Instr :=
  match decode (BitVec.ofNat 32 (w % 2 ^ nbits)) with
  | .ok i => some i
  | .error _ => none

end Sys2Proof
end

