-- ==== Sys2Proof/Machine/State.lean ====
section
/-! DEFINITION. State: every piece of state the spec gives the block (10_state.md), the coder on its port
(20_memory.md R70) and the host's pending accesses, as plain data; and the state after reset (R48, R270). -/

namespace Sys2Proof.Machine

/-- Bytes by offset, in one canonical form: offsets strictly rising, no byte listed that is 0.  An offset that is
not listed reads 0, as `IMG_NEW` leaves it (R113).  Log entry 19. -/
abbrev Memory := List Host.Cell

/-- A live image descriptor and its buffer (R41).  `STRIDE` is derived from `w`; the guard byte holds no state
(R63). -/
structure Image where
  /-- `W`, width in pixels. -/
  w : Nat
  /-- `H`, height in rows. -/
  h : Nat
  /-- `REFCNT`. -/
  refcnt : Nat
  /-- The STRIDE × H pixel bytes. -/
  mem : Memory
deriving DecidableEq, Repr

/-- The stats RAM (R66), in one canonical form.  An entry that is not listed reads 0 below `zeroed` (a decode
zeroed it, R67) and is open above (R48).  Log entry 12. -/
structure StatsRam where
  /-- The number of resets so far: the model's own counter, which picks the open values of this reset. -/
  epoch : Nat
  /-- Entries below this index have been zeroed since reset. -/
  zeroed : Nat
  cells : List (Nat × Entry)
deriving DecidableEq, Repr

/-- The state of the coder, an external agent (R47, R70): a scripted coder (95_test_vectors.md §2) with the bits it
has still to answer; a coder whose decode function is the open `Config.arith`; or a coder in state `now` that the host
disturbs between two requests, putting it into state `next` once it has answered `after` more (R283).  Log entries 5
and 26. -/
inductive CoderState where
  | script (bits : List Bool)
  | ext (k : Nat)
  | disturbed (after : Nat) (now next : CoderState)
deriving DecidableEq, Repr

/-- One exchange on the coder port (R70): the request's context and entry, and the answer (`none` is FAIL). -/
structure CoderRequest where
  cx : Nat
  entry : Entry
  answer : Option Bool
deriving DecidableEq, Repr

/-- The storage of the decode pipelines and the coder on their port. -/
structure Pipeline where
  /-- The stats RAM (R46, R66). -/
  stats : StatsRam
  /-- LTP (R43). -/
  ltp : Bool
  /-- The raster position (x, y) of the running loop; `none` outside a command (R45, R48). -/
  raster : Option (Nat × Nat)
  /-- The coder agent's state (R47). -/
  coder : CoderState
  /-- The exchanges on the coder port so far, newest first: the model's own record of R163's request sequence.
  Log entry 17. -/
  coderLog : List CoderRequest
deriving DecidableEq, Repr

/-- STATUS (R22); its reserved bits read 0 and are not held. -/
structure Status where
  /-- Bit 0 (R23). -/
  busy : Bool
  /-- Bit 1 (R24). -/
  done : Bool
  /-- Bit 2 (R25). -/
  fatal : Bool
  /-- Bit 3 (R26). -/
  overrun : Bool
  /-- Bits [11:8] (R27). -/
  err : BitVec 4
  /-- Bits [23:16] (R27). -/
  sub : BitVec 8
deriving DecidableEq, Repr

/-- What the world outside the block can do to it: a bus access of `width` bits at a host address (R65); binding and
initialising the coder (R273), at once where `after` is 0 and else when the coder has answered `after` more requests, so
also between two requests of a running decode (R283); and asserting the reset input (R270). -/
inductive HostOp where
  | read (addr width : Nat)
  | write (addr width : Nat) (data : Word)
  | bindCoder (c : CoderState) (after : Nat)
  | reset
deriving DecidableEq, Repr

/-- A pending host action.  While a command runs, an `early` one is ordered before the command's completion, one that
is not after it (R289).  Log entry 2. -/
structure HostEvent where
  op : HostOp
  early : Bool
deriving DecidableEq, Repr

structure State where
  /-- The parameters of this block (R7); no step changes them. -/
  params : Params
  /-- CMD (R21). -/
  cmd : Word
  /-- STATUS (R22). -/
  status : Status
  /-- CTRL.IRQ_EN (R28); the other bits of CTRL read 0. -/
  irqEn : Bool
  /-- RESULT (R29). -/
  result : Word
  /-- HA (R30). -/
  ha : Word
  /-- HB (R30). -/
  hb : Word
  /-- AX (R31). -/
  ax : Word
  /-- AY (R31). -/
  ay : Word
  /-- AV (R32). -/
  av : Word
  /-- DLEN (R33). -/
  dlen : Word
  /-- GBAT_LO (R34). -/
  gbatLo : Word
  /-- GBAT_HI (R34). -/
  gbatHi : Word
  /-- GRAT (R35). -/
  grat : Word
  /-- DX (R37). -/
  dx : Word
  /-- DY (R37). -/
  dy : Word
  /-- The descriptor table (R41): slot h at index h − 1, `none` when LIVE = 0.  Its length is N_HANDLES. -/
  descs : List (Option Image)
  /-- The decode pipelines and the coder. -/
  pipe : Pipeline
  /-- The host's pending actions, first to last (R6, R73).  Log entry 2. -/
  host : List HostEvent
  /-- The values host reads have returned, newest first: the model's own record.  Log entry 17. -/
  seen : List Word
deriving DecidableEq, Repr

/-- Reasons to stop with a fault.  The block has none: every error ends its command and is recorded in STATUS
(R243, R247), and nothing else stops the block. -/
inductive Fault where
deriving DecidableEq, Repr

/-- Reasons to refuse a step. -/
inductive Refusal where
  /-- Raised by `exec` for a command that has no meaning yet.  Safe: nothing is claimed of it. -/
  | notModelled (mnemonic : String)
  /-- Raised by a host access that is not an aligned 32-bit access inside the register window (R65: "A model refuses
  such an access").  Safe: no run goes on from it. -/
  | busError
deriving DecidableEq, Repr

/-- The storage of the pipelines after reset (R48): LTP 0, no raster position, the stats RAM unspecified. -/
def Pipeline.reset (epoch : Nat) (c : CoderState) (log : List CoderRequest) : Pipeline :=
  { stats := { epoch := epoch, zeroed := 0, cells := [] }, ltp := false, raster := none, coder := c, coderLog := log }

/-- The block after reset (R48, R270), for a table of `n` descriptors and the parameters `p`, with the pipelines'
storage and the host as given. -/
def State.resetWith (n : Nat) (p : Params) (pipe : Pipeline) (host : List HostEvent) (seen : List Word) : State :=
  { params := p, cmd := 0,
    status := { busy := false, done := false, fatal := false, overrun := false, err := 0, sub := 0 },
    irqEn := false, result := 0, ha := 0, hb := 0, ax := 0, ay := 0, av := 0, dlen := 0, gbatLo := 0, gbatHi := 0,
    grat := 0, dx := 0, dy := 0, descs := List.replicate n none, pipe := pipe, host := host,
    seen := seen }

/-- The block right after reset, with N_HANDLES = 3, BUF_CAPACITY = 2^31 − 1 and REG_BASE = 0 (log entries 9, 10 and
11), an external coder in its open initial state, and no host action pending. -/
def State.reset : State :=
  State.resetWith 3 { bufCapacity := 2 ^ 31 - 1, regBase := 0 } (Pipeline.reset 0 (.ext Config.coderState0) []) [] []

end Sys2Proof.Machine
end

