-- ==== Sys2Proof/Machine/Flags.lean ====
section
/-! DEFINITION. Flags: the error codes (60_exceptions.md R240, R241, R244), every change of a STATUS bit (10_state.md
R22 to R27), and the interrupt output (R249). -/

namespace Sys2Proof.Machine

/-- What can end a command with an error: the (ERR, SUB) pairs of R240 and R241.  `notImplemented` and `composeRange`
are allocated but never raised (R259). -/
inductive Cause where
  | nonpositiveDims
  | sizeOverflow
  | noHandle
  | noCapacity
  | dosGuard
  | mmrUnsupported
  | resizeWidthUnsupported
  | badTemplate
  | badHandle
  | aliased
  | badOp
  | refcountOverflow
  | badDims
  | coderExhaustion
  | notImplemented
  | range
  | composeRange
  | unknownOpcode
  | reservedBits
deriving DecidableEq, Repr

/-- The error code recorded in STATUS.ERR (R240). -/
def Cause.errCode : Cause → BitVec 4
  | .nonpositiveDims | .sizeOverflow | .noHandle | .noCapacity => 1
  | .dosGuard | .mmrUnsupported | .resizeWidthUnsupported | .badTemplate | .badHandle | .aliased | .badOp
  | .refcountOverflow | .badDims => 2
  | .coderExhaustion => 3
  | .notImplemented => 4
  | .range => 5
  | .composeRange => 6
  | .unknownOpcode | .reservedBits => 7

/-- The subcause recorded in STATUS.SUB (R241); 0 for a code that has none. -/
def Cause.subCode : Cause → BitVec 8
  | .nonpositiveDims => 1
  | .sizeOverflow => 2
  | .noHandle => 3
  | .noCapacity => 4
  | .dosGuard => 1
  | .mmrUnsupported => 2
  | .resizeWidthUnsupported => 3
  | .badTemplate => 4
  | .badHandle => 5
  | .aliased => 6
  | .badOp => 7
  | .refcountOverflow => 8
  | .badDims => 9
  | .unknownOpcode => 1
  | .reservedBits => 2
  | .coderExhaustion | .notImplemented | .range | .composeRange => 0

/-- The fatal class (R244): every code but RANGE. -/
def Cause.fatal : Cause → Bool
  | .range => false
  | .nonpositiveDims | .sizeOverflow | .noHandle | .noCapacity | .dosGuard | .mmrUnsupported
  | .resizeWidthUnsupported | .badTemplate | .badHandle | .aliased | .badOp | .refcountOverflow | .badDims
  | .coderExhaustion | .notImplemented | .composeRange | .unknownOpcode | .reservedBits => true

/-- RESULT of a command that ends with an error: 1 for RANGE, else 0 (R29, R243). -/
def Cause.result : Cause → Word
  | .range => 1
  | .nonpositiveDims | .sizeOverflow | .noHandle | .noCapacity | .dosGuard | .mmrUnsupported
  | .resizeWidthUnsupported | .badTemplate | .badHandle | .aliased | .badOp | .refcountOverflow | .badDims
  | .coderExhaustion | .notImplemented | .composeRange | .unknownOpcode | .reservedBits => 0

/-- The error a rejection at decode raises (R84). -/
def causeOfReject : Reject → Cause
  | .reservedBits => .reservedBits
  | .unknownOpcode => .unknownOpcode
  | .badOp => .badOp
  | .badTemplate => .badTemplate
  | .mmrUnsupported => .mmrUnsupported

/-- STATUS when a command is accepted: BUSY 1, DONE 0 (R21, R23, R24). -/
def Status.accept (st : Status) : Status := { st with busy := true, done := false }

/-- STATUS when a command completes normally (R242). -/
def Status.complete (st : Status) : Status := { st with busy := false, done := true, err := 0, sub := 0 }

/-- STATUS when a command ends with an error (R243). -/
def Status.raise (c : Cause) (st : Status) : Status :=
  { st with busy := false, done := true, fatal := st.fatal || c.fatal, err := c.errCode, sub := c.subCode }

/-- STATUS when CMD is written while BUSY (R26). -/
def Status.setOverrun (st : Status) : Status := { st with overrun := true }

/-- The sticky bits cleared by CLRST (R231). -/
def Status.clearSticky (st : Status) : Status := { st with fatal := false, overrun := false }

/-- A host write of `v` to STATUS: each of DONE, FATAL and OVERRUN whose bit in `v` is 1 is cleared (R22). -/
def Status.w1c (v : Word) (st : Status) : Status :=
  { st with
    done := st.done && !v.getLsbD 1
    fatal := st.fatal && !v.getLsbD 2
    overrun := st.overrun && !v.getLsbD 3 }

/-- The STATUS word a host reads (R22); the reserved bits are 0. -/
def Status.word (st : Status) : Word :=
  BitVec.ofNat 32
    (st.busy.toNat + 2 * st.done.toNat + 4 * st.fatal.toNat + 8 * st.overrun.toNat + 0x100 * st.err.toNat
      + 0x10000 * st.sub.toNat)

/-- The interrupt output, a level (R249). -/
def State.irq (s : State) : Bool := s.irqEn && s.status.done

end Sys2Proof.Machine
end

