-- ==== Sys2Proof/Machine/Operands.lean ====
section
/-! DEFINITION. Operands: how a command reads its operands from the parameter registers (30_encoding.md R86 to R89),
the constants of the decoders, the context templates, and the pure checks over operands. -/

namespace Sys2Proof.Machine

/-- `SIZE_LIMIT` (R7). -/
def sizeLimit : Nat := 2 ^ 31 - 1
/-- `REFCOUNT_MAX` (R7). -/
def refcountMax : Nat := 2 ^ 32 - 1
/-- `STATS_DEPTH` (R66). -/
def statsDepth : Nat := 65536
/-- The value ID always reads (R36). -/
def idValue : Word := 0x4A425244

/-- Byte k of a register as an 8-bit two's-complement integer: `sext_8(w[8k+7:8k])` (R9, R86, R87). -/
def atByte (w : Word) (k : Nat) : Int := (w.extractLsb' (8 * k) 8).toInt

/-- The AT offsets of a generic decode, AT pixels 1 to 4 as (Δx, Δy) (R86). -/
structure GenAt where
  a1 : Int × Int
  a2 : Int × Int
  a3 : Int × Int
  a4 : Int × Int
deriving DecidableEq, Repr

/-- gbat[0..7] of GBAT_LO and GBAT_HI in pairs (R34, R86). -/
def genAtOf (lo hi : Word) : GenAt :=
  { a1 := (atByte lo 0, atByte lo 1), a2 := (atByte lo 2, atByte lo 3),
    a3 := (atByte hi 0, atByte hi 1), a4 := (atByte hi 2, atByte hi 3) }

/-- The AT offsets of a refinement decode: the current-bitmap pixel's and the reference-bitmap pixel's (R87). -/
structure RefAt where
  cur : Int × Int
  ref : Int × Int
deriving DecidableEq, Repr

/-- grat[0..3] of GRAT in pairs (R35, R87). -/
def refAtOf (w : Word) : RefAt :=
  { cur := (atByte w 0, atByte w 1), ref := (atByte w 2, atByte w 3) }

/-- `DosReject(W, H, DLEN)` (R161): the area is stride × H bytes, exact, and both comparisons are strict. -/
def dosReject (w h dlen : Nat) : Bool :=
  let area := (w + 7) / 8 * h
  decide (area > 2 ^ 24 ∧ dlen < area / 256)

/-- The five compose operators (R90). -/
inductive ComposeOp where
  | orOp
  | andOp
  | xorOp
  | xnorOp
  | replaceOp
deriving DecidableEq, Repr

/-- `OP(op, s, d)` (R142 to R146). -/
def ComposeOp.apply (op : ComposeOp) (s d : Bool) : Bool :=
  match op with
  | .orOp => s || d
  | .andOp => s && d
  | .xorOp => s ^^ d
  | .xnorOp => !(s ^^ d)
  | .replaceOp => s

/-- A clipped source rectangle [i0, i1) × [j0, j1) (R141). -/
structure Rect where
  i0 : Int
  i1 : Int
  j0 : Int
  j1 : Int
deriving DecidableEq, Repr

/-- `Clip(X, Y, sW, sH, dW, dH)` (R141), exact. -/
def clip (x y sW sH dW dH : Int) : Rect :=
  { i0 := max 0 (-x), i1 := min sW (dW - x), j0 := max 0 (-y), j1 := min sH (dH - y) }

/-- Source pixel (i, j) is in the rectangle (R141). -/
def Rect.has (r : Rect) (i j : Int) : Bool := decide (r.i0 ≤ i ∧ i < r.i1 ∧ r.j0 ≤ j ∧ j < r.j1)

/-- The rectangle holds a pixel (R141). -/
def Rect.nonempty (r : Rect) : Bool := decide (r.i0 < r.i1 ∧ r.j0 < r.j1)

/-- `RangeGuard` (R148): whether a non-empty rectangle placed at (X, Y) leaves the destination. -/
def rangeGuard (x y dW dH : Int) (r : Rect) : Bool :=
  r.nonempty && decide (x + r.i0 < 0 ∨ x + r.i1 > dW ∨ y + r.j0 < 0 ∨ y + r.j1 > dH)

/-- Generic templates (R162). -/
inductive GenTemplate where
  | t0
  | t1
  | t2
  | t3
deriving DecidableEq, Repr

/-- `GB_STATS_SIZE(t)` (R7, R162). -/
def GenTemplate.statsSize : GenTemplate → Nat
  | .t0 => 65536
  | .t1 => 8192
  | .t2 => 1024
  | .t3 => 1024

/-- `TPCX(t)` (R170). -/
def GenTemplate.tpCx : GenTemplate → Nat
  | .t0 => 0x9B25
  | .t1 => 0x0795
  | .t2 => 0x00E5
  | .t3 => 0x0195

/-- A neighbour a generic context bit reads, as an offset from the pixel being decoded: a fixed one, or an AT pixel. -/
inductive GenTap where
  | fixed (dx dy : Int)
  | a1
  | a2
  | a3
  | a4
deriving DecidableEq, Repr

/-- The context layouts of templates 0 to 3, bit 0 first (R164 to R167).  PRESUMED, from general knowledge: the spec
marks them so (93_implementation_defined.md G2).  Log entry 13. -/
def GenTemplate.taps : GenTemplate → List GenTap
  | .t0 =>
    [.fixed (-1) 0, .fixed (-2) 0, .fixed (-3) 0, .fixed (-4) 0, .a1, .fixed 2 (-1), .fixed 1 (-1), .fixed 0 (-1),
      .fixed (-1) (-1), .fixed (-2) (-1), .a2, .a3, .fixed 1 (-2), .fixed 0 (-2), .fixed (-1) (-2), .a4]
  | .t1 =>
    [.fixed (-1) 0, .fixed (-2) 0, .fixed (-3) 0, .a1, .fixed 2 (-1), .fixed 1 (-1), .fixed 0 (-1), .fixed (-1) (-1),
      .fixed (-2) (-1), .fixed 2 (-2), .fixed 1 (-2), .fixed 0 (-2), .fixed (-1) (-2)]
  | .t2 =>
    [.fixed (-1) 0, .fixed (-2) 0, .a1, .fixed 1 (-1), .fixed 0 (-1), .fixed (-1) (-1), .fixed (-2) (-1),
      .fixed 1 (-2), .fixed 0 (-2), .fixed (-1) (-2)]
  | .t3 =>
    [.fixed (-1) 0, .fixed (-2) 0, .fixed (-3) 0, .fixed (-4) 0, .a1, .fixed 1 (-1), .fixed 0 (-1), .fixed (-1) (-1),
      .fixed (-2) (-1), .fixed (-3) (-1)]

/-- The offset (Δx, Δy) of a tap. -/
def GenTap.offset (a : GenAt) : GenTap → Int × Int
  | .fixed dx dy => (dx, dy)
  | .a1 => a.a1
  | .a2 => a.a2
  | .a3 => a.a3
  | .a4 => a.a4

/-- Refinement templates (R200). -/
inductive RefTemplate where
  | t0
  | t1
deriving DecidableEq, Repr

/-- `GR_STATS_SIZE(t)` (R7, R200). -/
def RefTemplate.statsSize : RefTemplate → Nat
  | .t0 => 8192
  | .t1 => 1024

/-- `TPRX(t)` (R205). -/
def RefTemplate.tpCx : RefTemplate → Nat
  | .t0 => 0x100
  | .t1 => 0x40

/-- A neighbour a refinement context bit reads: of the current bitmap at (x + Δx, y + Δy), or of the reference at
(x − DX + Δx, y − DY + Δy) (R201). -/
inductive RefTap where
  | cur (dx dy : Int)
  | ref (dx dy : Int)
  | curAt
  | refAt
deriving DecidableEq, Repr

/-- The context layouts of refinement templates 0 and 1, bit 0 first (R203, R204).  PRESUMED, from general knowledge:
the spec marks them so (93_implementation_defined.md G4).  Log entry 13. -/
def RefTemplate.taps : RefTemplate → List RefTap
  | .t0 =>
    [.cur (-1) 0, .cur 1 (-1), .cur 0 (-1), .curAt, .ref 1 1, .ref 0 1, .ref (-1) 1, .ref 1 0, .ref 0 0, .ref (-1) 0,
      .ref 1 (-1), .ref 0 (-1), .refAt]
  | .t1 =>
    [.cur (-1) 0, .cur 1 (-1), .cur 0 (-1), .cur (-1) (-1), .ref 1 1, .ref 0 1, .ref 1 0, .ref 0 0, .ref (-1) 0,
      .ref 0 (-1)]

/-- A context value from its bits, bit 0 first (R8, R164). -/
def contextOf : List Bool → Nat
  | [] => 0
  | b :: bs => b.toNat + 2 * contextOf bs

end Sys2Proof.Machine
end

