-- ==== Sys2Proof/Machine/Ops.lean ====
section
/-! DEFINITION. Ops: the named operations every command is built from: bytes and pixels of an image, the descriptor
table, the stats RAM and the coder port, and the two ways a command ends, `complete` and `raise`. -/

namespace Sys2Proof.Machine

/-! ### Sparse storage -/

/-- Read key `a`; a key that is not listed reads `d a`. -/
def Cells.read {α : Type} (d : Nat → α) : List (Nat × α) → Nat → α
  | [], a => d a
  | (k, v) :: m, a => if k = a then v else Cells.read d m a

/-- Write key `a`, keeping the keys rising and listing no value equal to what an unlisted key reads as. -/
def Cells.write {α : Type} [DecidableEq α] (d : Nat → α) : List (Nat × α) → Nat → α → List (Nat × α)
  | [], a, v => if v = d a then [] else [(a, v)]
  | (k, u) :: m, a, v =>
    if a < k then (if v = d a then (k, u) :: m else (a, v) :: (k, u) :: m)
    else if a = k then (if v = d a then m else (a, v) :: m)
    else (k, u) :: Cells.write d m a v

/-- The canonical form: keys strictly rising, no value equal to what an unlisted key reads as. -/
abbrev Cells.wf {α : Type} (d : Nat → α) (m : List (Nat × α)) : Prop :=
  m.Pairwise (fun c c' => c.1 < c'.1) ∧ ∀ c ∈ m, c.2 ≠ d c.1

/-! ### Loops -/

/-- `f 0`, then `f 1`, ..., then `f (n − 1)`. -/
def loop {α : Type} : Nat → (Nat → α → α) → α → α
  | 0, _, a => a
  | n + 1, f, a => f n (loop n f a)

/-- `f 0`, ..., `f (n − 1)`, ending at the first one that fails. -/
def loopE {α : Type} : Nat → (Nat → α → Except α α) → α → Except α α
  | 0, _, a => .ok a
  | n + 1, f, a =>
    match loopE n f a with
    | .ok b => f n b
    | .error b => .error b

/-! ### Buffer bytes (20_memory.md R62) -/

/-- What an unlisted byte of a live image reads as: 0, as IMG_NEW leaves it (R113). -/
def Memory.default (_ : Nat) : Byte := 0

/-- `MemRead` (R62). -/
def Memory.read (m : Memory) (off : Nat) : Byte := Cells.read Memory.default m off

/-- `MemWrite` (R62). -/
def Memory.write (m : Memory) (off : Nat) (v : Byte) : Memory := Cells.write Memory.default m off v

/-- The canonical form of a buffer. -/
abbrev Memory.wf (m : Memory) : Prop := Cells.wf Memory.default m

/-- A buffer whose first `n` bytes are `v` (R118). -/
def Memory.fill (n : Nat) (v : Byte) : Memory :=
  if v = 0 then [] else (List.range n).map (fun off => (off, v))

/-- The first `n` bytes of a buffer; the others read 0 (R119). -/
def Memory.take (n : Nat) (m : Memory) : Memory := m.filter (fun c => decide (c.1 < n))

/-! ### Images and pixels (40_bitmap.md R110, R111) -/

/-- STRIDE = ceil(W/8) (R41). -/
def Image.stride (im : Image) : Nat := (im.w + 7) / 8
/-- STRIDE × H, the bytes of the buffer (R41). -/
def Image.size (im : Image) : Nat := im.stride * im.h
/-- The bitmap memory an image uses, its guard byte included (R63, R68). -/
def Image.need (im : Image) : Nat := im.size + 1

/-- (x, y) is a pixel of the image (R110). -/
def Image.inRange (im : Image) (x y : Int) : Bool := decide (0 ≤ x ∧ x < im.w ∧ 0 ≤ y ∧ y < im.h)
/-- The byte of pixel (x, y): y × STRIDE + ⌊x/8⌋ (R60). -/
def Image.pixOff (im : Image) (x y : Int) : Nat := y.toNat * im.stride + x.toNat / 8
/-- The bit of pixel x in its byte: 7 − (x mod 8) (R60). -/
def pixBit (x : Int) : Nat := 7 - x.toNat % 8

/-- A byte with bit `i` set to `v`. -/
def setBit (b : Byte) (i : Nat) (v : Bool) : Byte :=
  if v then b ||| (1#8 <<< i) else b &&& ~~~(1#8 <<< i)

/-- `Pix(h, x, y)` (R110): 0 outside the image. -/
def Image.pix (im : Image) (x y : Int) : Bool :=
  if im.inRange x y then (im.mem.read (im.pixOff x y)).getLsbD (pixBit x) else false

/-- `PutPix(h, x, y, v)` (R111): `none` is FAIL. -/
def Image.putPix (im : Image) (x y : Int) (v : Bool) : Option Image :=
  if im.inRange x y then
    some { im with
      mem := im.mem.write (im.pixOff x y) (setBit (im.mem.read (im.pixOff x y)) (pixBit x) v) }
  else none

/-- The stored bit at position `p` of row `y`, a pixel or a padding bit (R60, R61). -/
def Image.bit (im : Image) (p y : Nat) : Bool := (im.mem.read (y * im.stride + p / 8)).getLsbD (7 - p % 8)

/-- `PutPix` where only its effect matters. -/
def Image.put (im : Image) (x y : Int) (v : Bool) : Image := (im.putPix x y v).getD im

/-- `ClearPadding(h, y)` (R174): the bits of the row's last byte at pixel positions W to 8 × STRIDE − 1 become 0. -/
def Image.clearPadding (im : Image) (y : Nat) : Image :=
  let off := y * im.stride + (im.stride - 1)
  { im with mem := im.mem.write off (im.mem.read off &&& (0xFF#8 <<< (8 * im.stride - im.w))) }

/-- `CopyRow(h, y)` (R173): row y becomes row y − 1, or zeros when y = 0, byte by byte. -/
def Image.copyRow (im : Image) (y : Nat) : Image :=
  { im with
    mem := loop im.stride
      (fun k m => m.write (y * im.stride + k) (if y = 0 then 0 else m.read ((y - 1) * im.stride + k))) im.mem }

/-! ### The descriptor table (10_state.md R41, 40_bitmap.md R112) -/

/-- N_HANDLES (R7). -/
def State.nHandles (s : State) : Nat := s.descs.length

/-- The live image a handle names; `none` when the handle is not valid (R89, R112). -/
def State.image? (s : State) (h : Word) : Option Image :=
  if h = 0 then none else (s.descs[h.toNat - 1]?).join

/-- Slot h holds `im` (`none` frees it). -/
def State.setImage (s : State) (h : Word) (im : Option Image) : State :=
  { s with descs := s.descs.set (h.toNat - 1) im }

/-- The index of the lowest free slot; its handle is one more (R113). -/
def State.freeSlot? (s : State) : Option Nat := s.descs.findIdx? (fun d => d.isNone)

/-- The bitmap memory in use by a slot (R68). -/
def slotBytes : Option Image → Nat
  | none => 0
  | some im => im.need

/-- `used_bytes()` (R68, R113). -/
def State.usedBytes (s : State) : Nat := (s.descs.map slotBytes).sum

/-- Byte `off` of the image a handle names, where there is one: the model's read of one byte of the image buffer
space (R64). -/
def State.byte? (s : State) (h : Word) (off : Nat) : Option Byte :=
  match s.image? h with
  | none => none
  | some im => if off < im.size then some (im.mem.read off) else none

/-! ### The stats RAM (20_memory.md R66, R67) -/

/-- What an unlisted entry reads as. -/
def StatsRam.default (r : StatsRam) (cx : Nat) : Entry :=
  if cx < r.zeroed then 0 else Config.powerOnEntry r.epoch cx

/-- `stats[cx]` (R66). -/
def StatsRam.read (r : StatsRam) (cx : Nat) : Entry := Cells.read r.default r.cells cx

/-- `stats[cx] <- e` (R66). -/
def StatsRam.write (r : StatsRam) (cx : Nat) (e : Entry) : StatsRam :=
  { r with cells := Cells.write r.default r.cells cx e }

/-- Zero entries 0 to n − 1 (R67). -/
def StatsRam.zero (r : StatsRam) (n : Nat) : StatsRam :=
  { r with zeroed := max r.zeroed n, cells := r.cells.filter (fun c => decide (n ≤ c.1)) }

/-- The canonical form of the stats RAM, with every listed index inside it. -/
abbrev StatsRam.wf (r : StatsRam) : Prop := Cells.wf r.default r.cells ∧ ∀ c ∈ r.cells, c.1 < statsDepth

/-! ### The coder port (20_memory.md R70, R71) -/

/-- The coder `c` that the host puts into state `c'` when it has answered `after` more requests: at once for 0 (R273,
R283).  A later binding overtakes one that has not landed yet.  Log entry 26. -/
def CoderState.rebind (c : CoderState) (after : Nat) (c' : CoderState) : CoderState :=
  match after with
  | 0 => c'
  | n + 1 => .disturbed (n + 1) c c'

/-- `ARITH` (R70): `none` is FAIL.  A scripted coder answers its next bit and leaves the entry as it is
(95_test_vectors.md §2); a disturbed coder answers as the state it is in does, and the request counts (R283). -/
def CoderState.decode (c : CoderState) (e : Entry) : Option (Bool × Entry × CoderState) :=
  match c with
  | .script [] => none
  | .script (b :: bs) => some (b, e, .script bs)
  | .ext k =>
    match Config.arith k e with
    | none => none
    | some (b, e', k') => some (b, e', .ext k')
  | .disturbed 0 _ next => next.decode e
  | .disturbed (n + 1) now next =>
    match now.decode e with
    | none => none
    | some (b, e', now') => some (b, e', now'.rebind n next)

/-- The coder after it answered FAIL (R248); the host's disturbance is still to come. -/
def CoderState.afterFail (c : CoderState) (e : Entry) : CoderState :=
  match c with
  | .script bs => .script bs
  | .ext k => .ext (Config.coderAfterFail k e)
  | .disturbed 0 _ next => next.afterFail e
  | .disturbed (n + 1) now next => .disturbed (n + 1) (now.afterFail e) next

/-- `ArithDecode(cx)` (R71): one request; on FAIL the entry is left unchanged. -/
def arithDecode (cx : Nat) (p : Pipeline) : Except Pipeline (Bool × Pipeline) :=
  let e := p.stats.read cx
  match p.coder.decode e with
  | none =>
    .error { p with coder := p.coder.afterFail e, coderLog := { cx := cx, entry := e, answer := none } :: p.coderLog }
  | some (b, e', c') =>
    .ok (b, { p with
      stats := p.stats.write cx e', coder := c',
      coderLog := { cx := cx, entry := e, answer := some b } :: p.coderLog })

/-! ### A running command -/

/-- What a looping command works on: the destination image and the pipelines' storage. -/
structure Job where
  img : Image
  pipe : Pipeline
deriving DecidableEq, Repr

/-- The raster position moves to (x, y) (R45). -/
def Job.goto (x y : Nat) (j : Job) : Job := { j with pipe := { j.pipe with raster := some (x, y) } }

/-- The raster position; (0, 0) where a loop starts (R45). -/
def Job.pos (j : Job) : Nat × Nat := j.pipe.raster.getD (0, 0)

/-- Write a pixel of the destination (R111). -/
def Job.put (x y : Int) (v : Bool) (j : Job) : Job := { j with img := j.img.put x y v }

/-- One coder request on behalf of the command (R71). -/
def Job.ask (cx : Nat) (j : Job) : Except Job (Bool × Job) :=
  match arithDecode cx j.pipe with
  | .ok (b, p) => .ok (b, { j with pipe := p })
  | .error p => .error { j with pipe := p }

/-- The typical-prediction step of a row: `SLTP <- ArithDecode(cx); LTP <- LTP ^ SLTP` (R172, R207). -/
def Job.ltpStep (cx : Nat) (j : Job) : Except Job Job :=
  match j.ask cx with
  | .ok (b, j') => .ok { j' with pipe := { j'.pipe with ltp := j'.pipe.ltp ^^ b } }
  | .error j' => .error j'

/-- A decode begins: its table of `n` entries is zeroed, LTP is 0, and the raster is at (0, 0) (R67, R43, R45). -/
def Job.start (n : Nat) (im : Image) (p : Pipeline) : Job :=
  { img := im, pipe := { p with stats := p.stats.zero n, ltp := false, raster := some (0, 0) } }

/-- The command's work goes back into the block: the image into slot h, the pipelines' storage in place. -/
def State.putJob (s : State) (h : Word) (j : Job) : State := { s.setImage h (some j.img) with pipe := j.pipe }

/-! ### The end of a command (60_exceptions.md R242, R243) -/

/-- The raster position is discarded when a command completes (R45). -/
def State.discardRaster (s : State) : State := { s with pipe := { s.pipe with raster := none } }

/-- `complete(v)` (R242). -/
def State.complete (v : Word) (s : State) : State :=
  { s.discardRaster with result := v, status := s.status.complete }

/-- `raise CODE(SUB)` (R243): the one way a command ends with an error.  It saves no pc and no mode and goes to no
handler, for the block has none (R247), and there is no return from it (R251). -/
def State.raise (c : Cause) (s : State) : State :=
  { s.discardRaster with result := c.result, status := s.status.raise c }

end Sys2Proof.Machine
end

