-- ==== Sys2Proof/Machine/Bitmap.lean ====
section
/-! DEFINITION. Bitmap: the bitmap buffer commands (40_bitmap.md R113 to R121).  Each is a definition of its own over
the operations of Ops; the checks stand in the order of its rule (60_exceptions.md R246). -/

namespace Sys2Proof.Machine

/-- IMG_NEW (R113). -/
def imgNew (s : State) : State :=
  let w := s.ax.toInt
  let h := s.ay.toInt
  if w ≤ 0 ∨ h ≤ 0 then s.raise .nonpositiveDims
  else
    let im : Image := { w := w.toNat, h := h.toNat, refcnt := 1, mem := [] }
    if im.need > sizeLimit then s.raise .sizeOverflow
    else
      match s.freeSlot? with
      | none => s.raise .noHandle
      | some k =>
        if s.usedBytes + im.need > s.params.bufCapacity then s.raise .noCapacity
        else State.complete (BitVec.ofNat 32 (k + 1)) { s with descs := s.descs.set k (some im) }

/-- IMG_NEW (R113). -/
def execImgNew (s : State) : Host.Outcome State Fault Refusal := .next (imgNew s)

/-- IMG_CLONE (R114). -/
def imgClone (s : State) : State :=
  match s.image? s.ha with
  | none => s.raise .badHandle
  | some im =>
    if im.refcnt = refcountMax then s.raise .refcountOverflow
    else (s.setImage s.ha (some { im with refcnt := im.refcnt + 1 })).complete s.ha

/-- IMG_CLONE (R114). -/
def execImgClone (s : State) : Host.Outcome State Fault Refusal := .next (imgClone s)

/-- IMG_RELEASE (R115). -/
def imgRelease (s : State) : State :=
  match s.image? s.ha with
  | none => s.raise .badHandle
  | some im =>
    let n := im.refcnt - 1
    (s.setImage s.ha (if n = 0 then none else some { im with refcnt := n })).complete (BitVec.ofNat 32 n)

/-- IMG_RELEASE (R115). -/
def execImgRelease (s : State) : Host.Outcome State Fault Refusal := .next (imgRelease s)

/-- IMG_GET (R116). -/
def imgGet (s : State) : State :=
  match s.image? s.ha with
  | none => s.raise .badHandle
  | some im => s.complete (if im.pix s.ax.toInt s.ay.toInt then 1 else 0)

/-- IMG_GET (R116). -/
def execImgGet (s : State) : Host.Outcome State Fault Refusal := .next (imgGet s)

/-- IMG_SET (R117): the pixel value is AV[0]. -/
def imgSet (s : State) : State :=
  match s.image? s.ha with
  | none => s.raise .badHandle
  | some im =>
    match im.putPix s.ax.toInt s.ay.toInt (s.av.getLsbD 0) with
    | some im' => (s.setImage s.ha (some im')).complete 0
    | none => s.raise .range

/-- IMG_SET (R117). -/
def execImgSet (s : State) : Host.Outcome State Fault Refusal := .next (imgSet s)

/-- IMG_CLEAR (R118): every byte of the buffer, padding included, takes the fill value. -/
def imgClear (clrv : Bool) (s : State) : State :=
  match s.image? s.ha with
  | none => s.raise .badHandle
  | some im =>
    (s.setImage s.ha (some { im with mem := Memory.fill im.size (if clrv then 0xFF else 0x00) })).complete 0

/-- IMG_CLEAR (R118). -/
def execImgClear (clrv : Bool) (s : State) : Host.Outcome State Fault Refusal := .next (imgClear clrv s)

/-- IMG_RESIZE (R119): the kept rows keep every byte, and the rows above the old height read 0. -/
def imgResize (s : State) : State :=
  match s.image? s.ha with
  | none => s.raise .badHandle
  | some im =>
    let w := s.ax.toInt
    let h := s.ay.toInt
    if w ≠ im.w then s.raise .resizeWidthUnsupported
    else if h ≤ 0 then s.raise .nonpositiveDims
    else
      let im' : Image := { im with h := h.toNat, mem := im.mem.take (im.stride * min im.h h.toNat) }
      if im'.need > sizeLimit then s.raise .sizeOverflow
      else if s.usedBytes - im.need + im'.need > s.params.bufCapacity then s.raise .noCapacity
      else (s.setImage s.ha (some im')).complete 0

/-- IMG_RESIZE (R119). -/
def execImgResize (s : State) : Host.Outcome State Fault Refusal := .next (imgResize s)

/-- The byte offset AX names, where it is inside the buffer (R88, R120, R121). -/
def byteOffset? (im : Image) (ax : Word) : Option Nat :=
  if 0 ≤ ax.toInt ∧ ax.toInt < im.size then some ax.toInt.toNat else none

/-- IMG_READB (R120): an offset outside the buffer reads 0. -/
def imgReadb (s : State) : State :=
  match s.image? s.ha with
  | none => s.raise .badHandle
  | some im =>
    match byteOffset? im s.ax with
    | some off => s.complete ((im.mem.read off).setWidth 32)
    | none => s.complete 0

/-- IMG_READB (R120). -/
def execImgReadb (s : State) : Host.Outcome State Fault Refusal := .next (imgReadb s)

/-- IMG_WRITEB (R121): the byte is AV[7:0]. -/
def imgWriteb (s : State) : State :=
  match s.image? s.ha with
  | none => s.raise .badHandle
  | some im =>
    match byteOffset? im s.ax with
    | some off => (s.setImage s.ha (some { im with mem := im.mem.write off (s.av.setWidth 8) })).complete 0
    | none => s.raise .range

/-- IMG_WRITEB (R121). -/
def execImgWriteb (s : State) : Host.Outcome State Fault Refusal := .next (imgWriteb s)

end Sys2Proof.Machine
end

