-- ==== Sys2Proof/Machine/Compose.lean ====
section
/-! DEFINITION. Compose: the five boolean compositors (41_compose.md R140 to R146). -/

namespace Sys2Proof.Machine

/-- One raster position of a composite, a pixel of the destination (R45): the source pixel that lands there, if it is in
the clipped rectangle, is combined with it (R140, R141). -/
def composePixel (op : ComposeOp) (src : Image) (x y : Int) (r : Rect) (j : Job) : Job :=
  let p := j.pos
  if r.has (p.1 - x) (p.2 - y) then j.put p.1 p.2 (op.apply (src.pix (p.1 - x) (p.2 - y)) (j.img.pix p.1 p.2)) else j

/-- One row of a composite: x = 0 to W − 1 (R45). -/
def composeRow (op : ComposeOp) (src : Image) (x y : Int) (r : Rect) (q : Nat) (j : Job) : Job :=
  loop j.img.w (fun p j => composePixel op src x y r (j.goto p q)) j

/-- A composite: the raster position starts at (0, 0) and goes through the rows y = 0 to H − 1 of the destination (R45), so
that it meets the pixels of R140's loops in their order.  Log entry 24. -/
def composeRun (op : ComposeOp) (src : Image) (x y : Int) (r : Rect) (j : Job) : Job :=
  loop j.img.h (composeRow op src x y r) (j.goto 0 0)

/-- COMPOSE (R140): HA is the destination, HB the source, (AX, AY) the offset. -/
def compose (op : ComposeOp) (s : State) : State :=
  match s.image? s.ha, s.image? s.hb with
  | some dst, some src =>
    if s.ha = s.hb then s.raise .aliased
    else
      let x := s.ax.toInt
      let y := s.ay.toInt
      let r := clip x y src.w src.h dst.w dst.h
      if rangeGuard x y dst.w dst.h r then s.raise .composeRange
      else (s.putJob s.ha (composeRun op src x y r { img := dst, pipe := s.pipe })).complete 0
  | _, _ => s.raise .badHandle

/-- COMPOSE.OR (R142). -/
def execComposeOr (s : State) : Host.Outcome State Fault Refusal := .next (compose .orOp s)
/-- COMPOSE.AND (R143). -/
def execComposeAnd (s : State) : Host.Outcome State Fault Refusal := .next (compose .andOp s)
/-- COMPOSE.XOR (R144). -/
def execComposeXor (s : State) : Host.Outcome State Fault Refusal := .next (compose .xorOp s)
/-- COMPOSE.XNOR (R145). -/
def execComposeXnor (s : State) : Host.Outcome State Fault Refusal := .next (compose .xnorOp s)
/-- COMPOSE.REPLACE (R146). -/
def execComposeReplace (s : State) : Host.Outcome State Fault Refusal := .next (compose .replaceOp s)

end Sys2Proof.Machine
end

