-- ==== Sys2Proof/Machine/Control.lean ====
section
/-! DEFINITION. Control: NOP and CLRST (44_control.md). -/

namespace Sys2Proof.Machine

/-- NOP (R230). -/
def execNop (s : State) : Host.Outcome State Fault Refusal := .next (s.complete 0)

/-- CLRST (R231): FATAL and OVERRUN are cleared, then the command completes. -/
def execClrst (s : State) : Host.Outcome State Fault Refusal :=
  .next (State.complete 0 { s with status := s.status.clearSticky })

end Sys2Proof.Machine
end

