-- ==== Sys2Proof/Machine/Generic.lean ====
section
/-! DEFINITION. Generic: the DOS guard command and the generic region decoder (42_generic.md R160 to R180). -/

namespace Sys2Proof.Machine

/-- GEN_PRECHECK (R160). -/
def genPrecheck (s : State) : State :=
  let w := s.ax.toInt
  let h := s.ay.toInt
  if w ≤ 0 ∨ h ≤ 0 then s.raise .badDims
  else if dosReject w.toNat h.toNat s.dlen.toNat then s.raise .dosGuard
  else s.complete 0

/-- GEN_PRECHECK (R160). -/
def execGenPrecheck (s : State) : Host.Outcome State Fault Refusal := .next (genPrecheck s)

/-- The context of a generic template at (x, y) over the pixels `P` (R164 to R167). -/
def genContextOf (t : GenTemplate) (a : GenAt) (P : Int → Int → Bool) (x y : Int) : Nat :=
  contextOf (t.taps.map fun tap => P (x + (tap.offset a).1) (y + (tap.offset a).2))

/-- `CTX_t(h, x, y, a)` (R164 to R167): the pixels of the template, read through Pix. -/
def genContext (t : GenTemplate) (a : GenAt) (im : Image) (x y : Int) : Nat := genContextOf t a im.pix x y

/-- One decoded pixel, at the raster position (R172): its context, one coder request, the write. -/
def genPixel (t : GenTemplate) (a : GenAt) (j : Job) : Except Job Job :=
  let p := j.pos
  match j.ask (genContext t a j.img p.1 p.2) with
  | .ok (v, j') => .ok (j'.put p.1 p.2 v)
  | .error j' => .error j'

/-- The decoded pixels of row y, after its padding is cleared (R172, R174). -/
def genPixels (t : GenTemplate) (a : GenAt) (y : Nat) (j : Job) : Except Job Job :=
  loopE j.img.w (fun x j => genPixel t a (j.goto x y)) { j with img := j.img.clearPadding y }

/-- Row y (R172): with TP, the row's LTP step first, and a row with LTP = 1 is copied (R173).  The raster stands at (0, y)
for the LTP step and for the whole of a copied row, where R172 goes through no pixel and no rule places it: DESIGN CHOICE,
log entry 24. -/
def genRow (t : GenTemplate) (tp : Bool) (a : GenAt) (y : Nat) (j : Job) : Except Job Job :=
  let j := j.goto 0 y
  if tp then
    match j.ltpStep t.tpCx with
    | .error j => .error j
    | .ok j => if j.pipe.ltp then .ok { j with img := j.img.copyRow y } else genPixels t a y j
  else genPixels t a y j

/-- The rows of a generic decode (R172). -/
def genRun (t : GenTemplate) (tp : Bool) (a : GenAt) (j : Job) : Except Job Job := loopE j.img.h (genRow t tp a) j

/-- GEN_DECODE (R171, R172, R176): the checks in R171's order, then the rows. -/
def genDecode (t : GenTemplate) (tp mmr : Bool) (s : State) : State :=
  if mmr then s.raise .mmrUnsupported
  else
    match s.image? s.ha with
    | none => s.raise .badHandle
    | some im =>
      if dosReject im.w im.h s.dlen.toNat then s.raise .dosGuard
      else
        match genRun t tp (genAtOf s.gbatLo s.gbatHi) (Job.start t.statsSize im s.pipe) with
        | .ok j => (s.putJob s.ha j).complete 0
        | .error j => (s.putJob s.ha j).raise .coderExhaustion

/-- GEN_DECODE.T0 (R177). -/
def execGenDecodeT0 (tp mmr : Bool) (s : State) : Host.Outcome State Fault Refusal := .next (genDecode .t0 tp mmr s)
/-- GEN_DECODE.T1 (R178). -/
def execGenDecodeT1 (tp mmr : Bool) (s : State) : Host.Outcome State Fault Refusal := .next (genDecode .t1 tp mmr s)
/-- GEN_DECODE.T2 (R179). -/
def execGenDecodeT2 (tp mmr : Bool) (s : State) : Host.Outcome State Fault Refusal := .next (genDecode .t2 tp mmr s)
/-- GEN_DECODE.T3 (R180). -/
def execGenDecodeT3 (tp mmr : Bool) (s : State) : Host.Outcome State Fault Refusal := .next (genDecode .t3 tp mmr s)

end Sys2Proof.Machine
end

