-- ==== Sys2Proof/Machine/Refinement.lean ====
section
/-! DEFINITION. Refinement: the refinement region decoder (43_refinement.md R200 to R210). -/

namespace Sys2Proof.Machine

/-- What a refinement decode reads besides its destination: the AT offsets, the reference image and the displacement
(R200). -/
structure RefOperands where
  offs : RefAt
  ref : Image
  dx : Int
  dy : Int
deriving DecidableEq, Repr

/-- `C(Δx, Δy)` or `Rf(Δx, Δy)` at (x, y), the current bitmap's pixels being `P` (R201). -/
def RefTap.pixel (o : RefOperands) (P : Int → Int → Bool) (x y : Int) : RefTap → Bool
  | .cur dx dy => P (x + dx) (y + dy)
  | .ref dx dy => o.ref.pix (x - o.dx + dx) (y - o.dy + dy)
  | .curAt => P (x + o.offs.cur.1) (y + o.offs.cur.2)
  | .refAt => o.ref.pix (x - o.dx + o.offs.ref.1) (y - o.dy + o.offs.ref.2)

/-- The context of a refinement template at (x, y), the current bitmap's pixels being `P` (R203, R204). -/
def refContextOf (t : RefTemplate) (o : RefOperands) (P : Int → Int → Bool) (x y : Int) : Nat :=
  contextOf (t.taps.map fun tap => tap.pixel o P x y)

/-- `CTX_R_t(h, r, x, y)` (R203, R204). -/
def refContext (t : RefTemplate) (o : RefOperands) (im : Image) (x y : Int) : Nat := refContextOf t o im.pix x y

/-- `IV(x, y)` (R206): the value of the 3 × 3 reference block around (x − DX, y − DY), where it has one. -/
def implicitValue (o : RefOperands) (x y : Int) : Option Bool :=
  let i := x - o.dx
  let k := y - o.dy
  let m := o.ref.pix i k
  let same := fun (a b : Int) => o.ref.pix (i + a) (k + b) == m
  if same (-1) (-1) && same 0 (-1) && same 1 (-1) && same (-1) 0 && same 1 0 && same (-1) 1 && same 0 1 && same 1 1
  then some m else none

/-- One pixel decoded by the coder, at the raster position (R207). -/
def refAsk (t : RefTemplate) (o : RefOperands) (j : Job) : Except Job Job :=
  let p := j.pos
  match j.ask (refContext t o j.img p.1 p.2) with
  | .ok (v, j') => .ok (j'.put p.1 p.2 v)
  | .error j' => .error j'

/-- One pixel (R207): with TP and LTP = 1 a pixel that has an implicit value takes it, with no request. -/
def refPixel (t : RefTemplate) (tp : Bool) (o : RefOperands) (j : Job) : Except Job Job :=
  let p := j.pos
  if tp && j.pipe.ltp then
    match implicitValue o p.1 p.2 with
    | some v => .ok (j.put p.1 p.2 v)
    | none => refAsk t o j
  else refAsk t o j

/-- The pixels of row y, after its padding is cleared (R207, R174). -/
def refPixels (t : RefTemplate) (tp : Bool) (o : RefOperands) (y : Nat) (j : Job) : Except Job Job :=
  loopE j.img.w (fun x j => refPixel t tp o (j.goto x y)) { j with img := j.img.clearPadding y }

/-- Row y (R207): with TP, the row's LTP step first. -/
def refRow (t : RefTemplate) (tp : Bool) (o : RefOperands) (y : Nat) (j : Job) : Except Job Job :=
  let j := j.goto 0 y
  if tp then
    match j.ltpStep t.tpCx with
    | .error j => .error j
    | .ok j => refPixels t tp o y j
  else refPixels t tp o y j

/-- The rows of a refinement decode (R207). -/
def refRun (t : RefTemplate) (tp : Bool) (o : RefOperands) (j : Job) : Except Job Job := loopE j.img.h (refRow t tp o) j

/-- The operands of a refinement decode against the reference `r` (R200, R87, R88). -/
def State.refOperands (s : State) (r : Image) : RefOperands :=
  { offs := refAtOf s.grat, ref := r, dx := s.dx.toInt, dy := s.dy.toInt }

/-- REF_DECODE (R200, R207, R208): the checks in R200's order, then the rows. -/
def refDecode (t : RefTemplate) (tp : Bool) (s : State) : State :=
  match s.image? s.ha, s.image? s.hb with
  | some im, some r =>
    if s.ha = s.hb then s.raise .aliased
    else
      match refRun t tp (s.refOperands r) (Job.start t.statsSize im s.pipe) with
      | .ok j => (s.putJob s.ha j).complete 0
      | .error j => (s.putJob s.ha j).raise .coderExhaustion
  | _, _ => s.raise .badHandle

/-- REF_DECODE.T0 (R209). -/
def execRefDecodeT0 (tp : Bool) (s : State) : Host.Outcome State Fault Refusal := .next (refDecode .t0 tp s)
/-- REF_DECODE.T1 (R210). -/
def execRefDecodeT1 (tp : Bool) (s : State) : Host.Outcome State Fault Refusal := .next (refDecode .t1 tp s)

end Sys2Proof.Machine
end

