-- ==== Sys2Proof/Machine/Dispatch.lean ====
section
/-! DEFINITION. Dispatch: one arm per command (30_encoding.md R83), each the command's own meaning. -/

namespace Sys2Proof.Machine

def exec (i : Instr) (s : State) : Host.Outcome State Fault Refusal :=
  match i with
  | .nop => Sys2Proof.Machine.execNop s
  | .imgNew => Sys2Proof.Machine.execImgNew s
  | .imgClone => Sys2Proof.Machine.execImgClone s
  | .imgRelease => Sys2Proof.Machine.execImgRelease s
  | .imgGet => Sys2Proof.Machine.execImgGet s
  | .imgSet => Sys2Proof.Machine.execImgSet s
  | .imgClear clrv => Sys2Proof.Machine.execImgClear clrv s
  | .imgResize => Sys2Proof.Machine.execImgResize s
  | .imgReadb => Sys2Proof.Machine.execImgReadb s
  | .imgWriteb => Sys2Proof.Machine.execImgWriteb s
  | .composeOr => Sys2Proof.Machine.execComposeOr s
  | .composeAnd => Sys2Proof.Machine.execComposeAnd s
  | .composeXor => Sys2Proof.Machine.execComposeXor s
  | .composeXnor => Sys2Proof.Machine.execComposeXnor s
  | .composeReplace => Sys2Proof.Machine.execComposeReplace s
  | .genPrecheck => Sys2Proof.Machine.execGenPrecheck s
  | .genDecodeT0 tp mmr => Sys2Proof.Machine.execGenDecodeT0 tp mmr s
  | .genDecodeT1 tp mmr => Sys2Proof.Machine.execGenDecodeT1 tp mmr s
  | .genDecodeT2 tp mmr => Sys2Proof.Machine.execGenDecodeT2 tp mmr s
  | .genDecodeT3 tp mmr => Sys2Proof.Machine.execGenDecodeT3 tp mmr s
  | .refDecodeT0 tp => Sys2Proof.Machine.execRefDecodeT0 tp s
  | .refDecodeT1 tp => Sys2Proof.Machine.execRefDecodeT1 tp s
  | .clrst => Sys2Proof.Machine.execClrst s

end Sys2Proof.Machine
end

