-- ==== Sys2Proof/Machine/HostBus.lean ====
section
/-! DEFINITION. HostBus: the register window and what a host action does (10_state.md R20 to R38, 20_memory.md R65,
70_reset_and_hazards.md R270 to R273, R280, R281, R289). -/

namespace Sys2Proof.Machine

/-- The sixteen registers (R20). -/
inductive Reg where
  | cmd
  | status
  | ctrl
  | result
  | ha
  | hb
  | ax
  | ay
  | av
  | dlen
  | gbatLo
  | gbatHi
  | grat
  | dx
  | dy
  | id
deriving DecidableEq, Repr

/-- The register at a byte offset of the window (R20); `none` is a reserved offset (R38). -/
def regAt (off : Nat) : Option Reg :=
  match off with
  | 0x00 => some .cmd
  | 0x04 => some .status
  | 0x08 => some .ctrl
  | 0x0C => some .result
  | 0x10 => some .ha
  | 0x14 => some .hb
  | 0x18 => some .ax
  | 0x1C => some .ay
  | 0x20 => some .av
  | 0x24 => some .dlen
  | 0x28 => some .gbatLo
  | 0x2C => some .gbatHi
  | 0x30 => some .grat
  | 0x34 => some .dx
  | 0x38 => some .dy
  | 0x3C => some .id
  | _ => none

/-- What a host read of a register returns (R21 to R37).  A read has no side effect (R65). -/
def State.readReg (s : State) : Reg → Word
  | .cmd => s.cmd
  | .status => s.status.word
  | .ctrl => BitVec.ofNat 32 s.irqEn.toNat
  | .result => s.result
  | .ha => s.ha
  | .hb => s.hb
  | .ax => s.ax
  | .ay => s.ay
  | .av => s.av
  | .dlen => s.dlen
  | .gbatLo => s.gbatLo
  | .gbatHi => s.gbatHi
  | .grat => s.grat
  | .dx => s.dx
  | .dy => s.dy
  | .id => idValue

/-- A CMD write of `v` while BUSY = 0 is accepted (R21, R40): CMD holds `v`, BUSY is 1 and DONE 0, and the command
`v` encodes runs next. -/
def State.accept (s : State) (v : Word) : State := { s with cmd := v, status := s.status.accept }

/-- The command word the sequencer has latched (R40, R48): CMD while BUSY, since CMD cannot change then (R21).  Log
entry 14. -/
def State.latched (s : State) : Option Word := if s.status.busy then some s.cmd else none

/-- A host write of `v` to CMD (R21, R26, R281): ignored while BUSY, but for OVERRUN. -/
def State.writeCmd (s : State) (v : Word) : State :=
  if s.status.busy then { s with status := s.status.setOverrun } else s.accept v

/-- A host write of `v` to a register (R21 to R37).  A parameter register ignores it while BUSY (R280); RESULT and ID
always do (R29, R36). -/
def State.writeReg (s : State) (r : Reg) (v : Word) : State :=
  match r with
  | .cmd => s.writeCmd v
  | .status => { s with status := s.status.w1c v }
  | .ctrl => { s with irqEn := v.getLsbD 0 }
  | .result => s
  | .id => s
  | .ha => if s.status.busy then s else { s with ha := v }
  | .hb => if s.status.busy then s else { s with hb := v }
  | .ax => if s.status.busy then s else { s with ax := v }
  | .ay => if s.status.busy then s else { s with ay := v }
  | .av => if s.status.busy then s else { s with av := v }
  | .dlen => if s.status.busy then s else { s with dlen := v }
  | .gbatLo => if s.status.busy then s else { s with gbatLo := v }
  | .gbatHi => if s.status.busy then s else { s with gbatHi := v }
  | .grat => if s.status.busy then s else { s with grat := v }
  | .dx => if s.status.busy then s else { s with dx := v }
  | .dy => if s.status.busy then s else { s with dy := v }

/-- The window offset of a legal access: aligned, 32 bits wide and inside the 256-byte window (R65). -/
def busOffset? (p : Params) (addr width : Nat) : Option Nat :=
  if width = 32 ∧ p.regBase ≤ addr ∧ addr - p.regBase < 256 ∧ (addr - p.regBase) % 4 = 0
  then some (addr - p.regBase) else none

/-- A host read of window offset `off`: a reserved offset reads 0 (R38). -/
def State.busRead (s : State) (off : Nat) : Word :=
  match regAt off with
  | some r => s.readReg r
  | none => 0

/-- A host write to window offset `off`: a reserved offset ignores it (R38). -/
def State.busWrite (s : State) (off : Nat) (v : Word) : State :=
  match regAt off with
  | some r => s.writeReg r v
  | none => s

/-- Asserting the reset input (R270, R272), running command or not.  The host's pending actions, what it has read and
the record of the coder port are not the block's and stay; the coder's state is open (U22). -/
def State.assertReset (s : State) : State :=
  let n := s.pipe.stats.epoch + 1
  State.resetWith s.nHandles s.params
    (Pipeline.reset n (.ext (Config.coderAfterReset n)) s.pipe.coderLog) s.host s.seen

/-- What a host action does.  An access that R65 does not allow is refused. -/
def State.hostStep (s : State) : HostOp → Host.Outcome State Fault Refusal
  | .read addr width =>
    match busOffset? s.params addr width with
    | some off => .next { s with seen := s.busRead off :: s.seen }
    | none => .refused .busError
  | .write addr width data =>
    match busOffset? s.params addr width with
    | some off => .next (s.busWrite off data)
    | none => .refused .busError
  | .bindCoder c after => .next { s with pipe := { s.pipe with coder := s.pipe.coder.rebind after c } }
  | .reset => .next s.assertReset

/-- The pending host action that goes next, where it is the host's turn: the first one, unless a command runs and the
action is ordered after its completion (R289). -/
def State.hostTurn (s : State) : Option HostOp :=
  match s.host with
  | [] => none
  | e :: _ => if s.status.busy && !e.early then none else some e.op

/-- The first pending action, if any, is ordered after the running command. -/
def State.delayHost (s : State) : State :=
  { s with host := match s.host with
      | [] => []
      | e :: es => { e with early := false } :: es }

end Sys2Proof.Machine
end

