-- ==== Sys2Proof/Machine/Step.lean ====
section
/-! DEFINITION. Step: one step of the block: a host action, or the whole of the accepted command (10_state.md R40;
log entries 1 and 2), or nothing while it idles (R257). -/

namespace Sys2Proof.Machine

/-- One step.  A pending host action goes first where it is the host's turn.  Otherwise a BUSY block decodes the
latched command word and runs the command to its end, or ends it with the error of the word (R40, R84).  An IDLE
block with nothing pending keeps its state (R257, R270). -/
def step (s : State) : Host.Outcome State Fault Refusal :=
  match s.hostTurn with
  | some op => State.hostStep { s with host := s.host.tail } op
  | none =>
    match s.latched with
    | none => .next s
    | some w =>
      match decode w with
      | .ok i => exec i s
      | .error r => .next (s.raise (causeOfReject r))

/-- `s` with the command word `w` accepted, so that the next step runs it: what a host write of CMD leaves (R21), with
any pending host action ordered after the command.  Log entry 4. -/
def State.withFetchWord (s : State) (nbits w : Nat) : State :=
  (s.accept (BitVec.ofNat 32 (w % 2 ^ nbits))).delayHost

end Sys2Proof.Machine
end

