-- ==== Sys2Proof/Safety.lean ====
section
/-! DEFINITION. Safety: the invariant of a safe state (10_state.md R42, 60_exceptions.md R241, R259), and the words the
statements are written in. -/

namespace Sys2Proof.Machine

/-! ### The invariant -/

/-- A live image is as R42 says, and its buffer is canonical and holds no byte beyond STRIDE × H (R62). -/
abbrev Image.wf (im : Image) : Prop :=
  (1 ≤ im.w ∧ im.w < 2 ^ 31) ∧ (1 ≤ im.h ∧ im.h < 2 ^ 31) ∧ im.need ≤ 2 ^ 31 - 1 ∧
    (1 ≤ im.refcnt ∧ im.refcnt ≤ 2 ^ 32 - 1) ∧ im.mem.wf ∧ ∀ c ∈ im.mem, c.1 < im.size

/-- The (ERR, SUB) pairs a completion may record: OK, and the rows of R241 and R240 but the two codes that are never
raised (R259). -/
def legalCodes : List (Nat × Nat) :=
  [(0, 0), (1, 1), (1, 2), (1, 3), (1, 4), (2, 1), (2, 2), (2, 3), (2, 4), (2, 5), (2, 6), (2, 7), (2, 8), (2, 9), (3, 0),
    (5, 0), (7, 1), (7, 2)]

/-- STATUS holds a legal (ERR, SUB) pair, and is not BUSY and DONE at once (R24). -/
abbrev Status.wf (st : Status) : Prop :=
  (st.err.toNat, st.sub.toNat) ∈ legalCodes ∧ ¬(st.busy = true ∧ st.done = true)

/-- What every step keeps. -/
structure State.Inv (s : State) : Prop where
  /-- N_HANDLES ≥ 3, and a handle fits in a register (R7, R30). -/
  handles : 3 ≤ s.nHandles ∧ s.nHandles < 2 ^ 32
  /-- R42, for each live image. -/
  images : ∀ im, some im ∈ s.descs → im.wf
  /-- R42, R68: the live images fit in the bitmap memory. -/
  capacity : s.usedBytes ≤ s.params.bufCapacity
  /-- The stats RAM is canonical and lists no entry outside it (R66). -/
  stats : s.pipe.stats.wf
  /-- No raster position is held between commands (R45). -/
  raster : s.pipe.raster = none
  /-- STATUS is legal. -/
  status : s.status.wf

/-! ### Words for statements -/

/-- A byte is a padding bit's place: position `p` of row `y` lies in the row but is no pixel (R61). -/
abbrev Image.isPadding (im : Image) (p y : Nat) : Prop := im.w ≤ p ∧ p < 8 * im.stride ∧ y < im.h

/-- A causal position (R12). -/
abbrev causal (o : Int × Int) : Prop := o.2 < 0 ∨ (o.2 = 0 ∧ o.1 < 0)

/-- Every AT pixel the template uses is causal (R168, R175). -/
abbrev GenAt.causalFor (a : GenAt) : GenTemplate → Prop
  | .t0 => causal a.a1 ∧ causal a.a2 ∧ causal a.a3 ∧ causal a.a4
  | .t1 | .t2 | .t3 => causal a.a1

/-- The current-bitmap AT pixel, where the template uses one, is causal (R208). -/
abbrev RefAt.causalFor (a : RefAt) : RefTemplate → Prop
  | .t0 => causal a.cur
  | .t1 => True

/-- GEN_DECODE of a template. -/
def genInstr : GenTemplate → Bool → Bool → Instr
  | .t0 => .genDecodeT0
  | .t1 => .genDecodeT1
  | .t2 => .genDecodeT2
  | .t3 => .genDecodeT3

/-- REF_DECODE of a template. -/
def refInstr : RefTemplate → Bool → Instr
  | .t0 => .refDecodeT0
  | .t1 => .refDecodeT1

/-- COMPOSE with an operator. -/
def composeInstr : ComposeOp → Instr
  | .orOp => .composeOr
  | .andOp => .composeAnd
  | .xorOp => .composeXor
  | .xnorOp => .composeXnor
  | .replaceOp => .composeReplace

/-- A request of the coder port as the spec's request logs write it: (context, answer) (95_test_vectors.md §2). -/
def CoderRequest.view (r : CoderRequest) : Nat × Option Bool := (r.cx, r.answer)

/-- A run of requests, oldest first, replayed (20_memory.md R70, R71, 60_exceptions.md R248): from the entries `E` and the
coder `c`, each request carries the entry of its context and has the coder's answer; an answer writes that one entry, and a
FAIL is the last request and writes none.  The run leaves the entries `E'` and the coder `c'`. -/
def Replay : List CoderRequest → (Nat → Entry) → CoderState → (Nat → Entry) → CoderState → Prop
  | [], E, c, E', c' => (∀ a, E' a = E a) ∧ c' = c
  | r :: rs, E, c, E', c' => r.entry = E r.cx ∧
      match c.decode r.entry with
      | some (b, e, d) => r.answer = some b ∧ Replay rs (fun a => if a = r.cx then e else E a) d E' c'
      | none => r.answer = none ∧ rs = [] ∧ (∀ a, E' a = E a) ∧ c' = c.afterFail r.entry

/-- LTP of row `y` when the rows' SLTP answers are `sltp` (R172, R207): their exclusive or up to the row. -/
def rowLtp (sltp : List Bool) (y : Nat) : Bool := (sltp.take (y + 1)).foldl (fun a b => a ^^ b) false

/-- Pixel (p, q) of the destination as it stands when a decode comes to (x, y): decoded already where it is before (x, y)
in raster order, and else what the buffer held when the command started (R172, R175).  `old` is the image before the
command and `new` the image after it. -/
def Image.asOf (old new : Image) (x y : Nat) (p q : Int) : Bool :=
  if q < y ∨ q = y ∧ p < x then new.pix p q else old.pix p q

/-- The requests for the first `n` pixels of row `y` of a generic decode that took the image from `old` to `new` (R172):
the SLTP one with TP, then one a pixel unless the row is copied. -/
def genRowLog (t : GenTemplate) (tp : Bool) (a : GenAt) (old new : Image) (sltp : List Bool) (n y : Nat) :
    List (Nat × Option Bool) :=
  (if tp then [(t.tpCx, some (sltp.getD y false))] else []) ++
    (if tp && rowLtp sltp y then []
     else (List.range n).map fun x : Nat => (genContextOf t a (old.asOf new x y) x y, some (new.pix x y)))

/-- The pixel (x, y) of a refinement decode takes its implicit value, with no request (R207). -/
def implied (tp : Bool) (o : RefOperands) (sltp : List Bool) (x y : Nat) : Bool :=
  tp && rowLtp sltp y && (implicitValue o x y).isSome

/-- The requests for the first `n` pixels of row `y` of a refinement decode that took the image from `old` to `new`
(R207): the SLTP one with TP, then one a pixel that takes no implicit value. -/
def refRowLog (t : RefTemplate) (tp : Bool) (o : RefOperands) (old new : Image) (sltp : List Bool) (n y : Nat) :
    List (Nat × Option Bool) :=
  (if tp then [(t.tpCx, some (sltp.getD y false))] else []) ++
    (List.range n).flatMap fun x : Nat =>
      if implied tp o sltp x y then [] else [(refContextOf t o (old.asOf new x y) x y, some (new.pix x y))]

/-- Byte `k` of a register as a two's-complement integer, from its value (R86, R87). -/
def signedByte (w : Word) (k : Nat) : Int :=
  if w.toNat / 256 ^ k % 256 < 128 then (w.toNat / 256 ^ k % 256 : Nat) else (w.toNat / 256 ^ k % 256 : Nat) - 256

/-- The coder requests a decode of a W × H image needs at most (R286). -/
def requestBound (tp : Bool) (im : Image) : Nat := (if tp then im.h else 0) + im.w * im.h

/-- The state with the operand registers of a COMPOSE from `src` at (x, y) written. -/
def State.composeFrom (s : State) (src x y : Word) : State := { s with hb := src, ax := x, ay := y }

/-- The state with the coder in state `c` (R273). -/
def State.withCoder (s : State) (c : CoderState) : State := { s with pipe := { s.pipe with coder := c } }

end Sys2Proof.Machine
end

