-- ==== Sys2Proof/Certificates/Slice0/Obligations.lean ====
section
/-! DEFINITION. Obligations: the statements for the provers, each about every state unless its premises say otherwise.
Each docstring names the rules of spec/ it formalises. -/

open Sys2Proof Sys2Proof.Machine

/-! ### Encoding -/

/-- 30_encoding.md R81, R83, R85: the 23 rows of the opcode table, each at a word written out from the spec's field
table, some with ignored bits set. -/
def Obligations.WrittenOutWordsDecode : Prop :=
  decode 0x00000000 = .ok .nop ∧ decode 0x0000FF00 = .ok .nop ∧ decode 0x00000001 = .ok .imgNew ∧
  decode 0x00008001 = .ok .imgNew ∧ decode 0x00000002 = .ok .imgClone ∧ decode 0x00000003 = .ok .imgRelease ∧
  decode 0x00000004 = .ok .imgGet ∧ decode 0x00000005 = .ok .imgSet ∧ decode 0x00000006 = .ok (.imgClear false) ∧
  decode 0x00008006 = .ok (.imgClear true) ∧ decode 0x00000007 = .ok .imgResize ∧ decode 0x00000008 = .ok .imgReadb ∧
  decode 0x00000009 = .ok .imgWriteb ∧ decode 0x00000010 = .ok .composeOr ∧ decode 0x00001010 = .ok .composeAnd ∧
  decode 0x00002010 = .ok .composeXor ∧ decode 0x00003010 = .ok .composeXnor ∧ decode 0x00004010 = .ok .composeReplace ∧
  decode 0x00000020 = .ok .genPrecheck ∧ decode 0x00000021 = .ok (.genDecodeT0 false false) ∧
  decode 0x00000521 = .ok (.genDecodeT1 true false) ∧ decode 0x00000621 = .ok (.genDecodeT2 true false) ∧
  decode 0x00000321 = .ok (.genDecodeT3 false false) ∧ decode 0x00000822 = .ok (.refDecodeT0 false) ∧
  decode 0x00000522 = .ok (.refDecodeT1 true) ∧ decode 0x0000003F = .ok .clrst

/-- 30_encoding.md R81, R83: the decoder gives back every well-formed command from its word. -/
def Obligations.EncodedInstructionsDecodeBack : Prop :=
  ∀ i : Instr, i.wf = true → decode (encode i) = .ok i

/-- 30_encoding.md R83, R84, R91: over all 2^32 words, the words that decode to a command are exactly those that agree with
its encoding on RSV, OPC, its selecting field and its operand bits; every other bit is ignored. -/
def Obligations.DecodeReadsExactlyTheTableWords : Prop :=
  ∀ (w : Word) (i : Instr), decode w = .ok i ↔ i.wf = true ∧ w &&& usedBits i = encode i

/-- 30_encoding.md R84: the decode procedure of an accepted word, check by check in its order, and what each rejection
records; "An error raised here changes nothing except STATUS and RESULT". -/
def Obligations.RejectedCommandWordReportsItsError : Prop :=
  ∀ (s : State) (w : Word), s.hostTurn = none → s.latched = some w →
    let v := w.toNat
    let ends (err : BitVec 4) (sub : BitVec 8) : State :=
      { s with
        result := 0
        status := { s.status with busy := false, done := true, fatal := true, err := err, sub := sub }
        pipe := { s.pipe with raster := none } }
    let known := [0x00, 0x01, 0x02, 0x03, 0x04, 0x05, 0x06, 0x07, 0x08, 0x09, 0x10, 0x20, 0x21, 0x22, 0x3F]
    let badOp := v % 0x100 = 0x10 ∧ 4 < v / 0x1000 % 8
    let badTemplate := v % 0x100 = 0x22 ∧ 1 < v / 0x100 % 4
    let mmr := v % 0x100 = 0x21 ∧ v / 0x800 % 2 = 1
    (v / 0x10000 ≠ 0 → step s = .next (ends 7 2)) ∧
    (v / 0x10000 = 0 → v % 0x100 ∉ known → step s = .next (ends 7 1)) ∧
    (v / 0x10000 = 0 → badOp → step s = .next (ends 2 7)) ∧
    (v / 0x10000 = 0 → badTemplate → step s = .next (ends 2 4)) ∧
    (v / 0x10000 = 0 → mmr → step s = .next (ends 2 2)) ∧
    (v / 0x10000 = 0 → v % 0x100 ∈ known → ¬badOp → ¬badTemplate → ¬mmr →
      ∃ i : Instr, decode w = .ok i ∧ i.wf = true ∧ step s = exec i s)

/-! ### Step and the register window -/

/-- 10_state.md R40: a BUSY block whose turn it is runs the command its latched CMD word decodes to, in one step, and that
command is well-formed. -/
def Obligations.StepRunsTheDecodedCommand : Prop :=
  ∀ (s : State) (i : Instr), s.hostTurn = none → s.status.busy = true → decode s.cmd = .ok i →
    i.wf = true ∧ step s = exec i s

/-- 10_state.md R21, 70_reset_and_hazards.md R281: a host write to CMD.  While IDLE it stores the word, sets BUSY, clears
DONE and starts the command; while BUSY it only sets OVERRUN.  A read returns the last value stored, and the reset value is
0. -/
def Obligations.CmdWriteStartsACommandOrOverruns : Prop :=
  State.reset.cmd = 0 ∧ (∀ s : State, s.busRead 0x00 = s.cmd) ∧
  ∀ (s : State) (v : Word) (early : Bool) (rest : List HostEvent),
    s.host = ⟨.write s.params.regBase 32 v, early⟩ :: rest →
    (s.status.busy = false →
      ∃ t, step s = .next t ∧
        t = { s with host := rest, cmd := v, status := { s.status with busy := true, done := false } } ∧
        t.latched = some v) ∧
    (s.status.busy = true → early = true →
      step s = .next { s with host := rest, status := { s.status with overrun := true } })

/-- 10_state.md R22: the fields of STATUS as a host reads them, its reserved bits 0, its reset value, and a host write, which
clears DONE, FATAL and OVERRUN where its bit is 1 and nothing else, BUSY or not. -/
def Obligations.StatusReadsItsFieldsAndWritesClearThem : Prop :=
  State.reset.busRead 0x04 = 0 ∧
  (∀ s : State,
    (s.busRead 0x04).getLsbD 0 = s.status.busy ∧ (s.busRead 0x04).getLsbD 1 = s.status.done ∧
    (s.busRead 0x04).getLsbD 2 = s.status.fatal ∧ (s.busRead 0x04).getLsbD 3 = s.status.overrun ∧
    (s.busRead 0x04).extractLsb' 4 4 = 0 ∧ (s.busRead 0x04).extractLsb' 8 4 = s.status.err ∧
    (s.busRead 0x04).extractLsb' 12 4 = 0 ∧ (s.busRead 0x04).extractLsb' 16 8 = s.status.sub ∧
    (s.busRead 0x04).extractLsb' 24 8 = 0) ∧
  (∀ (s : State) (v : Word), s.busWrite 0x04 v =
    { s with status := { s.status with
      done := s.status.done && !v.getLsbD 1
      fatal := s.status.fatal && !v.getLsbD 2
      overrun := s.status.overrun && !v.getLsbD 3 } })

/-- 10_state.md R28: CTRL holds IRQ_EN in bit 0, which connects DONE to the interrupt output; its other bits read 0 and ignore
writes; a write takes effect BUSY or not. -/
def Obligations.CtrlHoldsOnlyIrqEnable : Prop :=
  State.reset.busRead 0x08 = 0 ∧ (∀ s : State, s.irq = if s.irqEn then s.status.done else false) ∧
  ∀ (s : State) (v : Word), s.busWrite 0x08 v = { s with irqEn := v.getLsbD 0 } ∧
    ((s.busWrite 0x08 v).busRead 0x08).getLsbD 0 = v.getLsbD 0 ∧
    ((s.busWrite 0x08 v).busRead 0x08).extractLsb' 1 31 = 0

/-- 10_state.md R20, R30 to R35, R37, 70_reset_and_hazards.md R280: which register each parameter offset holds, and its reset
value 0.  While IDLE a host write is stored in it and changes nothing else; while BUSY the write is ignored and completes
without error. -/
def Obligations.ParameterRegistersHoldWritesUnlessBusy : Prop :=
  (∀ off ∈ [0x10, 0x14, 0x18, 0x1C, 0x20, 0x24, 0x28, 0x2C, 0x30, 0x34, 0x38], State.reset.busRead off = 0) ∧
  ∀ (s : State) (v : Word) (row : Nat × Word × State), row ∈
      [(0x10, s.ha, { s with ha := v }), (0x14, s.hb, { s with hb := v }), (0x18, s.ax, { s with ax := v }),
        (0x1C, s.ay, { s with ay := v }), (0x20, s.av, { s with av := v }), (0x24, s.dlen, { s with dlen := v }),
        (0x28, s.gbatLo, { s with gbatLo := v }), (0x2C, s.gbatHi, { s with gbatHi := v }),
        (0x30, s.grat, { s with grat := v }), (0x34, s.dx, { s with dx := v }), (0x38, s.dy, { s with dy := v })] →
    s.busRead row.1 = row.2.1 ∧
    (s.status.busy = false → s.busWrite row.1 v = row.2.2 ∧
      ∀ off : Nat, (s.busWrite row.1 v).busRead off = if off = row.1 then v else s.busRead off) ∧
    (s.status.busy = true → s.busWrite row.1 v = s ∧
      ∀ rest : List HostEvent, s.host = ⟨.write (s.params.regBase + row.1) 32 v, true⟩ :: rest →
        step s = .next { s with host := rest })

/-- 10_state.md R36, R38: ID always reads 0x4A42_5244 and ignores writes; offsets 0x40 to 0xFC read 0 and ignore writes.  And
offset 0x0C reads RESULT and ignores writes, BUSY or not (R20, R29). -/
def Obligations.IdAndReservedOffsetsIgnoreWrites : Prop :=
  (∀ (s : State) (v : Word), s.busRead 0x3C = 0x4A425244 ∧ s.busWrite 0x3C v = s) ∧
  (∀ (s : State) (off : Nat) (v : Word), 0x40 ≤ off → off ≤ 0xFC → s.busRead off = 0 ∧ s.busWrite off v = s) ∧
  (∀ (s : State) (v : Word), s.busRead 0x0C = s.result ∧ s.busWrite 0x0C v = s)

/-- 20_memory.md R65: a host access on its turn is refused unless it is 32 bits wide, 4-byte aligned and inside the window;
a legal read changes nothing in the block, and a legal write is the register's. -/
def Obligations.OnlyAlignedWordAccessesReachTheWindow : Prop :=
  ∀ (s : State) (addr width : Nat) (data : Word),
    let legal := width = 32 ∧ s.params.regBase ≤ addr ∧ addr < s.params.regBase + 256 ∧ (addr - s.params.regBase) % 4 = 0
    (s.hostTurn = some (.read addr width) →
      (legal → step s = .next { s with
        host := s.host.tail, seen := s.busRead (addr - s.params.regBase) :: s.seen }) ∧
      (¬legal → step s = .refused .busError)) ∧
    (s.hostTurn = some (.write addr width data) →
      (legal → step s = .next (({ s with host := s.host.tail } : State).busWrite (addr - s.params.regBase) data)) ∧
      (¬legal → step s = .refused .busError))

/-- The only stop of the machine is the refusal of an illegal host access (20_memory.md R65): no command and no other host
action ends in a fault or a refusal. -/
def Obligations.OnlyAnIllegalHostAccessStopsTheMachine : Prop :=
  ∀ s : State, (∃ t, step s = .next t) ∨
    (step s = .refused .busError ∧ ∃ addr width : Nat,
      (s.hostTurn = some (.read addr width) ∨ ∃ data, s.hostTurn = some (.write addr width data)) ∧
      ¬(width = 32 ∧ s.params.regBase ≤ addr ∧ addr < s.params.regBase + 256 ∧ (addr - s.params.regBase) % 4 = 0))

/-- 70_reset_and_hazards.md R270, R272: asserting reset, a command running or not, leaves every register 0 but ID, the
sequencer IDLE, no live descriptor, LTP 0 and IRQ deasserted, with no completion; then the block waits. -/
def Obligations.ResetInputResetsTheBlock : Prop :=
  ∀ (s : State) (rest : List HostEvent) (early : Bool), s.host = ⟨.reset, early⟩ :: rest →
    (s.status.busy = true → early = true) →
    ∃ t, step s = .next t ∧ t.host = rest ∧ t.params = s.params ∧ t.nHandles = s.nHandles ∧
      (∀ off : Nat, t.busRead off = if off = 0x3C then 0x4A425244 else 0) ∧ t.latched = none ∧
      t.status.done = false ∧ (∀ h : Word, t.image? h = none) ∧ t.usedBytes = 0 ∧ t.pipe.ltp = false ∧
      t.pipe.raster = none ∧ t.irq = false ∧ (rest = [] → step t = .next t)

/-- 10_state.md R48, R21 to R38: the reset values.  N_HANDLES, BUF_CAPACITY and REG_BASE of the reset state are the model's
own (log entries 9 to 11), and the statement does not rest on them. -/
def Obligations.ResetStateHoldsTheResetValues : Prop :=
  State.reset.status.busy = false ∧ State.reset.latched = none ∧ (∀ h : Word, State.reset.image? h = none) ∧
    State.reset.pipe.ltp = false ∧ State.reset.pipe.raster = none ∧ State.reset.irq = false ∧
    (∀ off : Nat, State.reset.busRead off = if off = 0x3C then 0x4A425244 else 0)

/-- 60_exceptions.md R249: IRQ is the level CTRL.IRQ_EN & STATUS.DONE, and the completion of any command, normal or error,
asserts it while IRQ_EN = 1. -/
def Obligations.CommandCompletionAssertsTheInterrupt : Prop :=
  (∀ s : State, s.irq = (s.irqEn && s.status.done)) ∧
  ∀ s t : State, s.hostTurn = none → s.status.busy = true → step s = .next t → t.irq = s.irqEn

/-- 60_exceptions.md R250: the four ways the host deasserts IRQ; CLRST is none, since its own completion sets DONE. -/
def Obligations.HostDeassertsTheInterrupt : Prop :=
  ∀ (s : State) (v : Word),
    (v.getLsbD 1 = true → (s.busWrite 0x04 v).irq = false) ∧ (v.getLsbD 0 = false → (s.busWrite 0x08 v).irq = false) ∧
    (s.status.busy = false → (s.busWrite 0x00 v).irq = false) ∧ s.assertReset.irq = false ∧
    ∃ t, exec .clrst s = .next t ∧ t.irq = s.irqEn

/-- 70_reset_and_hazards.md R289: two CMD writes of NOP with no WAIT.  The second is ordered after the first command's
completion, and both run, or before it, and it is ignored and sets OVERRUN. -/
def Obligations.RacingCmdWritesEndInOneOfTwoStates : Prop :=
  ∀ (s : State) (e e' : Bool), s.status.busy = false →
    s.host = [⟨.write s.params.regBase 32 0, e⟩, ⟨.write s.params.regBase 32 0, e'⟩] →
    ∃ t : State, Host.Core.run Sys2Proof.core 4 s = .next t ∧ t.host = [] ∧
      t.status = { s.status with
        busy := false, done := true, err := 0, sub := 0, overrun := s.status.overrun || e' }

/-- 10_state.md R25: FATAL is set only by a command that ends with an error of the fatal class, and cleared only by a host
write to STATUS with bit 2 set, CLRST or reset. -/
def Obligations.FatalChangesOnlyAsItsRuleSays : Prop :=
  ∀ s t : State, step s = .next t →
    (s.status.fatal = false → t.status.fatal = true →
      s.hostTurn = none ∧ s.status.busy = true ∧ t.status.err ≠ 0 ∧ t.status.err ≠ 5) ∧
    (s.status.fatal = true → t.status.fatal = false →
      (∃ v : Word, s.hostTurn = some (.write (s.params.regBase + 4) 32 v) ∧ v.getLsbD 2 = true) ∨
      s.hostTurn = some .reset ∨
      (s.hostTurn = none ∧ s.status.busy = true ∧ decode s.cmd = .ok .clrst))

/-- 10_state.md R26: OVERRUN is set only by a host write to CMD while BUSY = 1, and cleared only by a host write to STATUS
with bit 3 set, CLRST or reset. -/
def Obligations.OverrunChangesOnlyAsItsRuleSays : Prop :=
  ∀ s t : State, step s = .next t →
    (s.status.overrun = false → t.status.overrun = true →
      s.status.busy = true ∧ ∃ v : Word, s.hostTurn = some (.write s.params.regBase 32 v)) ∧
    (s.status.overrun = true → t.status.overrun = false →
      (∃ v : Word, s.hostTurn = some (.write (s.params.regBase + 4) 32 v) ∧ v.getLsbD 3 = true) ∨
      s.hostTurn = some .reset ∨
      (s.hostTurn = none ∧ s.status.busy = true ∧ decode s.cmd = .ok .clrst))

/-- 10_state.md R23, R24, R27, R29: only the completion of a command and reset change ERR, SUB and RESULT or set DONE, and no
host action but an accepted CMD write sets BUSY.  An IDLE block with no host action pending keeps its whole state
(60_exceptions.md R257; that this is a step is the model's reading, log entry 3). -/
def Obligations.OnlyCompletionRecordsAnOutcome : Prop :=
  ∀ s t : State, step s = .next t →
    (∀ op : HostOp, s.hostTurn = some op → op ≠ .reset →
      t.status.err = s.status.err ∧ t.status.sub = s.status.sub ∧ t.result = s.result ∧
      (s.status.done = false → t.status.done = false) ∧ (s.status.busy = true → t.status.busy = true) ∧
      (s.status.busy = false → t.status.busy = true → ∃ v : Word, op = .write s.params.regBase 32 v)) ∧
    (s.hostTurn = none → s.status.busy = false → t = s)

/-! ### All commands -/

/-- 70_reset_and_hazards.md R286, 10_state.md R23, R24, R45: every command, from every state, runs to its completion: BUSY 0,
DONE 1, nothing latched and no raster position. -/
def Obligations.EveryCommandCompletes : Prop :=
  ∀ (i : Instr) (s : State), ∃ t, exec i s = .next t ∧ t.status.busy = false ∧ t.status.done = true ∧
    t.latched = none ∧ t.pipe.raster = none

/-- 60_exceptions.md R245: no command changes a host-written register: CMD still holds the command word and the parameter
registers the operands.  Nor does one change CTRL, the parameters of the block, the number of slots or OVERRUN, which CLRST
alone clears. -/
def Obligations.CommandsKeepTheHostRegisters : Prop :=
  ∀ (i : Instr) (s t : State), exec i s = .next t →
    t.cmd = s.cmd ∧ t.irqEn = s.irqEn ∧ t.ha = s.ha ∧ t.hb = s.hb ∧ t.ax = s.ax ∧ t.ay = s.ay ∧ t.av = s.av ∧
    t.dlen = s.dlen ∧ t.gbatLo = s.gbatLo ∧ t.gbatHi = s.gbatHi ∧ t.grat = s.grat ∧ t.dx = s.dx ∧ t.dy = s.dy ∧
    t.params = s.params ∧ t.nHandles = s.nHandles ∧ t.host = s.host ∧ t.seen = s.seen ∧
    (i ≠ .clrst → t.status.overrun = s.status.overrun)

/-- 20_memory.md R62: a command changes no image but the one HA names, nor any byte of another (IMG_NEW: no live image);
GET, READB, PRECHECK, NOP and CLRST change none. -/
def Obligations.CommandsTouchOnlyTheirDestination : Prop :=
  ∀ (i : Instr) (s t : State), exec i s = .next t →
    (i ≠ .imgNew → ∀ g : Word, g ≠ s.ha → t.image? g = s.image? g ∧ ∀ off, t.byte? g off = s.byte? g off) ∧
    (i = .imgNew → ∀ (g : Word) (im : Image), s.image? g = some im →
      t.image? g = some im ∧ ∀ off, t.byte? g off = s.byte? g off) ∧
    (i ∈ [.imgGet, .imgReadb, .genPrecheck, .nop, .clrst] → t.descs = s.descs)

/-- 10_state.md R46, R43: only a decode changes the stats RAM, LTP or the coder. -/
def Obligations.OnlyDecodesTouchThePipeline : Prop :=
  ∀ (i : Instr) (s t : State), exec i s = .next t →
    (∀ g tp mmr, i ≠ genInstr g tp mmr) → (∀ r tp, i ≠ refInstr r tp) →
    t.pipe = { s.pipe with raster := none }

/-- 60_exceptions.md R240, R259, 41_compose.md R148: no command records ERR 4 (NOT_IMPLEMENTED), 6 (COMPOSE_RANGE) or a
reserved code, from any state. -/
def Obligations.NeverRaisedCodesAreNeverRecorded : Prop :=
  ∀ s t : State, s.hostTurn = none → s.status.busy = true → step s = .next t →
    (t.status.err.toNat, t.status.sub.toNat) ∈ legalCodes

/-- 10_state.md R42 and the rest of `State.Inv`: every step keeps the invariant. -/
def Obligations.StepKeepsTheInvariant : Prop :=
  ∀ s t : State, s.Inv → step s = .next t → t.Inv

/-- The reset state meets the invariant.  Its N_HANDLES and BUF_CAPACITY are the model's choice (log entries 9, 10). -/
def Obligations.ResetMeetsTheInvariant : Prop := State.reset.Inv

/-! ### The end of a command -/

/-- 60_exceptions.md R242: what `complete(v)` writes, and that it writes nothing else (the raster position is discarded,
R45). -/
def Obligations.CompletionRecordsItsResult : Prop :=
  ∀ (s : State) (v : Word), s.complete v =
    { s with
      result := v
      status := { s.status with err := 0, sub := 0, done := true, busy := false }
      pipe := { s.pipe with raster := none } }

/-- 60_exceptions.md R243, R240, R241, R244: what each error records, by its code, subcause, class and RESULT, and that it
writes nothing else (the raster position is discarded, R45). -/
def Obligations.ErrorsRecordTheirCodes : Prop :=
  ∀ (s : State) (row : Cause × BitVec 4 × BitVec 8), row ∈
      [(.nonpositiveDims, 1, 1), (.sizeOverflow, 1, 2), (.noHandle, 1, 3), (.noCapacity, 1, 4), (.dosGuard, 2, 1),
        (.mmrUnsupported, 2, 2), (.resizeWidthUnsupported, 2, 3), (.badTemplate, 2, 4), (.badHandle, 2, 5),
        (.aliased, 2, 6), (.badOp, 2, 7), (.refcountOverflow, 2, 8), (.badDims, 2, 9), (.coderExhaustion, 3, 0),
        (.notImplemented, 4, 0), (.range, 5, 0), (.composeRange, 6, 0), (.unknownOpcode, 7, 1), (.reservedBits, 7, 2)] →
    s.raise row.1 =
      { s with
        result := if row.1 = .range then 1 else 0
        status := { s.status with
          err := row.2.1, sub := row.2.2, done := true, busy := false
          fatal := s.status.fatal || decide (row.1 ≠ .range) }
        pipe := { s.pipe with raster := none } }

/-! ### Control -/

/-- 44_control.md R230: NOP completes with RESULT 0, ERR OK and SUB 0, FATAL and OVERRUN as they were, and changes nothing
else. -/
def Obligations.NopOnlyCompletes : Prop :=
  ∀ s : State, exec .nop s = .next
    { s with
      result := 0
      status := { s.status with err := 0, sub := 0, done := true, busy := false }
      pipe := { s.pipe with raster := none } }

/-- 44_control.md R231: CLRST clears FATAL and OVERRUN and completes, and changes nothing else. -/
def Obligations.ClrstClearsTheStickyBits : Prop :=
  ∀ s : State, exec .clrst s = .next
    { s with
      result := 0
      status := { busy := false, done := true, fatal := false, overrun := false, err := 0, sub := 0 }
      pipe := { s.pipe with raster := none } }

/-! ### The bitmap unit -/

/-- 40_bitmap.md R112: a handle is valid when it is 1 to N_HANDLES and its slot is live; a command that names one that is not
ends with BAD_HANDLE and changes nothing else. -/
def Obligations.InvalidHandlesAreRejected : Prop :=
  (∀ (s : State) (h : Word) (im : Image), s.image? h = some im ↔
    1 ≤ h.toNat ∧ h.toNat ≤ s.nHandles ∧ s.descs[h.toNat - 1]? = some (some im)) ∧
  (∀ (s : State) (i : Instr) (clrv tp : Bool), s.image? s.ha = none →
    i ∈ [.imgClone, .imgRelease, .imgGet, .imgSet, .imgClear clrv, .imgResize, .imgReadb, .imgWriteb, .composeOr,
      .composeAnd, .composeXor, .composeXnor, .composeReplace, .genDecodeT0 tp false, .genDecodeT1 tp false,
      .genDecodeT2 tp false, .genDecodeT3 tp false, .refDecodeT0 tp, .refDecodeT1 tp] →
    exec i s = .next (s.raise .badHandle)) ∧
  (∀ (s : State) (i : Instr) (tp : Bool), s.image? s.hb = none →
    i ∈ [.composeOr, .composeAnd, .composeXor, .composeXnor, .composeReplace, .refDecodeT0 tp, .refDecodeT1 tp] →
    exec i s = .next (s.raise .badHandle))

/-- 40_bitmap.md R113: IMG_NEW, its four checks in order, and the zeroed image in the least free slot. -/
def Obligations.ImgNewFollowsItsRule : Prop :=
  ∀ s : State,
    let w := s.ax.toInt
    let h := s.ay.toInt
    let need := (w + 7) / 8 * h + 1
    (w ≤ 0 ∨ h ≤ 0 → exec .imgNew s = .next (s.raise .nonpositiveDims)) ∧
    (0 < w → 0 < h → need > 2 ^ 31 - 1 → exec .imgNew s = .next (s.raise .sizeOverflow)) ∧
    (0 < w → 0 < h → need ≤ 2 ^ 31 - 1 →
      ((∀ d ∈ s.descs, d ≠ none) → exec .imgNew s = .next (s.raise .noHandle)) ∧
      (∀ k : Nat, s.descs[k]? = some none → (∀ g < k, s.descs[g]? ≠ some none) →
        (s.usedBytes + need > s.params.bufCapacity → exec .imgNew s = .next (s.raise .noCapacity)) ∧
        (s.usedBytes + need ≤ s.params.bufCapacity →
          exec .imgNew s = .next (State.complete (BitVec.ofNat 32 (k + 1))
            { s with descs := s.descs.set k (some { w := w.toNat, h := h.toNat, refcnt := 1, mem := [] }) }))))

/-- 40_bitmap.md R113: the handle IMG_NEW returns was free and is the least free one, and names an image of the size asked
for, with one reference, every bit of it 0, padding included. -/
def Obligations.NewImagesAreZero : Prop :=
  ∀ s t : State, s.Inv → exec .imgNew s = .next t → t.status.err = 0 →
    s.image? t.result = none ∧ (∀ g : Word, 1 ≤ g.toNat → g.toNat < t.result.toNat → s.image? g ≠ none) ∧
    ∃ im : Image, t.image? t.result = some im ∧ (im.w : Int) = s.ax.toInt ∧ (im.h : Int) = s.ay.toInt ∧ im.refcnt = 1 ∧
      (∀ p y : Nat, im.bit p y = false) ∧ ∀ off, off < im.size → t.byte? t.result off = some 0

/-- 40_bitmap.md R114, R115: IMG_CLONE adds a reference, IMG_RELEASE drops one and frees the image at zero, so that its handle
is no longer valid. -/
def Obligations.CloneAndReleaseCountReferences : Prop :=
  ∀ (s : State) (im : Image), s.image? s.ha = some im → 1 ≤ im.refcnt →
    (im.refcnt ≠ 2 ^ 32 - 1 →
      exec .imgClone s = .next ((s.setImage s.ha (some { im with refcnt := im.refcnt + 1 })).complete s.ha)) ∧
    (im.refcnt = 2 ^ 32 - 1 → exec .imgClone s = .next (s.raise .refcountOverflow)) ∧
    (im.refcnt ≠ 1 → exec .imgRelease s = .next ((s.setImage s.ha (some { im with refcnt := im.refcnt - 1 })).complete
      (BitVec.ofNat 32 (im.refcnt - 1)))) ∧
    (im.refcnt = 1 → ∃ t, exec .imgRelease s = .next t ∧ t = (s.setImage s.ha none).complete 0 ∧ t.image? s.ha = none ∧
      t.usedBytes + im.need = s.usedBytes)

/-- 40_bitmap.md R116, R110, 20_memory.md R60: IMG_GET returns bit 7 − (x mod 8) of byte y × STRIDE + ⌊x/8⌋, and 0 outside
the image. -/
def Obligations.ImgGetReturnsThePixel : Prop :=
  ∀ (s : State) (im : Image), s.image? s.ha = some im →
    let x := s.ax.toInt
    let y := s.ay.toInt
    (0 ≤ x → x < im.w → 0 ≤ y → y < im.h →
      exec .imgGet s = .next (s.complete
        (if (im.mem.read (y.toNat * ((im.w + 7) / 8) + x.toNat / 8)).getLsbD (7 - x.toNat % 8) then 1 else 0))) ∧
    (¬(0 ≤ x ∧ x < im.w ∧ 0 ≤ y ∧ y < im.h) → exec .imgGet s = .next (s.complete 0))

/-- 40_bitmap.md R117, R111: IMG_SET writes one pixel, in the byte the pixel's address names, leaving every other bit of the
image, padding included; outside the image it raises RANGE and writes nothing. -/
def Obligations.ImgSetWritesOnePixel : Prop :=
  ∀ (s : State) (im : Image), s.image? s.ha = some im → im.mem.wf →
    let x := s.ax.toInt
    let y := s.ay.toInt
    (0 ≤ x → x < im.w → 0 ≤ y → y < im.h → ∃ im' : Image,
      exec .imgSet s = .next ((s.setImage s.ha (some im')).complete 0) ∧
      im'.w = im.w ∧ im'.h = im.h ∧ im'.refcnt = im.refcnt ∧
      (∀ a, a ≠ im.pixOff x y → im'.mem.read a = im.mem.read a) ∧
      (∀ p q : Nat, p < 8 * im.stride →
        im'.bit p q = if p = x.toNat ∧ q = y.toNat then s.av.getLsbD 0 else im.bit p q)) ∧
    (¬(0 ≤ x ∧ x < im.w ∧ 0 ≤ y ∧ y < im.h) → exec .imgSet s = .next (s.raise .range))

/-- 40_bitmap.md R122: what IMG_GET returns right after an IMG_SET that wrote, at every position: the value set at the pixel
itself, the old value at every other pixel, 0 outside; and the padding is as it was. -/
def Obligations.GetAfterSetReturnsTheValue : Prop :=
  ∀ (s t : State) (im : Image) (ax ay : Word), s.image? s.ha = some im → im.mem.wf →
    exec .imgSet s = .next t → t.status.err = 0 →
    ∃ (im' : Image) (u : State), t.image? s.ha = some im' ∧ im'.w = im.w ∧ im'.h = im.h ∧
      (∀ p q : Nat, im.isPadding p q → im'.bit p q = im.bit p q) ∧
      exec .imgGet { t with ax := ax, ay := ay } = .next u ∧
      (¬(0 ≤ ax.toInt ∧ ax.toInt < im.w ∧ 0 ≤ ay.toInt ∧ ay.toInt < im.h) → u.result = 0) ∧
      (0 ≤ ax.toInt ∧ ax.toInt < im.w ∧ 0 ≤ ay.toInt ∧ ay.toInt < im.h →
        u.result = if (if ax = s.ax ∧ ay = s.ay then s.av.getLsbD 0 else im.pix ax.toInt ay.toInt) then 1 else 0)

/-- 40_bitmap.md R118: IMG_CLEAR gives every byte of the buffer the fill value, padding included. -/
def Obligations.ImgClearFillsEveryByte : Prop :=
  ∀ (s : State) (im : Image) (clrv : Bool), s.image? s.ha = some im →
    ∃ im' : Image, exec (.imgClear clrv) s = .next ((s.setImage s.ha (some im')).complete 0) ∧
      im'.w = im.w ∧ im'.h = im.h ∧ im'.refcnt = im.refcnt ∧
      ∀ off, off < im.size → im'.mem.read off = if clrv then 0xFF else 0x00

/-- 40_bitmap.md R119: IMG_RESIZE, its checks in order, the kept rows byte for byte and the new rows 0. -/
def Obligations.ImgResizeKeepsTheKeptRows : Prop :=
  ∀ (s : State) (im : Image), s.Inv → s.image? s.ha = some im →
    let w := s.ax.toInt
    let h := s.ay.toInt
    let need := (im.stride : Int) * h + 1
    let total := (s.usedBytes : Int) - (im.stride * im.h + 1) + need
    (w ≠ im.w → exec .imgResize s = .next (s.raise .resizeWidthUnsupported)) ∧
    (w = im.w → h ≤ 0 → exec .imgResize s = .next (s.raise .nonpositiveDims)) ∧
    (w = im.w → 0 < h → need > 2 ^ 31 - 1 → exec .imgResize s = .next (s.raise .sizeOverflow)) ∧
    (w = im.w → 0 < h → need ≤ 2 ^ 31 - 1 → total > s.params.bufCapacity →
      exec .imgResize s = .next (s.raise .noCapacity)) ∧
    (w = im.w → 0 < h → need ≤ 2 ^ 31 - 1 → total ≤ s.params.bufCapacity → ∃ im' : Image,
      exec .imgResize s = .next ((s.setImage s.ha (some im')).complete 0) ∧
      im'.w = im.w ∧ (im'.h : Int) = h ∧ im'.refcnt = im.refcnt ∧
      ∀ off, off < im'.size → im'.mem.read off = if off < im.stride * min im.h im'.h then im.mem.read off else 0)

/-- 40_bitmap.md R120, R121: IMG_READB returns the byte at the offset, zero-extended, and 0 outside the buffer; IMG_WRITEB
writes that byte and no other, and outside the buffer raises RANGE and writes nothing. -/
def Obligations.BytePortReadsAndWritesOneByte : Prop :=
  ∀ (s : State) (im : Image), s.image? s.ha = some im → im.mem.wf →
    (0 ≤ s.ax.toInt → s.ax.toInt < im.size →
      exec .imgReadb s = .next (s.complete (BitVec.ofNat 32 (im.mem.read s.ax.toInt.toNat).toNat)) ∧
      ∃ im' : Image, exec .imgWriteb s = .next ((s.setImage s.ha (some im')).complete 0) ∧
        im'.w = im.w ∧ im'.h = im.h ∧ im'.refcnt = im.refcnt ∧
        ∀ a, im'.mem.read a = if a = s.ax.toInt.toNat then s.av.setWidth 8 else im.mem.read a) ∧
    (s.ax.toInt < 0 ∨ s.ax.toInt ≥ im.size →
      exec .imgReadb s = .next (s.complete 0) ∧ exec .imgWriteb s = .next (s.raise .range))

/-! ### The compositors -/

/-- 41_compose.md R142 to R146, with R140 and R141: each operator gives every destination pixel that a source pixel lands on
OP(s, d) and leaves every other pixel; the command words of the five. -/
def Obligations.ComposeCombinesThePixels : Prop :=
  (encode .composeOr = 0x00000010 ∧ encode .composeAnd = 0x00001010 ∧ encode .composeXor = 0x00002010 ∧
    encode .composeXnor = 0x00003010 ∧ encode .composeReplace = 0x00004010) ∧
  ∀ (row : Instr × (Bool → Bool → Bool)), row ∈
      [(.composeOr, fun s d => s || d), (.composeAnd, fun s d => s && d), (.composeXor, fun s d => s ^^ d),
        (.composeXnor, fun s d => !(s ^^ d)), (.composeReplace, fun s _ => s)] →
    ∀ (s : State) (dst src : Image), s.image? s.ha = some dst → s.image? s.hb = some src → s.ha ≠ s.hb → dst.mem.wf →
      ∃ im' : Image, exec row.1 s = .next ((s.setImage s.ha (some im')).complete 0) ∧
        im'.w = dst.w ∧ im'.h = dst.h ∧ im'.refcnt = dst.refcnt ∧
        ∀ x y : Int, im'.pix x y =
          if dst.inRange x y && src.inRange (x - s.ax.toInt) (y - s.ay.toInt)
          then row.2 (src.pix (x - s.ax.toInt) (y - s.ay.toInt)) (dst.pix x y) else dst.pix x y

/-- 20_memory.md R69 and 41_compose.md corner cases (1) and (2): COMPOSE writes no byte that holds no pixel of the clipped
rectangle, no padding bit, and nothing of the source. -/
def Obligations.ComposeWritesOnlyTheClippedPixels : Prop :=
  ∀ (op : ComposeOp) (s : State) (dst src : Image), s.image? s.ha = some dst → s.image? s.hb = some src → s.ha ≠ s.hb →
    dst.wf → ∃ (t : State) (im' : Image), exec (composeInstr op) s = .next t ∧ t.image? s.ha = some im' ∧
      t.image? s.hb = some src ∧
      (∀ p q : Nat, dst.isPadding p q → im'.bit p q = dst.bit p q) ∧
      (∀ a, (∀ x y : Int, dst.inRange x y = true → src.inRange (x - s.ax.toInt) (y - s.ay.toInt) = true →
          a ≠ dst.pixOff x y) → im'.mem.read a = dst.mem.read a)

/-- 41_compose.md R140, 43_refinement.md R200: the same valid handle as destination and source or reference ends with ALIAS
and changes nothing else. -/
def Obligations.AliasedOperandsAreRejected : Prop :=
  ∀ (s : State) (im : Image) (i : Instr) (tp : Bool), s.image? s.ha = some im → s.ha = s.hb →
    i ∈ [.composeOr, .composeAnd, .composeXor, .composeXnor, .composeReplace, .refDecodeT0 tp, .refDecodeT1 tp] →
    exec i s = .next (s.raise .aliased)

/-- 41_compose.md R149 (a): REPLACE at (0, 0) with equal sizes copies every pixel, and the buffers are byte-identical when
their padding was. -/
def Obligations.ReplaceOfEqualSizesCopiesTheSource : Prop :=
  ∀ (s : State) (dst src : Image), s.image? s.ha = some dst → s.image? s.hb = some src → s.ha ≠ s.hb → dst.wf → src.wf →
    dst.w = src.w → dst.h = src.h → s.ax = 0 → s.ay = 0 →
    ∃ (t : State) (im' : Image), exec .composeReplace s = .next t ∧ t.image? s.ha = some im' ∧
      (∀ x y : Int, im'.pix x y = src.pix x y) ∧
      ((∀ p q : Nat, dst.isPadding p q → dst.bit p q = src.bit p q) → im'.mem = src.mem)

/-- 41_compose.md R149 (b): OR-composites of two sources onto one destination give the same bytes in either order. -/
def Obligations.OrCompositesCommute : Prop :=
  ∀ (s : State) (dst src₁ src₂ : Image) (h₁ h₂ x₁ y₁ x₂ y₂ : Word), s.image? s.ha = some dst → s.image? h₁ = some src₁ →
    s.image? h₂ = some src₂ → s.ha ≠ h₁ → s.ha ≠ h₂ → dst.wf →
    ∃ (a b a' b' : State) (im : Image),
      exec .composeOr (s.composeFrom h₁ x₁ y₁) = .next a ∧ exec .composeOr (a.composeFrom h₂ x₂ y₂) = .next b ∧
      exec .composeOr (s.composeFrom h₂ x₂ y₂) = .next a' ∧ exec .composeOr (a'.composeFrom h₁ x₁ y₁) = .next b' ∧
      b.image? s.ha = some im ∧ b'.image? s.ha = some im

/-! ### The decoders -/

/-- 20_memory.md R71: one coder request carries the entry of its context; an answered one writes that entry and no other, a
FAIL leaves them all.  70_reset_and_hazards.md R273, R283: a host action binds the coder at once, or disturbs it once it has
answered `n` more requests, so also between two requests of a running decode, and the block does not see it (the host's action
as plain data is the model's own, log entry 26). -/
def Obligations.ArithDecodeWritesOnlyTheAnsweredEntry : Prop :=
  (∀ (p : Pipeline) (cx : Nat), p.stats.wf →
    (p.coder.decode (p.stats.read cx) = none → ∃ p', arithDecode cx p = .error p' ∧ p'.stats = p.stats ∧
      p'.ltp = p.ltp ∧ p'.coderLog = ⟨cx, p.stats.read cx, none⟩ :: p.coderLog) ∧
    (∀ b e' c', p.coder.decode (p.stats.read cx) = some (b, e', c') → ∃ p', arithDecode cx p = .ok (b, p') ∧
      (∀ a, p'.stats.read a = if a = cx then e' else p.stats.read a) ∧ p'.coder = c' ∧ p'.ltp = p.ltp ∧
      p'.coderLog = ⟨cx, p.stats.read cx, some b⟩ :: p.coderLog)) ∧
  (∀ (s : State) (c : CoderState) (n : Nat), s.hostTurn = some (.bindCoder c n) →
    step s = .next { s with host := s.host.tail, pipe := { s.pipe with coder := s.pipe.coder.rebind n c } }) ∧
  (∀ (now c : CoderState) (n : Nat) (e : Entry), now.rebind 0 c = c ∧
    (now.rebind (n + 1) c).decode e = (now.decode e).map fun r => (r.1, r.2.1, r.2.2.rebind n c))

/-- 42_generic.md R160, R161: GEN_PRECHECK rejects non-positive sizes, then an area of stride × H > 2^24 bytes with
DLEN < ⌊area / 256⌋, and otherwise completes; nothing else changes. -/
def Obligations.PrecheckRunsTheDosGuard : Prop :=
  ∀ s : State,
    let w := s.ax.toInt
    let h := s.ay.toInt
    let area := (w + 7) / 8 * h
    (w ≤ 0 ∨ h ≤ 0 → exec .genPrecheck s = .next (s.raise .badDims)) ∧
    (0 < w → 0 < h → area > 2 ^ 24 → (s.dlen.toNat : Int) < area / 256 →
      exec .genPrecheck s = .next (s.raise .dosGuard)) ∧
    (0 < w → 0 < h → ¬(area > 2 ^ 24 ∧ (s.dlen.toNat : Int) < area / 256) → exec .genPrecheck s = .next (s.complete 0))

/-- 42_generic.md R171: the precondition checks of GEN_DECODE in their order, each changing nothing but STATUS and RESULT. -/
def Obligations.GenDecodeChecksInOrder : Prop :=
  ∀ (t : GenTemplate) (tp : Bool) (s : State),
    exec (genInstr t tp true) s = .next (s.raise .mmrUnsupported) ∧
    (s.image? s.ha = none → exec (genInstr t tp false) s = .next (s.raise .badHandle)) ∧
    (∀ im : Image, s.image? s.ha = some im → im.size > 2 ^ 24 → s.dlen.toNat < im.size / 256 →
      exec (genInstr t tp false) s = .next (s.raise .dosGuard))

/-- 42_generic.md R172, R177 to R180, R181 (d): with a valid destination that passes the DOS guard and a coder that answers
every request, each of the four GEN_DECODE commands completes with OK, the image keeps its size and its references, and every
padding bit of it is 0. -/
def Obligations.GenDecodeCompletes : Prop :=
  ∀ (t : GenTemplate) (tp : Bool) (s : State) (im : Image) (bits : List Bool), s.image? s.ha = some im → im.wf →
    ¬(im.size > 2 ^ 24 ∧ s.dlen.toNat < im.size / 256) → s.pipe.coder = .script bits →
    requestBound tp im ≤ bits.length →
    ∃ (u : State) (im' : Image), exec (genInstr t tp false) s = .next u ∧ u.image? s.ha = some im' ∧
      u.status = { s.status with busy := false, done := true, err := 0, sub := 0 } ∧ u.result = 0 ∧
      im'.w = im.w ∧ im'.h = im.h ∧ im'.refcnt = im.refcnt ∧ ∀ p q : Nat, im'.isPadding p q → im'.bit p q = false

/-- 42_generic.md R163 to R168, R170, R172 to R175, 30_encoding.md R86.  First the tables: bit b of the context of template t
is the pixel listed at place b, AT offsets read from the bytes of GBAT_LO and GBAT_HI, and the TP contexts (the layouts are
PRESUMED, as the spec marks them: log entry 13).  Then a GEN_DECODE that succeeds, at any AT offsets, causal or not, leaves
an image that agrees with its request log: row by row the SLTP request with TP, then a request a pixel with the pixel's
context in the buffer as it stands there, answered with the pixel; a row with LTP = 1 sends no more and is a byte-for-byte
copy of the row above, or zeros.  A scripted coder's answers are the first bits of its script, in order, and the rest is the
coder left. -/
def Obligations.GenDecodeAgreesWithItsRequests : Prop :=
  (∀ (lo hi : Word) (P : Int → Int → Bool) (x y : Int),
    let g : Nat → Int := fun k => if k < 4 then signedByte lo k else signedByte hi (k - 4)
    let pixels : GenTemplate → List Bool := fun
      | .t0 => [P (x - 1) y, P (x - 2) y, P (x - 3) y, P (x - 4) y, P (x + g 0) (y + g 1), P (x + 2) (y - 1),
          P (x + 1) (y - 1), P x (y - 1), P (x - 1) (y - 1), P (x - 2) (y - 1), P (x + g 2) (y + g 3),
          P (x + g 4) (y + g 5), P (x + 1) (y - 2), P x (y - 2), P (x - 1) (y - 2), P (x + g 6) (y + g 7)]
      | .t1 => [P (x - 1) y, P (x - 2) y, P (x - 3) y, P (x + g 0) (y + g 1), P (x + 2) (y - 1), P (x + 1) (y - 1),
          P x (y - 1), P (x - 1) (y - 1), P (x - 2) (y - 1), P (x + 2) (y - 2), P (x + 1) (y - 2), P x (y - 2),
          P (x - 1) (y - 2)]
      | .t2 => [P (x - 1) y, P (x - 2) y, P (x + g 0) (y + g 1), P (x + 1) (y - 1), P x (y - 1), P (x - 1) (y - 1),
          P (x - 2) (y - 1), P (x + 1) (y - 2), P x (y - 2), P (x - 1) (y - 2)]
      | .t3 => [P (x - 1) y, P (x - 2) y, P (x - 3) y, P (x - 4) y, P (x + g 0) (y + g 1), P (x + 1) (y - 1),
          P x (y - 1), P (x - 1) (y - 1), P (x - 2) (y - 1), P (x - 3) (y - 1)]
    ∀ (t : GenTemplate) (b : Nat),
      (genContextOf t (genAtOf lo hi) P x y).testBit b = (pixels t).getD b false) ∧
  (GenTemplate.t0.tpCx = 0x9B25 ∧ GenTemplate.t1.tpCx = 0x0795 ∧ GenTemplate.t2.tpCx = 0x00E5 ∧
    GenTemplate.t3.tpCx = 0x0195) ∧
  ∀ (t : GenTemplate) (tp : Bool) (s u : State) (im : Image), s.image? s.ha = some im → im.wf →
    exec (genInstr t tp false) s = .next u → u.status.err = 0 →
    ∃ (im' : Image) (sltp : List Bool) (made : List CoderRequest), u.image? s.ha = some im' ∧ im'.w = im.w ∧ im'.h = im.h ∧
      im'.refcnt = im.refcnt ∧ sltp.length = im.h ∧
      u.pipe.coderLog = made ++ s.pipe.coderLog ∧
      made.map CoderRequest.view =
        ((List.range im.h).flatMap (genRowLog t tp (genAtOf s.gbatLo s.gbatHi) im im' sltp im.w)).reverse ∧
      (∀ bits : List Bool, s.pipe.coder = .script bits →
        made.reverse.map CoderRequest.answer = (bits.take made.length).map some ∧ made.length ≤ bits.length ∧
        u.pipe.coder = .script (bits.drop made.length)) ∧
      (tp = true → ∀ y p : Nat, y < im.h → p < 8 * im.stride → rowLtp sltp y = true →
        im'.bit p y = if y = 0 then false else im'.bit p (y - 1)) ∧
      (∀ p q : Nat, im'.isPadding p q → im'.bit p q = false)

/-- 42_generic.md R181 (a): TP forcing.  A scripted coder that answers 0 to every SLTP leaves GEN_DECODE with TP = 1 with the
image of the decode with TP = 0 given the same other answers, and the same requests but for one SLTP request a row. -/
def Obligations.ForcedTpGivesThePlainGenericDecode : Prop :=
  ∀ (t : GenTemplate) (s : State) (im : Image) (rows : List (List Bool)), s.image? s.ha = some im → im.wf →
    ¬(im.size > 2 ^ 24 ∧ s.dlen.toNat < im.size / 256) → rows.length = im.h → (∀ r ∈ rows, r.length = im.w) →
    ∃ (u v : State) (chunks : List (List (Nat × Option Bool))),
      exec (genInstr t true false) (s.withCoder (.script (rows.flatMap fun r => false :: r))) = .next u ∧
      exec (genInstr t false false) (s.withCoder (.script rows.flatten)) = .next v ∧
      u.status.err = 0 ∧ v.status.err = 0 ∧ u.image? s.ha = v.image? s.ha ∧ u.pipe.ltp = false ∧
      chunks.length = im.h ∧ (∀ c ∈ chunks, c.length = im.w) ∧
      v.pipe.coderLog.map CoderRequest.view = chunks.flatten.reverse ++ s.pipe.coderLog.map CoderRequest.view ∧
      u.pipe.coderLog.map CoderRequest.view =
        (chunks.flatMap fun c => (t.tpCx, some false) :: c).reverse ++ s.pipe.coderLog.map CoderRequest.view

/-- 42_generic.md R181 (c): with causal AT pixels the result of a successful GEN_DECODE does not depend on what the destination
held before: from any other buffer of the same size the command ends in the very same state. -/
def Obligations.GenDecodeIgnoresPriorContents : Prop :=
  ∀ (t : GenTemplate) (tp : Bool) (s u : State) (im : Image) (m : Memory), s.image? s.ha = some im → im.wf → m.wf →
    (∀ c ∈ m, c.1 < im.size) → (genAtOf s.gbatLo s.gbatHi).causalFor t →
    exec (genInstr t tp false) s = .next u → u.status.err = 0 →
    exec (genInstr t tp false) (s.setImage s.ha (some { im with mem := m })) = .next u

/-- 42_generic.md R176, 43_refinement.md R208 (a): a decode that the coder fails in row `y`, at the request for its pixel `n`
(`none`: at its SLTP request), keeps exactly what it wrote: the rows before are decoded or copied whole, row `y` holds its
first `n` decoded pixels and cleared padding, and every other stored bit is as it was; the reference is unchanged. -/
def Obligations.FailedDecodesLeaveThePartialImage : Prop :=
  (∀ (t : GenTemplate) (tp : Bool) (s u : State) (im : Image), s.image? s.ha = some im → im.wf →
    exec (genInstr t tp false) s = .next u → u.status.err = 3 →
    let a := genAtOf s.gbatLo s.gbatHi
    ∃ (im' : Image) (sltp : List Bool) (y : Nat) (n : Option Nat), u.image? s.ha = some im' ∧ im'.w = im.w ∧
      im'.h = im.h ∧ im'.refcnt = im.refcnt ∧ y < im.h ∧ (n = none → tp = true) ∧ (∀ x ∈ n, x < im.w) ∧
      (n ≠ none → (tp && rowLtp sltp y) = false) ∧
      u.pipe.coderLog.map CoderRequest.view =
        ((List.range y).flatMap (genRowLog t tp a im im' sltp im.w) ++
          match n with
          | none => [(t.tpCx, none)]
          | some x => genRowLog t tp a im im' sltp x y ++ [(genContextOf t a (im.asOf im' x y) x y, none)]).reverse
        ++ s.pipe.coderLog.map CoderRequest.view ∧
      ∀ p q : Nat, p < 8 * im.stride → q < im.h →
        (q < y → (tp && rowLtp sltp q) = true → im'.bit p q = if q = 0 then false else im'.bit p (q - 1)) ∧
        (q < y → (tp && rowLtp sltp q) = false → im.w ≤ p → im'.bit p q = false) ∧
        (q = y → n ≠ none → im.w ≤ p → im'.bit p q = false) ∧
        (q = y → (∀ x ∈ n, x ≤ p ∧ p < im.w) → im'.bit p q = im.bit p q) ∧
        (y < q → im'.bit p q = im.bit p q)) ∧
  (∀ (t : RefTemplate) (tp : Bool) (s u : State) (im r : Image), s.image? s.ha = some im → s.image? s.hb = some r →
    s.ha ≠ s.hb → im.wf → exec (refInstr t tp) s = .next u → u.status.err = 3 →
    let o := s.refOperands r
    ∃ (im' : Image) (sltp : List Bool) (y : Nat) (n : Option Nat), u.image? s.ha = some im' ∧ u.image? s.hb = some r ∧
      im'.w = im.w ∧ im'.h = im.h ∧ im'.refcnt = im.refcnt ∧ y < im.h ∧ (n = none → tp = true) ∧
      (∀ x ∈ n, x < im.w ∧ implied tp o sltp x y = false) ∧
      u.pipe.coderLog.map CoderRequest.view =
        ((List.range y).flatMap (refRowLog t tp o im im' sltp im.w) ++
          match n with
          | none => [(t.tpCx, none)]
          | some x => refRowLog t tp o im im' sltp x y ++ [(refContextOf t o (im.asOf im' x y) x y, none)]).reverse
        ++ s.pipe.coderLog.map CoderRequest.view ∧
      (∀ (p q : Nat) (m : Bool), p < im.w → (q < y ∨ q = y ∧ ∃ x ∈ n, p < x) → implied tp o sltp p q = true →
        implicitValue o p q = some m → im'.pix p q = m) ∧
      ∀ p q : Nat, p < 8 * im.stride → q < im.h →
        ((q < y ∨ q = y ∧ n ≠ none) → im.w ≤ p → im'.bit p q = false) ∧
        (q = y → (∀ x ∈ n, x ≤ p ∧ p < im.w) → im'.bit p q = im.bit p q) ∧
        (y < q → im'.bit p q = im.bit p q))

/-- 60_exceptions.md R258, 70_reset_and_hazards.md R286, 42_generic.md R176, 43_refinement.md R208: past its checks a decode
makes at most H + W × H requests, and ends with CODER_EXHAUSTION at the first FAIL, or with OK when every request was
answered.  A scripted coder fails once every bit of its script is answered, in order. -/
def Obligations.DecodesEndAtTheFirstFail : Prop :=
  ∀ (i : Instr) (tp : Bool) (s u : State) (im : Image), s.image? s.ha = some im → im.wf →
    ((∃ g, i = genInstr g tp false) ∧ ¬(im.size > 2 ^ 24 ∧ s.dlen.toNat < im.size / 256) ∨
      (∃ r, i = refInstr r tp) ∧ s.image? s.hb ≠ none ∧ s.ha ≠ s.hb) →
    exec i s = .next u →
    ∃ made : List CoderRequest, u.pipe.coderLog = made ++ s.pipe.coderLog ∧ made.length ≤ requestBound tp im ∧
      u.result = 0 ∧ u.status.sub = 0 ∧
      ((u.status.err = 0 ∧ u.status.fatal = s.status.fatal ∧ ∀ r ∈ made, r.answer ≠ none) ∨
       (u.status.err = 3 ∧ u.status.fatal = true ∧
        ∃ last answered, made = last :: answered ∧ last.answer = none ∧ (∀ r ∈ answered, r.answer ≠ none) ∧
        ∀ bits : List Bool, s.pipe.coder = .script bits →
          answered.reverse.map CoderRequest.answer = bits.map some ∧ u.pipe.coder = .script []))

/-- 20_memory.md R66, R67, R70, R71, 60_exceptions.md R248: every context a decode sends is below its table size S; entries
0 to S − 1 are zeroed before its first request, so that the first request for each context carries the entry 0 and an entry
no request named ends as 0; and the entries S to 65535 keep their contents.  From the zeroed table and the coder as it was,
the requests replay: each carries the entry its context has by then and the coder's own answer to it, an answer writes the
entry it gives, a FAIL none, and the entries and the coder after the last request are those the command leaves.  A command
that its checks end makes no request and leaves both. -/
def Obligations.DecodesStayInsideTheirTable : Prop :=
  ∀ (i : Instr) (size : Nat) (tp : Bool) (s u : State), s.pipe.stats.wf →
    (i, size) ∈ [(.genDecodeT0 tp false, 65536), (.genDecodeT1 tp false, 8192), (.genDecodeT2 tp false, 1024),
      (.genDecodeT3 tp false, 1024), (.refDecodeT0 tp, 8192), (.refDecodeT1 tp, 1024)] →
    exec i s = .next u →
    (∃ made : List CoderRequest, u.pipe.coderLog = made ++ s.pipe.coderLog ∧ (∀ r ∈ made, r.cx < size) ∧
      (∀ later r earlier, made = later ++ r :: earlier → (∀ r' ∈ earlier, r'.cx ≠ r.cx) → r.entry = 0) ∧
      (u.status.err = 0 ∨ u.status.err = 3 →
        (∀ a, a < size → (∀ r ∈ made, r.cx ≠ a) → u.pipe.stats.read a = 0) ∧
        Replay made.reverse (fun a => if a < size then 0 else s.pipe.stats.read a) s.pipe.coder u.pipe.stats.read
          u.pipe.coder) ∧
      (¬(u.status.err = 0 ∨ u.status.err = 3) →
        made = [] ∧ u.pipe.stats = s.pipe.stats ∧ u.pipe.coder = s.pipe.coder)) ∧
    u.pipe.stats.wf ∧ ∀ a, size ≤ a → u.pipe.stats.read a = s.pipe.stats.read a

/-- 43_refinement.md R206: a pixel has the implicit value m exactly when all nine pixels of the 3 × 3 reference block around
(x − DX, y − DY) are m. -/
def Obligations.ImplicitValueIsAUniformBlock : Prop :=
  ∀ (o : RefOperands) (x y : Int) (m : Bool), implicitValue o x y = some m ↔
    ∀ a b : Int, -1 ≤ a → a ≤ 1 → -1 ≤ b → b ≤ 1 → o.ref.pix (x - o.dx + a) (y - o.dy + b) = m

/-- 43_refinement.md R207, R209, R210, R212 (d): with valid operands and a coder that answers every request, both REF_DECODE
commands complete with OK, the image keeps its size and its references, every padding bit of it is 0, and the reference is
unchanged. -/
def Obligations.RefDecodeCompletes : Prop :=
  ∀ (t : RefTemplate) (tp : Bool) (s : State) (im r : Image) (bits : List Bool), s.image? s.ha = some im →
    s.image? s.hb = some r → s.ha ≠ s.hb → im.wf → s.pipe.coder = .script bits → requestBound tp im ≤ bits.length →
    ∃ (u : State) (im' : Image), exec (refInstr t tp) s = .next u ∧ u.image? s.ha = some im' ∧
      u.image? s.hb = some r ∧ u.status = { s.status with busy := false, done := true, err := 0, sub := 0 } ∧
      u.result = 0 ∧ im'.w = im.w ∧ im'.h = im.h ∧ im'.refcnt = im.refcnt ∧
      ∀ p q : Nat, im'.isPadding p q → im'.bit p q = false

/-- 43_refinement.md R201, R203 to R205, R207, R208 (b), 30_encoding.md R87, R88.  First the tables: bit b of the context of
template t is the pixel listed at place b, of the current bitmap or of the reference displaced by (DX, DY), AT offsets read
from the bytes of GRAT, and the TP contexts (the layouts are PRESUMED, as the spec marks them: log entry 13).  Then a
REF_DECODE that succeeds, at any AT offsets, causal or not, leaves an image that agrees with its request log: row by row the
SLTP request with TP, then a request for each pixel that takes no implicit value, with the pixel's context in the buffer as
it stands there, answered with the pixel; while LTP = 1 a pixel with an implicit value takes it.  A scripted coder's answers
are the first bits of its script, in order, and the rest is the coder left. -/
def Obligations.RefDecodeAgreesWithItsRequests : Prop :=
  (∀ (s : State) (r : Image) (P : Int → Int → Bool) (x y : Int),
    let g : Nat → Int := signedByte s.grat
    let R : Int → Int → Bool := fun dx dy => r.pix (x - s.dx.toInt + dx) (y - s.dy.toInt + dy)
    let pixels : RefTemplate → List Bool := fun
      | .t0 => [P (x - 1) y, P (x + 1) (y - 1), P x (y - 1), P (x + g 0) (y + g 1), R 1 1, R 0 1, R (-1) 1, R 1 0,
          R 0 0, R (-1) 0, R 1 (-1), R 0 (-1), R (g 2) (g 3)]
      | .t1 => [P (x - 1) y, P (x + 1) (y - 1), P x (y - 1), P (x - 1) (y - 1), R 1 1, R 0 1, R 1 0, R 0 0, R (-1) 0,
          R 0 (-1)]
    ∀ (t : RefTemplate) (b : Nat), (refContextOf t (s.refOperands r) P x y).testBit b = (pixels t).getD b false) ∧
  (RefTemplate.t0.tpCx = 0x100 ∧ RefTemplate.t1.tpCx = 0x40) ∧
  ∀ (t : RefTemplate) (tp : Bool) (s u : State) (im r : Image), s.image? s.ha = some im → s.image? s.hb = some r →
    s.ha ≠ s.hb → im.wf → exec (refInstr t tp) s = .next u → u.status.err = 0 →
    ∃ (im' : Image) (sltp : List Bool) (made : List CoderRequest), u.image? s.ha = some im' ∧ im'.w = im.w ∧ im'.h = im.h ∧
      im'.refcnt = im.refcnt ∧ sltp.length = im.h ∧
      u.pipe.coderLog = made ++ s.pipe.coderLog ∧
      made.map CoderRequest.view =
        ((List.range im.h).flatMap (refRowLog t tp (s.refOperands r) im im' sltp im.w)).reverse ∧
      (∀ bits : List Bool, s.pipe.coder = .script bits →
        made.reverse.map CoderRequest.answer = (bits.take made.length).map some ∧ made.length ≤ bits.length ∧
        u.pipe.coder = .script (bits.drop made.length)) ∧
      (tp = true → ∀ (x y : Nat) (m : Bool), x < im.w → y < im.h → rowLtp sltp y = true →
        implicitValue (s.refOperands r) x y = some m → im'.pix x y = m) ∧
      (∀ p q : Nat, im'.isPadding p q → im'.bit p q = false)

/-- 43_refinement.md R212 (a): TP forcing for the refinement decoder. -/
def Obligations.ForcedTpGivesThePlainRefinementDecode : Prop :=
  ∀ (t : RefTemplate) (s : State) (im r : Image) (rows : List (List Bool)), s.image? s.ha = some im →
    s.image? s.hb = some r → s.ha ≠ s.hb → im.wf → rows.length = im.h → (∀ r ∈ rows, r.length = im.w) →
    ∃ (u v : State) (chunks : List (List (Nat × Option Bool))),
      exec (refInstr t true) (s.withCoder (.script (rows.flatMap fun r => false :: r))) = .next u ∧
      exec (refInstr t false) (s.withCoder (.script rows.flatten)) = .next v ∧
      u.status.err = 0 ∧ v.status.err = 0 ∧ u.image? s.ha = v.image? s.ha ∧ u.pipe.ltp = false ∧
      chunks.length = im.h ∧ (∀ c ∈ chunks, c.length = im.w) ∧
      v.pipe.coderLog.map CoderRequest.view = chunks.flatten.reverse ++ s.pipe.coderLog.map CoderRequest.view ∧
      u.pipe.coderLog.map CoderRequest.view =
        (chunks.flatMap fun c => (t.tpCx, some false) :: c).reverse ++ s.pipe.coderLog.map CoderRequest.view
end

