-- ==== Sys2Proof/Laws/State.lean ====
section
/-! SUPPORT. State: one lemma per field per named update, true by rfl, so that no later proof unfolds a record update. -/

namespace Sys2Proof.Machine

/-! ### State.complete -/

@[simp] theorem State.complete_params (v : Word) (s : State) : (s.complete v).params = s.params := rfl
@[simp] theorem State.complete_cmd (v : Word) (s : State) : (s.complete v).cmd = s.cmd := rfl
@[simp] theorem State.complete_status (v : Word) (s : State) : (s.complete v).status = s.status.complete := rfl
@[simp] theorem State.complete_irqEn (v : Word) (s : State) : (s.complete v).irqEn = s.irqEn := rfl
@[simp] theorem State.complete_result (v : Word) (s : State) : (s.complete v).result = v := rfl
@[simp] theorem State.complete_ha (v : Word) (s : State) : (s.complete v).ha = s.ha := rfl
@[simp] theorem State.complete_hb (v : Word) (s : State) : (s.complete v).hb = s.hb := rfl
@[simp] theorem State.complete_ax (v : Word) (s : State) : (s.complete v).ax = s.ax := rfl
@[simp] theorem State.complete_ay (v : Word) (s : State) : (s.complete v).ay = s.ay := rfl
@[simp] theorem State.complete_av (v : Word) (s : State) : (s.complete v).av = s.av := rfl
@[simp] theorem State.complete_dlen (v : Word) (s : State) : (s.complete v).dlen = s.dlen := rfl
@[simp] theorem State.complete_gbatLo (v : Word) (s : State) : (s.complete v).gbatLo = s.gbatLo := rfl
@[simp] theorem State.complete_gbatHi (v : Word) (s : State) : (s.complete v).gbatHi = s.gbatHi := rfl
@[simp] theorem State.complete_grat (v : Word) (s : State) : (s.complete v).grat = s.grat := rfl
@[simp] theorem State.complete_dx (v : Word) (s : State) : (s.complete v).dx = s.dx := rfl
@[simp] theorem State.complete_dy (v : Word) (s : State) : (s.complete v).dy = s.dy := rfl
@[simp] theorem State.complete_descs (v : Word) (s : State) : (s.complete v).descs = s.descs := rfl
@[simp] theorem State.complete_pipe (v : Word) (s : State) : (s.complete v).pipe = { s.pipe with raster := none } := rfl
@[simp] theorem State.complete_host (v : Word) (s : State) : (s.complete v).host = s.host := rfl
@[simp] theorem State.complete_seen (v : Word) (s : State) : (s.complete v).seen = s.seen := rfl

/-! ### State.raise -/

@[simp] theorem State.raise_params (c : Cause) (s : State) : (s.raise c).params = s.params := rfl
@[simp] theorem State.raise_cmd (c : Cause) (s : State) : (s.raise c).cmd = s.cmd := rfl
@[simp] theorem State.raise_status (c : Cause) (s : State) : (s.raise c).status = s.status.raise c := rfl
@[simp] theorem State.raise_irqEn (c : Cause) (s : State) : (s.raise c).irqEn = s.irqEn := rfl
@[simp] theorem State.raise_result (c : Cause) (s : State) : (s.raise c).result = c.result := rfl
@[simp] theorem State.raise_ha (c : Cause) (s : State) : (s.raise c).ha = s.ha := rfl
@[simp] theorem State.raise_hb (c : Cause) (s : State) : (s.raise c).hb = s.hb := rfl
@[simp] theorem State.raise_ax (c : Cause) (s : State) : (s.raise c).ax = s.ax := rfl
@[simp] theorem State.raise_ay (c : Cause) (s : State) : (s.raise c).ay = s.ay := rfl
@[simp] theorem State.raise_av (c : Cause) (s : State) : (s.raise c).av = s.av := rfl
@[simp] theorem State.raise_dlen (c : Cause) (s : State) : (s.raise c).dlen = s.dlen := rfl
@[simp] theorem State.raise_gbatLo (c : Cause) (s : State) : (s.raise c).gbatLo = s.gbatLo := rfl
@[simp] theorem State.raise_gbatHi (c : Cause) (s : State) : (s.raise c).gbatHi = s.gbatHi := rfl
@[simp] theorem State.raise_grat (c : Cause) (s : State) : (s.raise c).grat = s.grat := rfl
@[simp] theorem State.raise_dx (c : Cause) (s : State) : (s.raise c).dx = s.dx := rfl
@[simp] theorem State.raise_dy (c : Cause) (s : State) : (s.raise c).dy = s.dy := rfl
@[simp] theorem State.raise_descs (c : Cause) (s : State) : (s.raise c).descs = s.descs := rfl
@[simp] theorem State.raise_pipe (c : Cause) (s : State) : (s.raise c).pipe = { s.pipe with raster := none } := rfl
@[simp] theorem State.raise_host (c : Cause) (s : State) : (s.raise c).host = s.host := rfl
@[simp] theorem State.raise_seen (c : Cause) (s : State) : (s.raise c).seen = s.seen := rfl

/-! ### State.setImage -/

@[simp] theorem State.setImage_params (s : State) (h : Word) (im : Option Image) : (s.setImage h im).params = s.params := rfl
@[simp] theorem State.setImage_cmd (s : State) (h : Word) (im : Option Image) : (s.setImage h im).cmd = s.cmd := rfl
@[simp] theorem State.setImage_status (s : State) (h : Word) (im : Option Image) : (s.setImage h im).status = s.status := rfl
@[simp] theorem State.setImage_irqEn (s : State) (h : Word) (im : Option Image) : (s.setImage h im).irqEn = s.irqEn := rfl
@[simp] theorem State.setImage_result (s : State) (h : Word) (im : Option Image) : (s.setImage h im).result = s.result := rfl
@[simp] theorem State.setImage_ha (s : State) (h : Word) (im : Option Image) : (s.setImage h im).ha = s.ha := rfl
@[simp] theorem State.setImage_hb (s : State) (h : Word) (im : Option Image) : (s.setImage h im).hb = s.hb := rfl
@[simp] theorem State.setImage_ax (s : State) (h : Word) (im : Option Image) : (s.setImage h im).ax = s.ax := rfl
@[simp] theorem State.setImage_ay (s : State) (h : Word) (im : Option Image) : (s.setImage h im).ay = s.ay := rfl
@[simp] theorem State.setImage_av (s : State) (h : Word) (im : Option Image) : (s.setImage h im).av = s.av := rfl
@[simp] theorem State.setImage_dlen (s : State) (h : Word) (im : Option Image) : (s.setImage h im).dlen = s.dlen := rfl
@[simp] theorem State.setImage_gbatLo (s : State) (h : Word) (im : Option Image) : (s.setImage h im).gbatLo = s.gbatLo := rfl
@[simp] theorem State.setImage_gbatHi (s : State) (h : Word) (im : Option Image) : (s.setImage h im).gbatHi = s.gbatHi := rfl
@[simp] theorem State.setImage_grat (s : State) (h : Word) (im : Option Image) : (s.setImage h im).grat = s.grat := rfl
@[simp] theorem State.setImage_dx (s : State) (h : Word) (im : Option Image) : (s.setImage h im).dx = s.dx := rfl
@[simp] theorem State.setImage_dy (s : State) (h : Word) (im : Option Image) : (s.setImage h im).dy = s.dy := rfl
@[simp] theorem State.setImage_descs (s : State) (h : Word) (im : Option Image) : (s.setImage h im).descs = s.descs.set (h.toNat - 1) im := rfl
@[simp] theorem State.setImage_pipe (s : State) (h : Word) (im : Option Image) : (s.setImage h im).pipe = s.pipe := rfl
@[simp] theorem State.setImage_host (s : State) (h : Word) (im : Option Image) : (s.setImage h im).host = s.host := rfl
@[simp] theorem State.setImage_seen (s : State) (h : Word) (im : Option Image) : (s.setImage h im).seen = s.seen := rfl

/-! ### State.putJob -/

@[simp] theorem State.putJob_params (s : State) (h : Word) (j : Job) : (s.putJob h j).params = s.params := rfl
@[simp] theorem State.putJob_cmd (s : State) (h : Word) (j : Job) : (s.putJob h j).cmd = s.cmd := rfl
@[simp] theorem State.putJob_status (s : State) (h : Word) (j : Job) : (s.putJob h j).status = s.status := rfl
@[simp] theorem State.putJob_irqEn (s : State) (h : Word) (j : Job) : (s.putJob h j).irqEn = s.irqEn := rfl
@[simp] theorem State.putJob_result (s : State) (h : Word) (j : Job) : (s.putJob h j).result = s.result := rfl
@[simp] theorem State.putJob_ha (s : State) (h : Word) (j : Job) : (s.putJob h j).ha = s.ha := rfl
@[simp] theorem State.putJob_hb (s : State) (h : Word) (j : Job) : (s.putJob h j).hb = s.hb := rfl
@[simp] theorem State.putJob_ax (s : State) (h : Word) (j : Job) : (s.putJob h j).ax = s.ax := rfl
@[simp] theorem State.putJob_ay (s : State) (h : Word) (j : Job) : (s.putJob h j).ay = s.ay := rfl
@[simp] theorem State.putJob_av (s : State) (h : Word) (j : Job) : (s.putJob h j).av = s.av := rfl
@[simp] theorem State.putJob_dlen (s : State) (h : Word) (j : Job) : (s.putJob h j).dlen = s.dlen := rfl
@[simp] theorem State.putJob_gbatLo (s : State) (h : Word) (j : Job) : (s.putJob h j).gbatLo = s.gbatLo := rfl
@[simp] theorem State.putJob_gbatHi (s : State) (h : Word) (j : Job) : (s.putJob h j).gbatHi = s.gbatHi := rfl
@[simp] theorem State.putJob_grat (s : State) (h : Word) (j : Job) : (s.putJob h j).grat = s.grat := rfl
@[simp] theorem State.putJob_dx (s : State) (h : Word) (j : Job) : (s.putJob h j).dx = s.dx := rfl
@[simp] theorem State.putJob_dy (s : State) (h : Word) (j : Job) : (s.putJob h j).dy = s.dy := rfl
@[simp] theorem State.putJob_descs (s : State) (h : Word) (j : Job) : (s.putJob h j).descs = s.descs.set (h.toNat - 1) (some j.img) := rfl
@[simp] theorem State.putJob_pipe (s : State) (h : Word) (j : Job) : (s.putJob h j).pipe = j.pipe := rfl
@[simp] theorem State.putJob_host (s : State) (h : Word) (j : Job) : (s.putJob h j).host = s.host := rfl
@[simp] theorem State.putJob_seen (s : State) (h : Word) (j : Job) : (s.putJob h j).seen = s.seen := rfl

/-! ### State.accept -/

@[simp] theorem State.accept_params (s : State) (v : Word) : (s.accept v).params = s.params := rfl
@[simp] theorem State.accept_cmd (s : State) (v : Word) : (s.accept v).cmd = v := rfl
@[simp] theorem State.accept_status (s : State) (v : Word) : (s.accept v).status = s.status.accept := rfl
@[simp] theorem State.accept_irqEn (s : State) (v : Word) : (s.accept v).irqEn = s.irqEn := rfl
@[simp] theorem State.accept_result (s : State) (v : Word) : (s.accept v).result = s.result := rfl
@[simp] theorem State.accept_ha (s : State) (v : Word) : (s.accept v).ha = s.ha := rfl
@[simp] theorem State.accept_hb (s : State) (v : Word) : (s.accept v).hb = s.hb := rfl
@[simp] theorem State.accept_ax (s : State) (v : Word) : (s.accept v).ax = s.ax := rfl
@[simp] theorem State.accept_ay (s : State) (v : Word) : (s.accept v).ay = s.ay := rfl
@[simp] theorem State.accept_av (s : State) (v : Word) : (s.accept v).av = s.av := rfl
@[simp] theorem State.accept_dlen (s : State) (v : Word) : (s.accept v).dlen = s.dlen := rfl
@[simp] theorem State.accept_gbatLo (s : State) (v : Word) : (s.accept v).gbatLo = s.gbatLo := rfl
@[simp] theorem State.accept_gbatHi (s : State) (v : Word) : (s.accept v).gbatHi = s.gbatHi := rfl
@[simp] theorem State.accept_grat (s : State) (v : Word) : (s.accept v).grat = s.grat := rfl
@[simp] theorem State.accept_dx (s : State) (v : Word) : (s.accept v).dx = s.dx := rfl
@[simp] theorem State.accept_dy (s : State) (v : Word) : (s.accept v).dy = s.dy := rfl
@[simp] theorem State.accept_descs (s : State) (v : Word) : (s.accept v).descs = s.descs := rfl
@[simp] theorem State.accept_pipe (s : State) (v : Word) : (s.accept v).pipe = s.pipe := rfl
@[simp] theorem State.accept_host (s : State) (v : Word) : (s.accept v).host = s.host := rfl
@[simp] theorem State.accept_seen (s : State) (v : Word) : (s.accept v).seen = s.seen := rfl

/-! ### State.assertReset -/

@[simp] theorem State.assertReset_params (s : State) : s.assertReset.params = s.params := rfl
@[simp] theorem State.assertReset_host (s : State) : s.assertReset.host = s.host := rfl
@[simp] theorem State.assertReset_seen (s : State) : s.assertReset.seen = s.seen := rfl
@[simp] theorem State.assertReset_irqEn (s : State) : s.assertReset.irqEn = false := rfl
@[simp] theorem State.assertReset_cmd (s : State) : s.assertReset.cmd = 0 := rfl
@[simp] theorem State.assertReset_result (s : State) : s.assertReset.result = 0 := rfl

/-! ### STATUS -/

@[simp] theorem Status.accept_busy (st : Status) : st.accept.busy = true := rfl
@[simp] theorem Status.accept_done (st : Status) : st.accept.done = false := rfl
@[simp] theorem Status.accept_fatal (st : Status) : st.accept.fatal = st.fatal := rfl
@[simp] theorem Status.accept_overrun (st : Status) : st.accept.overrun = st.overrun := rfl
@[simp] theorem Status.accept_err (st : Status) : st.accept.err = st.err := rfl
@[simp] theorem Status.accept_sub (st : Status) : st.accept.sub = st.sub := rfl
@[simp] theorem Status.complete_busy (st : Status) : st.complete.busy = false := rfl
@[simp] theorem Status.complete_done (st : Status) : st.complete.done = true := rfl
@[simp] theorem Status.complete_fatal (st : Status) : st.complete.fatal = st.fatal := rfl
@[simp] theorem Status.complete_overrun (st : Status) : st.complete.overrun = st.overrun := rfl
@[simp] theorem Status.complete_err (st : Status) : st.complete.err = 0 := rfl
@[simp] theorem Status.complete_sub (st : Status) : st.complete.sub = 0 := rfl
@[simp] theorem Status.raise_busy (c : Cause) (st : Status) : (st.raise c).busy = false := rfl
@[simp] theorem Status.raise_done (c : Cause) (st : Status) : (st.raise c).done = true := rfl
@[simp] theorem Status.raise_fatal (c : Cause) (st : Status) : (st.raise c).fatal = (st.fatal || c.fatal) := rfl
@[simp] theorem Status.raise_overrun (c : Cause) (st : Status) : (st.raise c).overrun = st.overrun := rfl
@[simp] theorem Status.raise_err (c : Cause) (st : Status) : (st.raise c).err = c.errCode := rfl
@[simp] theorem Status.raise_sub (c : Cause) (st : Status) : (st.raise c).sub = c.subCode := rfl
@[simp] theorem Status.setOverrun_busy (st : Status) : st.setOverrun.busy = st.busy := rfl
@[simp] theorem Status.setOverrun_done (st : Status) : st.setOverrun.done = st.done := rfl
@[simp] theorem Status.setOverrun_fatal (st : Status) : st.setOverrun.fatal = st.fatal := rfl
@[simp] theorem Status.setOverrun_overrun (st : Status) : st.setOverrun.overrun = true := rfl
@[simp] theorem Status.setOverrun_err (st : Status) : st.setOverrun.err = st.err := rfl
@[simp] theorem Status.setOverrun_sub (st : Status) : st.setOverrun.sub = st.sub := rfl
@[simp] theorem Status.clearSticky_busy (st : Status) : st.clearSticky.busy = st.busy := rfl
@[simp] theorem Status.clearSticky_done (st : Status) : st.clearSticky.done = st.done := rfl
@[simp] theorem Status.clearSticky_fatal (st : Status) : st.clearSticky.fatal = false := rfl
@[simp] theorem Status.clearSticky_overrun (st : Status) : st.clearSticky.overrun = false := rfl
@[simp] theorem Status.clearSticky_err (st : Status) : st.clearSticky.err = st.err := rfl
@[simp] theorem Status.clearSticky_sub (st : Status) : st.clearSticky.sub = st.sub := rfl
@[simp] theorem Status.w1c_busy (v : Word) (st : Status) : (st.w1c v).busy = st.busy := rfl
@[simp] theorem Status.w1c_done (v : Word) (st : Status) : (st.w1c v).done = (st.done && !v.getLsbD 1) := rfl
@[simp] theorem Status.w1c_fatal (v : Word) (st : Status) : (st.w1c v).fatal = (st.fatal && !v.getLsbD 2) := rfl
@[simp] theorem Status.w1c_overrun (v : Word) (st : Status) : (st.w1c v).overrun = (st.overrun && !v.getLsbD 3) := rfl
@[simp] theorem Status.w1c_err (v : Word) (st : Status) : (st.w1c v).err = st.err := rfl
@[simp] theorem Status.w1c_sub (v : Word) (st : Status) : (st.w1c v).sub = st.sub := rfl

/-! ### The running command -/

@[simp] theorem Job.goto_img (x y : Nat) (j : Job) : (j.goto x y).img = j.img := rfl
@[simp] theorem Job.goto_pipe (x y : Nat) (j : Job) : (j.goto x y).pipe = { j.pipe with raster := some (x, y) } := rfl
@[simp] theorem Job.goto_pos (x y : Nat) (j : Job) : (j.goto x y).pos = (x, y) := rfl
@[simp] theorem Job.put_img (x y : Int) (v : Bool) (j : Job) : (j.put x y v).img = j.img.put x y v := rfl
@[simp] theorem Job.put_pipe (x y : Int) (v : Bool) (j : Job) : (j.put x y v).pipe = j.pipe := rfl
@[simp] theorem Job.put_pos (x y : Int) (v : Bool) (j : Job) : (j.put x y v).pos = j.pos := rfl
@[simp] theorem Job.start_img (n : Nat) (im : Image) (p : Pipeline) : (Job.start n im p).img = im := rfl
@[simp] theorem Job.start_pipe (n : Nat) (im : Image) (p : Pipeline) : (Job.start n im p).pipe = { p with stats := p.stats.zero n, ltp := false, raster := some (0, 0) } := rfl

end Sys2Proof.Machine
end

