-- ==== Sys2Proof/Laws/Bus.lean ====
section
/-! SUPPORT. Bus: the laws of the register window and of a host action. -/

namespace Sys2Proof.Machine

/-- A legal access and its window offset (R65). -/
theorem busOffset?_eq_some {p : Params} {addr width off : Nat} :
    busOffset? p addr width = some off ↔ width = 32 ∧ addr = p.regBase + off ∧ off < 256 ∧ off % 4 = 0 := by
  unfold busOffset?
  split
  · simp only [Option.some.injEq]; omega
  · simp only [reduceCtorEq, false_iff]; omega

theorem busOffset?_eq_none {p : Params} {addr width : Nat} :
    busOffset? p addr width = none ↔
      ¬(width = 32 ∧ p.regBase ≤ addr ∧ addr < p.regBase + 256 ∧ (addr - p.regBase) % 4 = 0) := by
  unfold busOffset?
  split
  · simp only [reduceCtorEq, false_iff]; omega
  · simp only [true_iff]; omega

/-- Every offset of the window is a register's or reserved (R20, R38). -/
theorem regAt_eq_some {off : Nat} {r : Reg} : regAt off = some r ↔ (off, r) ∈
    [(0x00, Reg.cmd), (0x04, .status), (0x08, .ctrl), (0x0C, .result), (0x10, .ha), (0x14, .hb), (0x18, .ax), (0x1C, .ay),
      (0x20, .av), (0x24, .dlen), (0x28, .gbatLo), (0x2C, .gbatHi), (0x30, .grat), (0x34, .dx), (0x38, .dy), (0x3C, .id)] := by
  unfold regAt
  split <;> cases r <;> simp_all

/-- It is the host's turn (R289). -/
theorem State.hostTurn_eq_some {s : State} {op : HostOp} : s.hostTurn = some op ↔
    ∃ e rest, s.host = e :: rest ∧ e.op = op ∧ (s.status.busy = true → e.early = true) := by
  unfold State.hostTurn
  cases hh : s.host with
  | nil => simp
  | cons e rest =>
    by_cases hb : s.status.busy = true <;> by_cases he : e.early = true <;> simp [hb, he]

theorem step_of_hostTurn {s : State} {op : HostOp} (h : s.hostTurn = some op) :
    step s = State.hostStep { s with host := s.host.tail } op := by unfold step; rw [h]

theorem step_of_idle {s : State} (h : s.hostTurn = none) (hb : s.status.busy = false) : step s = .next s := by
  unfold step; rw [h]; simp [State.latched, hb]

theorem step_of_busy {s : State} (h : s.hostTurn = none) (hb : s.status.busy = true) :
    step s = match decode s.cmd with
      | .ok i => exec i s
      | .error r => .next (s.raise (causeOfReject r)) := by
  unfold step; rw [h]; simp only [State.latched, hb, if_true] <;> rfl

end Sys2Proof.Machine
end

