-- ==== Sys2Proof/Laws/Cells.lean ====
section
/-! SUPPORT. Cells: the laws of sparse storage: read after write, and that every operation keeps the canonical form;
then the same for buffer bytes (Memory) and the stats RAM. -/

namespace Sys2Proof.Machine

section Generic

variable {α : Type} {d : Nat → α}

@[simp] theorem Cells.read_nil (a : Nat) : Cells.read d [] a = d a := rfl

theorem Cells.read_cons (k : Nat) (u : α) (m : List (Nat × α)) (a : Nat) :
    Cells.read d ((k, u) :: m) a = if k = a then u else Cells.read d m a := rfl

/-- A key below every listed key reads the default. -/
theorem Cells.read_eq_default_of_lt {m : List (Nat × α)} {a : Nat} (h : ∀ c ∈ m, a < c.1) :
    Cells.read d m a = d a := by
  induction m with
  | nil => rfl
  | cons c m ih =>
    obtain ⟨k, u⟩ := c
    have hk : a < k := h (k, u) (by simp)
    rw [Cells.read_cons, if_neg (by omega)]
    exact ih fun c hc => h c (by simp [hc])

/-- A key that is not listed reads the default. -/
theorem Cells.read_eq_default_of_notMem {m : List (Nat × α)} {a : Nat} (h : ∀ c ∈ m, c.1 ≠ a) :
    Cells.read d m a = d a := by
  induction m with
  | nil => rfl
  | cons c m ih =>
    obtain ⟨k, u⟩ := c
    rw [Cells.read_cons, if_neg (h (k, u) (by simp))]
    exact ih fun c hc => h c (by simp [hc])

/-- In a canonical list a listed key reads its value. -/
theorem Cells.read_of_mem {m : List (Nat × α)} (hm : Cells.wf d m) {c : Nat × α} (hc : c ∈ m) :
    Cells.read d m c.1 = c.2 := by
  induction m with
  | nil => cases hc
  | cons c' m ih =>
    obtain ⟨k, u⟩ := c'
    obtain ⟨hp, hd⟩ := hm
    rw [List.pairwise_cons] at hp
    rw [Cells.read_cons]
    rcases List.mem_cons.1 hc with rfl | hc'
    · simp
    · have := hp.1 c hc'
      rw [if_neg (by omega)]
      exact ih ⟨hp.2, fun e he => hd e (by simp [he])⟩ hc'

theorem Cells.wf_nil : Cells.wf d [] := ⟨List.Pairwise.nil, fun _ h => nomatch h⟩

theorem Cells.wf_of_cons {c : Nat × α} {m : List (Nat × α)} (h : Cells.wf d (c :: m)) : Cells.wf d m :=
  ⟨(List.pairwise_cons.1 h.1).2, fun e he => h.2 e (by simp [he])⟩

variable [DecidableEq α]

/-- The keys after a write are the old ones and the written one. -/
theorem Cells.mem_write {m : List (Nat × α)} {a : Nat} {v : α} {c : Nat × α} (h : c ∈ Cells.write d m a v) :
    c ∈ m ∨ (c = (a, v) ∧ v ≠ d a) := by
  induction m with
  | nil =>
    unfold Cells.write at h
    split at h <;> simp_all
  | cons c' m ih =>
    obtain ⟨k, u⟩ := c'
    unfold Cells.write at h
    split at h
    · split at h
      · exact .inl h
      · rcases List.mem_cons.1 h with rfl | h
        · exact .inr ⟨rfl, by assumption⟩
        · exact .inl h
    · split at h
      · split at h
        · exact .inl (by simp [h])
        · rcases List.mem_cons.1 h with rfl | h
          · exact .inr ⟨rfl, by assumption⟩
          · exact .inl (by simp [h])
      · rcases List.mem_cons.1 h with rfl | h
        · exact .inl (by simp)
        · rcases ih h with h | h
          · exact .inl (by simp [h])
          · exact .inr h

/-- A write keeps the canonical form. -/
theorem Cells.wf_write {m : List (Nat × α)} (hm : Cells.wf d m) (a : Nat) (v : α) :
    Cells.wf d (Cells.write d m a v) := by
  refine ⟨?_, fun c hc => ?_⟩
  · induction m with
    | nil => unfold Cells.write; split <;> simp
    | cons c m ih =>
      obtain ⟨k, u⟩ := c
      have hp := List.pairwise_cons.1 hm.1
      have hmt := Cells.wf_of_cons hm
      unfold Cells.write
      split
      · split
        · exact hm.1
        · refine List.pairwise_cons.2 ⟨fun c hc => ?_, hm.1⟩
          rcases List.mem_cons.1 hc with rfl | hc
          · assumption
          · have := hp.1 c hc; simp only at this ⊢; omega
      · split
        · rename_i hk
          split
          · exact hp.2
          · refine List.pairwise_cons.2 ⟨fun c hc => ?_, hp.2⟩
            have := hp.1 c hc; simp only at this ⊢; omega
        · refine List.pairwise_cons.2 ⟨fun c hc => ?_, ih hmt⟩
          rcases Cells.mem_write hc with hc | ⟨rfl, -⟩
          · exact hp.1 c hc
          · simp only; omega
  · rcases Cells.mem_write hc with hc | ⟨rfl, hv⟩
    · exact hm.2 c hc
    · exact hv

/-- Read after write. -/
theorem Cells.read_write {m : List (Nat × α)} (hm : Cells.wf d m) (a : Nat) (v : α) (b : Nat) :
    Cells.read d (Cells.write d m a v) b = if b = a then v else Cells.read d m b := by
  induction m with
  | nil =>
    unfold Cells.write
    by_cases hv : v = d a <;> by_cases hb : b = a
    · simp [hv, hb]
    · simp [hv, hb]
    · simp [hv, hb, Cells.read_cons]
    · rw [if_neg hv, Cells.read_cons, if_neg (Ne.symm hb), if_neg hb]
  | cons c m ih =>
    obtain ⟨k, u⟩ := c
    have hp := (List.pairwise_cons.1 hm.1).1
    have ih := ih (Cells.wf_of_cons hm)
    unfold Cells.write
    by_cases hb : b = a
    · subst hb
      rw [if_pos rfl]
      split
      · rename_i hak
        split
        · rename_i hv
          rw [hv]
          refine Cells.read_eq_default_of_lt fun c hc => ?_
          rcases List.mem_cons.1 hc with rfl | hc
          · exact hak
          · have := hp c hc; simp only at this; omega
        · rw [Cells.read_cons, if_pos rfl]
      · split
        · rename_i hak
          subst hak
          split
          · rename_i hv; rw [hv]; exact Cells.read_eq_default_of_lt hp
          · rw [Cells.read_cons, if_pos rfl]
        · rename_i hak
          rw [Cells.read_cons, if_neg (Ne.symm hak), ih, if_pos rfl]
    · rw [if_neg hb] at ih ⊢
      split
      · split
        · rfl
        · rw [Cells.read_cons, if_neg (Ne.symm hb)]
      · split
        · rename_i hak
          subst hak
          rw [Cells.read_cons a u, if_neg (Ne.symm hb)]
          split
          · rfl
          · rw [Cells.read_cons, if_neg (Ne.symm hb)]
        · rw [Cells.read_cons, Cells.read_cons, ih]

omit [DecidableEq α] in
/-- Filtering by key keeps the canonical form, under any default that agrees on what stays. -/
theorem Cells.wf_filter {d' : Nat → α} {m : List (Nat × α)} (hm : Cells.wf d m) (p : Nat → Bool)
    (hd : ∀ a, p a = true → d' a = d a) : Cells.wf d' (m.filter fun c => p c.1) := by
  refine ⟨hm.1.filter _, fun c hc => ?_⟩
  rw [List.mem_filter] at hc
  rw [hd _ hc.2]
  exact hm.2 c hc.1

omit [DecidableEq α] in
/-- Reading after filtering by key. -/
theorem Cells.read_filter {d' : Nat → α} (m : List (Nat × α)) (p : Nat → Bool) (a : Nat)
    (hd : p a = true → d' a = d a) :
    Cells.read d' (m.filter fun c => p c.1) a = if p a then Cells.read d m a else d' a := by
  induction m with
  | nil => by_cases h : p a = true <;> simp [h, hd]
  | cons c m ih =>
    obtain ⟨k, u⟩ := c
    by_cases hk : p k = true
    · rw [List.filter_cons_of_pos (by simpa using hk), Cells.read_cons, Cells.read_cons]
      by_cases hka : k = a
      · subst hka; simp [hk]
      · rw [if_neg hka, if_neg hka, ih]
    · rw [List.filter_cons_of_neg (by simpa using hk), ih, Cells.read_cons]
      by_cases hka : k = a
      · subst hka; simp [hk]
      · rw [if_neg hka]

omit [DecidableEq α] in
/-- Two canonical lists that read alike are equal. -/
theorem Cells.ext {m m' : List (Nat × α)} (hm : Cells.wf d m) (hm' : Cells.wf d m')
    (h : ∀ a, Cells.read d m a = Cells.read d m' a) : m = m' := by
  have low : ∀ {k : Nat} {u : α} {m m' : List (Nat × α)}, Cells.wf d ((k, u) :: m) → Cells.wf d m' →
      (∀ a, Cells.read d ((k, u) :: m) a = Cells.read d m' a) → ¬ ∀ c ∈ m', k < c.1 := by
    intro k u m m' h1 _ h3 hlt
    have := h3 k
    rw [Cells.read_cons, if_pos rfl, Cells.read_eq_default_of_lt hlt] at this
    exact h1.2 (k, u) (by simp) this
  induction m generalizing m' with
  | nil =>
    cases m' with
    | nil => rfl
    | cons c' m' =>
      exact absurd (by simp) (low (k := c'.1) (u := c'.2) hm' hm fun a => (h a).symm)
  | cons c m ih =>
    obtain ⟨k, u⟩ := c
    cases m' with
    | nil => exact absurd (by simp) (low hm hm' h)
    | cons c' m' =>
      obtain ⟨k', u'⟩ := c'
      have hp := (List.pairwise_cons.1 hm.1).1
      have hp' := (List.pairwise_cons.1 hm'.1).1
      have hkk : k = k' := by
        rcases Nat.lt_trichotomy k k' with hlt | heq | hlt
        · refine absurd (fun c hc => ?_) (low hm hm' h)
          rcases List.mem_cons.1 hc with rfl | hc
          · exact hlt
          · have := hp' c hc; simp only at this; omega
        · exact heq
        · refine absurd (fun c hc => ?_) (low hm' hm fun a => (h a).symm)
          rcases List.mem_cons.1 hc with rfl | hc
          · exact hlt
          · have := hp c hc; simp only at this; omega
      subst hkk
      have hu : u = u' := by have := h k; simpa [Cells.read_cons] using this
      subst hu
      congr 1
      refine ih (Cells.wf_of_cons hm) (Cells.wf_of_cons hm') fun a => ?_
      by_cases hka : k = a
      · subst hka
        rw [Cells.read_eq_default_of_lt hp, Cells.read_eq_default_of_lt hp']
      · have := h a
        rwa [Cells.read_cons, Cells.read_cons, if_neg hka, if_neg hka] at this

end Generic

/-! ### Buffer bytes -/

/-- Read after write of a buffer byte (R62). -/
theorem Memory.read_write {m : Memory} (hm : m.wf) (a : Nat) (v : Byte) (b : Nat) :
    (m.write a v).read b = if b = a then v else m.read b := Cells.read_write hm a v b

/-- A write keeps the canonical form. -/
theorem Memory.wf_write {m : Memory} (hm : m.wf) (a : Nat) (v : Byte) : (m.write a v).wf := Cells.wf_write hm a v

/-- A write inside the first `n` bytes lists no byte beyond them. -/
theorem Memory.lt_of_mem_write {m : Memory} {n a : Nat} {v : Byte} (hm : ∀ c ∈ m, c.1 < n) (ha : a < n) :
    ∀ c ∈ m.write a v, c.1 < n := by
  intro c hc
  rcases Cells.mem_write hc with hc | ⟨rfl, -⟩
  · exact hm c hc
  · exact ha

theorem Memory.wf_nil : Memory.wf [] := Cells.wf_nil

@[simp] theorem Memory.read_nil (a : Nat) : Memory.read [] a = 0 := rfl

/-- A fill keeps the canonical form. -/
theorem Memory.wf_fill (n : Nat) (v : Byte) : (Memory.fill n v).wf := by
  unfold Memory.fill
  split
  · exact Memory.wf_nil
  · rename_i hv
    refine ⟨?_, fun c hc => ?_⟩
    · rw [List.pairwise_map]
      exact List.pairwise_lt_range
    · obtain ⟨a, -, rfl⟩ := List.mem_map.1 hc
      exact hv

/-- A fill lists no byte beyond the first `n`. -/
theorem Memory.lt_of_mem_fill {n : Nat} {v : Byte} : ∀ c ∈ Memory.fill n v, c.1 < n := by
  unfold Memory.fill
  split
  · simp
  · intro c hc
    obtain ⟨a, ha, rfl⟩ := List.mem_map.1 hc
    exact List.mem_range.1 ha

/-- What a filled buffer reads (R118). -/
theorem Memory.read_fill (n : Nat) (v : Byte) (a : Nat) : (Memory.fill n v).read a = if a < n then v else 0 := by
  by_cases ha : a < n
  · rw [if_pos ha]
    by_cases hv : v = 0
    · subst hv; simp [Memory.fill]
    · have hmem : ((a, v) : Nat × Byte) ∈ Memory.fill n v := by
        unfold Memory.fill; rw [if_neg hv]; exact List.mem_map.2 ⟨a, List.mem_range.2 ha, rfl⟩
      exact Cells.read_of_mem (Memory.wf_fill n v) hmem
  · rw [if_neg ha]
    refine Cells.read_eq_default_of_notMem fun c hc hca => ?_
    have := Memory.lt_of_mem_fill c hc
    omega

/-- Dropping the bytes from `n` on keeps the canonical form. -/
theorem Memory.wf_take {m : Memory} (hm : m.wf) (n : Nat) : (m.take n).wf :=
  Cells.wf_filter hm (fun a => decide (a < n)) fun _ _ => rfl

/-- What a shortened buffer reads (R119). -/
theorem Memory.read_take (m : Memory) (n a : Nat) : (m.take n).read a = if a < n then m.read a else 0 := by
  have := Cells.read_filter (d := Memory.default) (d' := Memory.default) m (fun a => decide (a < n)) a fun _ => rfl
  simpa [Memory.take, Memory.read, Memory.default] using this

theorem Memory.lt_of_mem_take {m : Memory} {n : Nat} : ∀ c ∈ m.take n, c.1 < n := by
  intro c hc
  simpa using (List.mem_filter.1 hc).2

/-- Two canonical buffers that read alike are equal. -/
theorem Memory.ext {m m' : Memory} (hm : m.wf) (hm' : m'.wf) (h : ∀ a, m.read a = m'.read a) : m = m' :=
  Cells.ext hm hm' h

/-! ### The stats RAM -/

/-- Read after write of an entry (R66). -/
theorem StatsRam.read_write {r : StatsRam} (hr : r.wf) (a : Nat) (e : Entry) (b : Nat) :
    (r.write a e).read b = if b = a then e else r.read b := Cells.read_write hr.1 a e b

/-- A write inside the RAM keeps the canonical form. -/
theorem StatsRam.wf_write {r : StatsRam} (hr : r.wf) {a : Nat} (ha : a < statsDepth) (e : Entry) :
    (r.write a e).wf := by
  refine ⟨Cells.wf_write hr.1 a e, fun c hc => ?_⟩
  rcases Cells.mem_write hc with hc | ⟨rfl, -⟩
  · exact hr.2 c hc
  · exact ha

/-- Zeroing a table: its entries read 0, the others as before (R67). -/
theorem StatsRam.read_zero (r : StatsRam) (n a : Nat) : (r.zero n).read a = if a < n then 0 else r.read a := by
  have hd : decide (n ≤ a) = true → (r.zero n).default a = r.default a := by
    intro h
    have h : n ≤ a := by simpa using h
    unfold StatsRam.default StatsRam.zero
    by_cases hz : a < r.zeroed
    · rw [if_pos hz, if_pos (by simp only; omega)]
    · rw [if_neg hz, if_neg (by simp only; omega)]
  have := Cells.read_filter (d := r.default) (d' := (r.zero n).default) r.cells (fun a => decide (n ≤ a)) a hd
  unfold StatsRam.read
  by_cases ha : a < n
  · rw [if_pos ha]
    refine this.trans ?_
    rw [if_neg (by simpa using ha)]
    unfold StatsRam.default StatsRam.zero
    rw [if_pos (by simp only; omega)]
  · rw [if_neg ha]
    refine this.trans ?_
    rw [if_pos (by simpa using ha)]

/-- Zeroing keeps the canonical form. -/
theorem StatsRam.wf_zero {r : StatsRam} (hr : r.wf) (n : Nat) : (r.zero n).wf := by
  refine ⟨Cells.wf_filter hr.1 (fun a => decide (n ≤ a)) fun a ha => ?_, fun c hc => hr.2 c (List.mem_filter.1 hc).1⟩
  have ha : n ≤ a := by simpa using ha
  unfold StatsRam.default StatsRam.zero
  by_cases hz : a < r.zeroed
  · rw [if_pos hz, if_pos (by simp only; omega)]
  · rw [if_neg hz, if_neg (by simp only; omega)]

end Sys2Proof.Machine
end

