-- ==== Sys2Proof/Laws/Loop.lean ====
section
/-! SUPPORT. Loop: the induction principles of the two loops, packaged once. -/

namespace Sys2Proof.Machine

variable {α : Type}

@[simp] theorem loop_zero (f : Nat → α → α) (a : α) : loop 0 f a = a := rfl
@[simp] theorem loop_succ (n : Nat) (f : Nat → α → α) (a : α) : loop (n + 1) f a = f n (loop n f a) := rfl
@[simp] theorem loopE_zero (f : Nat → α → Except α α) (a : α) : loopE 0 f a = .ok a := rfl

theorem loopE_succ_of_ok {n : Nat} {f : Nat → α → Except α α} {a b : α} (h : loopE n f a = .ok b) :
    loopE (n + 1) f a = f n b := by simp only [loopE, h]

theorem loopE_succ_of_error {n : Nat} {f : Nat → α → Except α α} {a b : α} (h : loopE n f a = .error b) :
    loopE (n + 1) f a = .error b := by simp only [loopE, h]

/-- An invariant indexed by the number of turns done holds after the loop. -/
theorem loop_induct {P : Nat → α → Prop} {f : Nat → α → α} {a : α} (n : Nat) (h0 : P 0 a)
    (hf : ∀ k b, k < n → P k b → P (k + 1) (f k b)) : P n (loop n f a) := by
  induction n with
  | zero => exact h0
  | succ n ih => exact hf n _ (by omega) (ih fun k b hk => hf k b (by omega))

/-- A loop that may fail: an invariant indexed by the number of turns done, and what an early end leaves. -/
theorem loopE_induct {P : Nat → α → Prop} {Q : α → Prop} {f : Nat → α → Except α α} {a : α} (n : Nat) (h0 : P 0 a)
    (hf : ∀ k b, k < n → P k b → (∀ c, f k b = .ok c → P (k + 1) c) ∧ (∀ c, f k b = .error c → Q c)) :
    (∀ c, loopE n f a = .ok c → P n c) ∧ (∀ c, loopE n f a = .error c → Q c) := by
  induction n with
  | zero => exact ⟨fun c hc => by cases hc; exact h0, fun c hc => by cases hc⟩
  | succ n ih =>
    have ih := ih fun k b hk => hf k b (by omega)
    cases hr : loopE n f a with
    | ok b =>
      rw [loopE_succ_of_ok hr]
      exact hf n b (by omega) (ih.1 b hr)
    | error b =>
      rw [loopE_succ_of_error hr]
      exact ⟨fun c hc => (by cases hc), fun c hc => by cases hc; exact ih.2 b hr⟩

/-- A predicate every turn keeps, whether it fails or not, holds however the loop ends. -/
theorem loopE_inv {P : α → Prop} {f : Nat → α → Except α α} {a : α} (n : Nat) (h0 : P a)
    (hf : ∀ k b, k < n → P b → (∀ c, f k b = .ok c → P c) ∧ (∀ c, f k b = .error c → P c)) :
    (∀ c, loopE n f a = .ok c → P c) ∧ (∀ c, loopE n f a = .error c → P c) :=
  loopE_induct (P := fun _ => P) (Q := P) n h0 hf

end Sys2Proof.Machine
end

