-- ==== Sys2Proof/Laws/Image.lean ====
section
/-! SUPPORT. Image: what the pixel and row operations do to every stored bit of an image, pixels and padding alike, and
that they keep the buffer's canonical form. -/

namespace Sys2Proof.Machine

/-! ### Addresses -/

/-- A byte of a row has one row and one place in it. -/
theorem rowAddr_inj {s y q y' q' : Nat} (hq : q < s) (hq' : q' < s) (h : y * s + q = y' * s + q') :
    y = y' ∧ q = q' := by
  have hs : 0 < s := by omega
  have key : ∀ {y q : Nat}, q < s → (y * s + q) / s = y := by
    intro y q hq
    rw [Nat.add_comm, Nat.add_mul_div_right _ _ hs, Nat.div_eq_of_lt hq, Nat.zero_add]
  have hy : y = y' := by rw [← key hq (y := y), h, key hq']
  subst hy
  exact ⟨rfl, by omega⟩

/-- A byte of a row below `h` is below `s × h`. -/
theorem rowAddr_lt {s y q h : Nat} (hq : q < s) (hy : y < h) : y * s + q < s * h := by
  calc y * s + q < y * s + s := by omega
    _ = (y + 1) * s := by rw [Nat.add_mul, Nat.one_mul]
    _ ≤ h * s := Nat.mul_le_mul_right s hy
    _ = s * h := Nat.mul_comm h s

theorem Image.inRange_iff (im : Image) (x y : Int) :
    im.inRange x y = true ↔ 0 ≤ x ∧ x < im.w ∧ 0 ≤ y ∧ y < im.h := by simp [Image.inRange]

theorem Image.inRange_nat (im : Image) (p y : Nat) : im.inRange p y = true ↔ p < im.w ∧ y < im.h := by
  rw [Image.inRange_iff]; omega

theorem Image.w_le_stride (im : Image) : im.w ≤ 8 * im.stride := by unfold Image.stride; omega

/-- A pixel is the stored bit at its place (R60, R110). -/
theorem Image.pix_nat {im : Image} {p y : Nat} (h : p < im.w ∧ y < im.h) : im.pix p y = im.bit p y := by
  unfold Image.pix
  rw [if_pos ((im.inRange_nat p y).2 h)]
  rfl

/-- A position outside the image reads 0 (R110). -/
theorem Image.pix_out {im : Image} {x y : Int} (h : im.inRange x y = false) : im.pix x y = false := by
  unfold Image.pix; rw [if_neg (by simp [h])]

/-! ### One bit of a byte -/

theorem getLsbD_setBit (b : Byte) {i k : Nat} (v : Bool) (hi : i < 8) (hk : k < 8) :
    (setBit b i v).getLsbD k = if k = i then v else b.getLsbD k := by
  have h1 : ((1#8 <<< i).getLsbD k) = decide (k = i) := by
    have : ∀ i k : Fin 8, (1#8 <<< i.val).getLsbD k.val = decide (k.val = i.val) := by decide
    exact this ⟨i, hi⟩ ⟨k, hk⟩
  unfold setBit
  cases v
  · rw [if_neg (by simp), BitVec.getLsbD_and, BitVec.getLsbD_not, h1]
    by_cases hki : k = i <;> simp [hki, hk, hi]
  · rw [if_pos rfl, BitVec.getLsbD_or, h1]
    by_cases hki : k = i <;> simp [hki]

/-! ### Dimensions -/

@[simp] theorem Image.put_w (im : Image) (x y : Int) (v : Bool) : (im.put x y v).w = im.w := by
  unfold Image.put Image.putPix; split <;> rfl
@[simp] theorem Image.put_h (im : Image) (x y : Int) (v : Bool) : (im.put x y v).h = im.h := by
  unfold Image.put Image.putPix; split <;> rfl
@[simp] theorem Image.put_refcnt (im : Image) (x y : Int) (v : Bool) : (im.put x y v).refcnt = im.refcnt := by
  unfold Image.put Image.putPix; split <;> rfl
@[simp] theorem Image.put_stride (im : Image) (x y : Int) (v : Bool) : (im.put x y v).stride = im.stride := by
  simp [Image.stride]
@[simp] theorem Image.put_size (im : Image) (x y : Int) (v : Bool) : (im.put x y v).size = im.size := by
  simp [Image.size]
@[simp] theorem Image.clearPadding_w (im : Image) (y : Nat) : (im.clearPadding y).w = im.w := rfl
@[simp] theorem Image.clearPadding_h (im : Image) (y : Nat) : (im.clearPadding y).h = im.h := rfl
@[simp] theorem Image.clearPadding_refcnt (im : Image) (y : Nat) : (im.clearPadding y).refcnt = im.refcnt := rfl
@[simp] theorem Image.clearPadding_stride (im : Image) (y : Nat) : (im.clearPadding y).stride = im.stride := rfl
@[simp] theorem Image.clearPadding_size (im : Image) (y : Nat) : (im.clearPadding y).size = im.size := rfl
@[simp] theorem Image.copyRow_w (im : Image) (y : Nat) : (im.copyRow y).w = im.w := rfl
@[simp] theorem Image.copyRow_h (im : Image) (y : Nat) : (im.copyRow y).h = im.h := rfl
@[simp] theorem Image.copyRow_refcnt (im : Image) (y : Nat) : (im.copyRow y).refcnt = im.refcnt := rfl
@[simp] theorem Image.copyRow_stride (im : Image) (y : Nat) : (im.copyRow y).stride = im.stride := rfl
@[simp] theorem Image.copyRow_size (im : Image) (y : Nat) : (im.copyRow y).size = im.size := rfl

/-- The image's byte offsets and canonical form, what every row and pixel operation keeps. -/
abbrev Image.memOk (im : Image) : Prop := im.mem.wf ∧ ∀ c ∈ im.mem, c.1 < im.size

/-! ### PutPix -/

theorem Image.putPix_eq (im : Image) (x y : Int) (v : Bool) :
    im.putPix x y v = if im.inRange x y then some (im.put x y v) else none := by
  unfold Image.put Image.putPix; split <;> rfl

theorem Image.put_out {im : Image} {x y : Int} {v : Bool} (h : im.inRange x y = false) : im.put x y v = im := by
  unfold Image.put Image.putPix; rw [if_neg (by simp [h])]; rfl

theorem Image.pixOff_lt {im : Image} {x y : Int} (h : im.inRange x y = true) : im.pixOff x y < im.size := by
  rw [Image.inRange_iff] at h
  exact rowAddr_lt (by unfold Image.stride; omega) (by omega)

theorem Image.memOk_put {im : Image} (h : im.memOk) (x y : Int) (v : Bool) : (im.put x y v).memOk := by
  by_cases hr : im.inRange x y = true
  · refine ⟨?_, fun c hc => ?_⟩
    · unfold Image.put Image.putPix; rw [if_pos hr]; exact Memory.wf_write h.1 _ _
    · rw [Image.put_size]
      unfold Image.put Image.putPix at hc
      rw [if_pos hr] at hc
      exact Memory.lt_of_mem_write h.2 (Image.pixOff_lt hr) c hc
  · rw [Image.put_out (by simpa using hr)]; exact h

/-- The bytes a PutPix changes: only the pixel's own (R111). -/
theorem Image.read_put_of_ne {im : Image} (h : im.mem.wf) {x y : Int} {v : Bool} {a : Nat}
    (ha : a ≠ im.pixOff x y) : (im.put x y v).mem.read a = im.mem.read a := by
  unfold Image.put Image.putPix
  split
  · simp [Memory.read_write h, ha]
  · rfl

/-- Every stored bit after a PutPix: the pixel's own is `v`, every other one is as before (R111). -/
theorem Image.bit_put {im : Image} (h : im.mem.wf) {x y : Nat} (hr : x < im.w ∧ y < im.h) (v : Bool) {p q : Nat}
    (hp : p < 8 * im.stride) : (im.put x y v).bit p q = if p = x ∧ q = y then v else im.bit p q := by
  have hin := (im.inRange_nat x y).2 hr
  have hx : x < 8 * im.stride := by have := im.w_le_stride; omega
  unfold Image.bit
  rw [Image.put_stride]
  unfold Image.put Image.putPix
  rw [if_pos hin]
  simp only [Option.getD_some, Memory.read_write h]
  unfold Image.pixOff pixBit
  simp only [Int.toNat_natCast]
  by_cases ha : q * im.stride + p / 8 = y * im.stride + x / 8
  · obtain ⟨hq, hpx⟩ := rowAddr_inj (by omega) (by omega) ha
    subst hq
    rw [if_pos (by rw [hpx]), getLsbD_setBit _ _ (by omega) (by omega), hpx]
    by_cases hpe : p = x
    · simp [hpe]
    · rw [if_neg (by omega), if_neg (by simp [hpe])]
  · rw [if_neg ha, if_neg]
    rintro ⟨rfl, rfl⟩
    exact ha rfl

/-- Every pixel after a PutPix inside the image (R111, R122). -/
theorem Image.pix_put {im : Image} (h : im.mem.wf) {x y : Int} (hr : im.inRange x y = true) (v : Bool) (p q : Int) :
    (im.put x y v).pix p q = if p = x ∧ q = y then v else im.pix p q := by
  by_cases hpq : im.inRange p q = true
  · have hr' := hr; have hpq' := hpq
    rw [Image.inRange_iff] at hr hpq
    obtain ⟨x, rfl⟩ := Int.eq_ofNat_of_zero_le hr.1
    obtain ⟨y, rfl⟩ := Int.eq_ofNat_of_zero_le hr.2.2.1
    obtain ⟨p, rfl⟩ := Int.eq_ofNat_of_zero_le hpq.1
    obtain ⟨q, rfl⟩ := Int.eq_ofNat_of_zero_le hpq.2.2.1
    have := im.w_le_stride
    rw [Image.pix_nat (by rw [Image.put_w, Image.put_h]; omega), Image.pix_nat (by omega),
      Image.bit_put h (by omega) v (by omega)]
    simp
  · have hpq : im.inRange p q = false := by simpa using hpq
    rw [Image.pix_out (im := im.put x y v) (by unfold Image.inRange at *; simpa using hpq), Image.pix_out hpq, if_neg]
    rintro ⟨rfl, rfl⟩
    simp [hr] at hpq

/-! ### ClearPadding -/

theorem Image.stride_pos {im : Image} (hw : 1 ≤ im.w) : 0 < im.stride := by unfold Image.stride; omega

theorem Image.memOk_clearPadding {im : Image} (h : im.memOk) (hw : 1 ≤ im.w) {y : Nat} (hy : y < im.h) :
    (im.clearPadding y).memOk :=
  ⟨Memory.wf_write h.1 _ _,
    Memory.lt_of_mem_write h.2 (rowAddr_lt (by have := Image.stride_pos hw; omega) hy)⟩

/-- Every stored bit after ClearPadding: the row's padding is 0, every other bit is as before (R174). -/
theorem Image.bit_clearPadding {im : Image} (h : im.mem.wf) (hw : 1 ≤ im.w) (y : Nat) {p q : Nat}
    (hp : p < 8 * im.stride) :
    (im.clearPadding y).bit p q = if q = y ∧ im.w ≤ p then false else im.bit p q := by
  have hs := Image.stride_pos hw
  have hws := im.w_le_stride
  have hsw : 8 * im.stride < im.w + 8 := by unfold Image.stride; omega
  have hmask : ∀ n k : Nat, n < 8 → k < 8 → (0xFF#8 <<< n).getLsbD k = decide (n ≤ k) := by
    have : ∀ n k : Fin 8, (0xFF#8 <<< n.val).getLsbD k.val = decide (n.val ≤ k.val) := by decide
    exact fun n k hn hk => this ⟨n, hn⟩ ⟨k, hk⟩
  unfold Image.bit Image.clearPadding
  have hst : ∀ m, ({ im with mem := m } : Image).stride = im.stride := fun _ => rfl
  simp only [hst, Memory.read_write h]
  by_cases ha : q * im.stride + p / 8 = y * im.stride + (im.stride - 1)
  · obtain ⟨hq, hps⟩ := rowAddr_inj (by omega) (by omega) ha
    rw [if_pos ha, ← ha, BitVec.getLsbD_and, hmask _ _ (by omega) (by omega)]
    by_cases hpw : im.w ≤ p
    · rw [if_pos ⟨hq, hpw⟩, decide_eq_false (by omega), Bool.and_false]
    · rw [if_neg (by simp [hpw]), decide_eq_true (by omega), Bool.and_true]
  · rw [if_neg ha, if_neg]
    rintro ⟨rfl, hpw⟩
    exact ha (by omega)

/-! ### CopyRow -/

/-- The bytes CopyRow leaves: row y reads as row y − 1 did, or 0 for row 0; every other byte is as before (R173). -/
theorem Image.copyRow_mem {im : Image} (h : im.mem.wf) (y : Nat) :
    (im.copyRow y).mem.wf ∧
      (∀ k, k < im.stride → (im.copyRow y).mem.read (y * im.stride + k)
        = if y = 0 then 0 else im.mem.read ((y - 1) * im.stride + k)) ∧
      (∀ a, (∀ k, k < im.stride → a ≠ y * im.stride + k) → (im.copyRow y).mem.read a = im.mem.read a) := by
  have key := loop_induct (α := Memory)
    (P := fun n m => m.wf ∧ (∀ k, k < n → m.read (y * im.stride + k)
        = if y = 0 then 0 else im.mem.read ((y - 1) * im.stride + k)) ∧
      (∀ a, (∀ k, k < n → a ≠ y * im.stride + k) → m.read a = im.mem.read a))
    (f := fun k m => m.write (y * im.stride + k) (if y = 0 then 0 else m.read ((y - 1) * im.stride + k)))
    (a := im.mem) im.stride ⟨h, fun k hk => absurd hk (by omega), fun _ _ => rfl⟩ (by
      rintro n m hn ⟨hwf, hlow, hout⟩
      refine ⟨Memory.wf_write hwf _ _, fun k hk => ?_, fun a ha => ?_⟩
      · rw [Memory.read_write hwf]
        by_cases hkn : k = n
        · subst hkn
          rw [if_pos rfl]
          by_cases hy : y = 0
          · simp [hy]
          · rw [if_neg hy, if_neg hy]
            refine hout _ fun k' hk' heq => ?_
            have := rowAddr_inj (by omega) (by omega) heq
            omega
        · rw [if_neg (by omega)]
          exact hlow k (by omega)
      · rw [Memory.read_write hwf, if_neg (ha n (by omega))]
        exact hout a fun k hk => ha k (by omega))
  exact key

theorem Image.memOk_copyRow {im : Image} (h : im.memOk) {y : Nat} (hy : y < im.h) : (im.copyRow y).memOk := by
  have key := loop_induct (α := Memory) (P := fun _ m => m.wf ∧ ∀ c ∈ m, c.1 < im.size)
    (f := fun k m => m.write (y * im.stride + k) (if y = 0 then 0 else m.read ((y - 1) * im.stride + k)))
    (a := im.mem) im.stride h (by
      rintro n m hn ⟨hwf, hlt⟩
      exact ⟨Memory.wf_write hwf _ _, Memory.lt_of_mem_write hlt (rowAddr_lt hn hy)⟩)
  exact key

/-- Every stored bit after CopyRow (R173). -/
theorem Image.bit_copyRow {im : Image} (h : im.mem.wf) (y : Nat) {p q : Nat} (hp : p < 8 * im.stride) :
    (im.copyRow y).bit p q = if q = y then (if y = 0 then false else im.bit p (y - 1)) else im.bit p q := by
  obtain ⟨-, hrow, hout⟩ := Image.copyRow_mem h y
  unfold Image.bit
  rw [Image.copyRow_stride]
  by_cases hq : q = y
  · subst hq
    rw [if_pos rfl, hrow _ (by omega)]
    by_cases hy : q = 0
    · simp [hy]
    · rw [if_neg hy, if_neg hy]
  · rw [if_neg hq, hout]
    intro k hk heq
    exact hq (rowAddr_inj (by omega) hk heq).1

end Sys2Proof.Machine
end

