-- ==== Sys2Proof/Laws/Compose.lean ====
section
/-! SUPPORT. Compose: the clip is exact, and what the compose loops leave of every stored bit (41_compose.md R140, R141,
R148). -/

namespace Sys2Proof.Machine

/-- Under the exact clip the range guard never fires (R148). -/
theorem rangeGuard_clip (x y sW sH dW dH : Int) : rangeGuard x y dW dH (clip x y sW sH dW dH) = false := by
  unfold rangeGuard Rect.nonempty clip
  simp only [Bool.and_eq_false_iff, decide_eq_false_iff_not]
  omega

/-- One raster position of a composite (R45, R140). -/
theorem composePixel_goto (op : ComposeOp) (src : Image) (x y : Int) (r : Rect) (p q : Nat) (k : Job) :
    composePixel op src x y r (k.goto p q) =
      if r.has (p - x) (q - y)
      then (k.goto p q).put p q (op.apply (src.pix (p - x) (q - y)) (k.img.pix p q)) else k.goto p q := rfl

/-- The clipped rectangle holds exactly the source pixels that land inside the destination (R141). -/
theorem clip_has {x y : Int} {src dst : Image} {p q : Int} (h : dst.inRange p q = true) :
    (clip x y src.w src.h dst.w dst.h).has (p - x) (q - y) = src.inRange (p - x) (q - y) := by
  rw [Image.inRange_iff] at h
  unfold Rect.has clip Image.inRange
  simp only [decide_eq_decide]
  omega

/-- An image whose pixels in the set `S` have been composited onto `dst`, once each, and that is `dst` elsewhere. -/
structure Composited (op : ComposeOp) (src dst : Image) (x y : Int) (S : Int → Int → Prop) (im : Image) : Prop where
  w : im.w = dst.w
  h : im.h = dst.h
  refcnt : im.refcnt = dst.refcnt
  wf : im.mem.wf
  inside : ∀ p q, S p q → im.pix p q = op.apply (src.pix (p - x) (q - y)) (dst.pix p q)
  outside : ∀ p q, ¬S p q → im.pix p q = dst.pix p q
  bytes : ∀ a, (∀ p q, S p q → a ≠ dst.pixOff p q) → im.mem.read a = dst.mem.read a
  padding : ∀ p q : Nat, dst.w ≤ p → p < 8 * dst.stride → im.bit p q = dst.bit p q

/-- One more composited pixel. -/
theorem Composited.put {op : ComposeOp} {src dst im : Image} {x y p₀ q₀ : Int} {S S' : Int → Int → Prop}
    (C : Composited op src dst x y S im) (hin : dst.inRange p₀ q₀ = true) (hS : ¬S p₀ q₀)
    (hS' : ∀ p q, S' p q ↔ S p q ∨ p = p₀ ∧ q = q₀) :
    Composited op src dst x y S' (im.put p₀ q₀ (op.apply (src.pix (p₀ - x) (q₀ - y)) (im.pix p₀ q₀))) := by
  have hin' : im.inRange p₀ q₀ = true := by unfold Image.inRange at *; rw [C.w, C.h]; exact hin
  have hst : im.stride = dst.stride := by unfold Image.stride; rw [C.w]
  refine ⟨by simp [C.w], by simp [C.h], by simp [C.refcnt], ?_, fun p q hpq => ?_, fun p q hpq => ?_, fun a ha => ?_,
    fun p q hp hp' => ?_⟩
  · unfold Image.put Image.putPix; rw [if_pos hin']; exact Memory.wf_write C.wf _ _
  · rw [Image.pix_put C.wf hin']
    split
    · rename_i h; obtain ⟨rfl, rfl⟩ := h; rw [C.outside _ _ hS]
    · rename_i h; exact C.inside p q (((hS' p q).1 hpq).resolve_right h)
  · rw [Image.pix_put C.wf hin', if_neg fun h => hpq ((hS' p q).2 (.inr h))]
    exact C.outside p q fun h => hpq ((hS' p q).2 (.inl h))
  · rw [Image.read_put_of_ne C.wf]
    · exact C.bytes a fun p q h => ha p q ((hS' p q).2 (.inl h))
    · have := ha p₀ q₀ ((hS' _ _).2 (.inr ⟨rfl, rfl⟩))
      unfold Image.pixOff at *; rw [hst]; exact this
  · rw [Image.inRange_iff] at hin
    obtain ⟨p₁, rfl⟩ := Int.eq_ofNat_of_zero_le hin.1
    obtain ⟨q₁, rfl⟩ := Int.eq_ofNat_of_zero_le hin.2.2.1
    rw [Image.bit_put C.wf (by rw [C.w, C.h]; omega) _ (by rw [hst]; exact hp'), if_neg (by omega)]
    exact C.padding p q hp hp'

/-- The whole composite: every destination pixel that a source pixel lands on, and nothing else (R140, R141). -/
theorem composeRun_composited (op : ComposeOp) (src dst : Image) (x y : Int) (pipe : Pipeline) (h : dst.mem.wf) :
    Composited op src dst x y (fun p q => dst.inRange p q = true ∧ src.inRange (p - x) (q - y) = true)
      (composeRun op src x y (clip x y src.w src.h dst.w dst.h) { img := dst, pipe := pipe }).img := by
  have weaken : ∀ {S S' : Int → Int → Prop} {im : Image}, (∀ p q, S' p q ↔ S p q) → Composited op src dst x y S im →
      Composited op src dst x y S' im := fun {S S' im} he C => by
    obtain rfl : S' = S := by funext p q; exact propext (he p q)
    exact C
  -- The pixels done before raster position (a, b).
  let D : Nat → Nat → Int → Int → Prop := fun a b p q =>
    dst.inRange p q = true ∧ src.inRange (p - x) (q - y) = true ∧ (q < b ∨ q = b ∧ p < a)
  have pixel : ∀ (a b : Nat) (k : Job), a < dst.w → b < dst.h → Composited op src dst x y (D a b) k.img →
      Composited op src dst x y (D (a + 1) b)
        (composePixel op src x y (clip x y src.w src.h dst.w dst.h) (k.goto a b)).img := by
    intro a b k ha hb C
    have hin : dst.inRange a b = true := (dst.inRange_nat a b).2 ⟨ha, hb⟩
    rw [composePixel_goto, clip_has hin]
    split
    · rename_i hs
      refine C.put hin (fun h => by have := h.2.2; omega) fun p q => ?_
      constructor
      · rintro ⟨h1, h2, h3⟩
        by_cases e : p = a ∧ q = b
        · exact .inr e
        · exact .inl ⟨h1, h2, by omega⟩
      · rintro (⟨h1, h2, h3⟩ | ⟨rfl, rfl⟩)
        · exact ⟨h1, h2, by omega⟩
        · exact ⟨hin, hs, by omega⟩
    · rename_i hs
      refine weaken (fun p q => ⟨fun ⟨h1, h2, h3⟩ => ⟨h1, h2, ?_⟩, fun ⟨h1, h2, h3⟩ => ⟨h1, h2, by omega⟩⟩) C
      by_cases e : p = a ∧ q = b
      · rw [e.1, e.2] at h2; exact absurd h2 hs
      · omega
  have row : ∀ (b : Nat) (k : Job), b < dst.h → Composited op src dst x y (D 0 b) k.img →
      Composited op src dst x y (D 0 (b + 1))
        (composeRow op src x y (clip x y src.w src.h dst.w dst.h) b k).img := by
    intro b k hb C
    unfold composeRow
    rw [C.w]
    refine weaken (fun p q => ?_) (loop_induct (P := fun a j => Composited op src dst x y (D a b) j.img) dst.w C
      fun a j ha hj => pixel a b j ha hb hj)
    have hlt : dst.inRange p q = true → 0 ≤ p ∧ p < dst.w := fun h => by rw [Image.inRange_iff] at h; omega
    exact ⟨fun ⟨h1, h2, h3⟩ => ⟨h1, h2, by have := hlt h1; omega⟩, fun ⟨h1, h2, h3⟩ => ⟨h1, h2, by have := hlt h1; omega⟩⟩
  have h0 : Composited op src dst x y (D 0 0) dst := weaken (S := fun _ _ => False)
    (fun p q => ⟨fun ⟨h1, _, h3⟩ => by rw [Image.inRange_iff] at h1; omega, False.elim⟩)
    ⟨rfl, rfl, rfl, h, fun _ _ h => h.elim, fun _ _ _ => rfl, fun _ _ => rfl, fun _ _ _ _ => rfl⟩
  refine weaken (fun p q => ?_) (loop_induct (P := fun b j => Composited op src dst x y (D 0 b) j.img) dst.h h0
    fun b j hb hj => row b j hb hj)
  have hlt : dst.inRange p q = true → q < dst.h := fun h => ((dst.inRange_iff p q).1 h).2.2.2
  exact ⟨fun ⟨h1, h2⟩ => ⟨h1, h2, .inl (hlt h1)⟩, fun ⟨h1, h2, _⟩ => ⟨h1, h2⟩⟩

/-- What every move of the raster and every written pixel keep, the composite keeps. -/
theorem composeRun_induct {P : Job → Prop} (op : ComposeOp) (src : Image) (x y : Int) (r : Rect) {k : Job} (h : P k)
    (hgo : ∀ (j : Job) (a b : Nat), P j → P (j.goto a b))
    (hput : ∀ (j : Job) (p q : Int) (v : Bool), P j → P (j.put p q v)) : P (composeRun op src x y r k) :=
  loop_induct (P := fun _ j => P j) _ (hgo _ _ _ h) fun _ _ _ hj =>
    loop_induct (P := fun _ j => P j) _ hj fun _ _ _ hj => by
      rw [composePixel_goto]
      split
      · exact hput _ _ _ _ (hgo _ _ _ hj)
      · exact hgo _ _ _ hj

/-- A composite keeps the buffer canonical. -/
theorem memOk_composeRun (op : ComposeOp) (src : Image) (x y : Int) (r : Rect) {k : Job} (h : k.img.memOk) :
    (composeRun op src x y r k).img.memOk :=
  composeRun_induct (P := fun j => j.img.memOk) op src x y r h (fun _ _ _ hj => hj) fun _ p q v hj => Image.memOk_put hj p q v

/-- A composite moves the raster position and touches nothing else of the pipelines (R45, R46). -/
theorem composeRun_pipe (op : ComposeOp) (src : Image) (x y : Int) (r : Rect) (k : Job) :
    { (composeRun op src x y r k).pipe with raster := none } = { k.pipe with raster := none } := by
  refine composeRun_induct (P := fun j => ({ j.pipe with raster := none } : Pipeline) = { k.pipe with raster := none })
    op src x y r rfl (fun _ _ _ hj => hj) fun _ _ _ _ hj => hj

end Sys2Proof.Machine
end

