-- ==== Sys2Proof/Laws/Encoding.lean ====
section
/-! SUPPORT. Encoding: a command word is its seven fields (30_encoding.md R81), and what masking and encoding do to each. -/

namespace Sys2Proof

/-- A command word from its fields. -/
theorem toNat_eq_fields (w : Word) : w.toNat =
    opcOf w + 0x100 * tmplOf w + 0x400 * (tpOf w).toNat + 0x800 * (mmrOf w).toNat + 0x1000 * copOf w
      + 0x8000 * (clrvOf w).toNat + 0x10000 * rsvOf w := by
  have h : w.toNat < 2 ^ 32 := w.isLt
  have hb : ∀ k, (w.getLsbD k).toNat = w.toNat / 2 ^ k % 2 := by
    intro k
    rw [BitVec.getLsbD, Nat.testBit_eq_decide_div_mod_eq]
    by_cases hh : w.toNat / 2 ^ k % 2 = 1
    · simp [hh]
    · simp [hh]; omega
  unfold opcOf tmplOf tpOf mmrOf copOf clrvOf rsvOf
  rw [hb, hb, hb]
  simp only [BitVec.extractLsb'_toNat, Nat.shiftRight_eq_div_pow]
  norm_num
  omega

/-- Two words with the same fields are equal. -/
theorem word_eq_iff_fields {w w' : Word} : w = w' ↔
    opcOf w = opcOf w' ∧ tmplOf w = tmplOf w' ∧ tpOf w = tpOf w' ∧ mmrOf w = mmrOf w' ∧ copOf w = copOf w' ∧
      clrvOf w = clrvOf w' ∧ rsvOf w = rsvOf w' := by
  refine ⟨fun h => by subst h; simp, fun ⟨h1, h2, h3, h4, h5, h6, h7⟩ => BitVec.eq_of_toNat_eq ?_⟩
  rw [toNat_eq_fields w, toNat_eq_fields w', h1, h2, h3, h4, h5, h6, h7]

/-- Masking a word masks each field. -/
theorem fields_and (w m : Word) :
    opcOf (w &&& m) = opcOf w &&& opcOf m ∧ tmplOf (w &&& m) = tmplOf w &&& tmplOf m ∧
      tpOf (w &&& m) = (tpOf w && tpOf m) ∧ mmrOf (w &&& m) = (mmrOf w && mmrOf m) ∧
      copOf (w &&& m) = copOf w &&& copOf m ∧ clrvOf (w &&& m) = (clrvOf w && clrvOf m) ∧
      rsvOf (w &&& m) = rsvOf w &&& rsvOf m := by
  unfold opcOf tmplOf tpOf mmrOf copOf clrvOf rsvOf
  refine ⟨?_, ?_, BitVec.getLsbD_and, BitVec.getLsbD_and, ?_, BitVec.getLsbD_and, ?_⟩ <;>
    rw [← BitVec.toNat_and] <;> congr 1 <;> ext k hk <;> simp

theorem fields_lt (w : Word) : opcOf w < 256 ∧ tmplOf w < 4 ∧ copOf w < 8 ∧ rsvOf w < 65536 := by
  unfold opcOf tmplOf copOf rsvOf
  exact ⟨BitVec.isLt _, BitVec.isLt _, BitVec.isLt _, BitVec.isLt _⟩

/-- A mask of ones leaves its field. -/
theorem fields_and_ones (w : Word) :
    opcOf w &&& 255 = opcOf w ∧ rsvOf w &&& 65535 = rsvOf w ∧ copOf w &&& 7 = copOf w ∧ tmplOf w &&& 3 = tmplOf w := by
  have := fields_lt w
  refine ⟨?_, ?_, ?_, ?_⟩
  · exact (Nat.and_two_pow_sub_one_eq_mod _ 8).trans (Nat.mod_eq_of_lt (by omega))
  · exact (Nat.and_two_pow_sub_one_eq_mod _ 16).trans (Nat.mod_eq_of_lt (by omega))
  · exact (Nat.and_two_pow_sub_one_eq_mod _ 3).trans (Nat.mod_eq_of_lt (by omega))
  · exact (Nat.and_two_pow_sub_one_eq_mod _ 2).trans (Nat.mod_eq_of_lt (by omega))

/-- The fields of a word written out from them. -/
theorem fields_mkWord (o t c : Nat) (tp m cl : Bool) (ho : o < 256) (ht : t < 4) (hc : c < 8) :
    opcOf (mkWord o t c tp m cl) = o ∧ tmplOf (mkWord o t c tp m cl) = t ∧ tpOf (mkWord o t c tp m cl) = tp ∧
      mmrOf (mkWord o t c tp m cl) = m ∧ copOf (mkWord o t c tp m cl) = c ∧ clrvOf (mkWord o t c tp m cl) = cl ∧
      rsvOf (mkWord o t c tp m cl) = 0 := by
  have e := toNat_eq_fields (mkWord o t c tp m cl)
  have hv : (mkWord o t c tp m cl).toNat =
      o + 0x100 * t + 0x400 * tp.toNat + 0x800 * m.toNat + 0x1000 * c + 0x8000 * cl.toNat := by
    have := tp.toNat_lt
    have := m.toNat_lt
    have := cl.toNat_lt
    unfold mkWord
    rw [BitVec.toNat_ofNat, Nat.mod_eq_of_lt]
    omega
  have hl := fields_lt (mkWord o t c tp m cl)
  rw [hv] at e
  generalize opcOf (mkWord o t c tp m cl) = a at *
  generalize tmplOf (mkWord o t c tp m cl) = b at *
  generalize tpOf (mkWord o t c tp m cl) = c' at *
  generalize mmrOf (mkWord o t c tp m cl) = d at *
  generalize copOf (mkWord o t c tp m cl) = f at *
  generalize clrvOf (mkWord o t c tp m cl) = g at *
  generalize rsvOf (mkWord o t c tp m cl) = r at *
  cases tp <;> cases m <;> cases cl <;> cases c' <;> cases d <;> cases g <;> simp at e ⊢ <;> omega

end Sys2Proof
end

