-- ==== Sys2Proof/Laws/Job.lean ====
section
/-! SUPPORT. Job: what one coder request, one pixel and one row of a decode can do, said once (20_memory.md R71,
42_generic.md R172, 43_refinement.md R207), and the induction over a whole decode. -/

namespace Sys2Proof.Machine

/-! ### One coder request -/

/-- An answered request: the entry, the coder and the log are updated, and nothing else is (R71). -/
theorem arithDecode_ok {cx : Nat} {p p' : Pipeline} {b : Bool} : arithDecode cx p = .ok (b, p') ↔
    ∃ e' c', p.coder.decode (p.stats.read cx) = some (b, e', c') ∧
      p' = { p with
        stats := p.stats.write cx e', coder := c', coderLog := ⟨cx, p.stats.read cx, some b⟩ :: p.coderLog } := by
  unfold arithDecode
  simp only
  cases hd : p.coder.decode (p.stats.read cx) with
  | none => simp
  | some r =>
    obtain ⟨b₁, e₁, c₁⟩ := r
    simp only [Except.ok.injEq, Prod.mk.injEq, Option.some.injEq]
    constructor
    · rintro ⟨rfl, rfl⟩; exact ⟨e₁, c₁, ⟨rfl, rfl, rfl⟩, rfl⟩
    · rintro ⟨e', c', ⟨rfl, rfl, rfl⟩, rfl⟩; exact ⟨rfl, rfl⟩

/-- A request the coder answers FAIL: only the coder's own state and the log change (R71). -/
theorem arithDecode_error {cx : Nat} {p p' : Pipeline} : arithDecode cx p = .error p' ↔
    p.coder.decode (p.stats.read cx) = none ∧
      p' = { p with
        coder := p.coder.afterFail (p.stats.read cx), coderLog := ⟨cx, p.stats.read cx, none⟩ :: p.coderLog } := by
  unfold arithDecode
  simp only
  cases hd : p.coder.decode (p.stats.read cx) with
  | none => simp [eq_comm]
  | some r => simp

/-- A request never touches the image. -/
theorem Job.ask_ok {cx : Nat} {j j' : Job} {b : Bool} : j.ask cx = .ok (b, j') ↔
    ∃ p', arithDecode cx j.pipe = .ok (b, p') ∧ j' = { j with pipe := p' } := by
  unfold Job.ask
  cases hd : arithDecode cx j.pipe with
  | error p => simp
  | ok r =>
    obtain ⟨b₁, p₁⟩ := r
    simp only [Except.ok.injEq, Prod.mk.injEq]
    constructor
    · rintro ⟨rfl, rfl⟩; exact ⟨p₁, ⟨rfl, rfl⟩, rfl⟩
    · rintro ⟨p', ⟨rfl, rfl⟩, rfl⟩; exact ⟨rfl, rfl⟩

theorem Job.ask_error {cx : Nat} {j j' : Job} : j.ask cx = .error j' ↔
    ∃ p', arithDecode cx j.pipe = .error p' ∧ j' = { j with pipe := p' } := by
  unfold Job.ask
  cases hd : arithDecode cx j.pipe with
  | ok r => simp
  | error p => simp [eq_comm]

/-- The frame of an answered request. -/
theorem Job.ask_ok_frame {cx : Nat} {j j' : Job} {b : Bool} (h : j.ask cx = .ok (b, j')) :
    j'.img = j.img ∧ j'.pipe.ltp = j.pipe.ltp ∧ j'.pipe.raster = j.pipe.raster ∧
      j'.pipe.coderLog = ⟨cx, j.pipe.stats.read cx, some b⟩ :: j.pipe.coderLog := by
  obtain ⟨p', hp, rfl⟩ := Job.ask_ok.1 h
  obtain ⟨e', c', -, rfl⟩ := arithDecode_ok.1 hp
  exact ⟨rfl, rfl, rfl, rfl⟩

/-- The frame of a request answered FAIL. -/
theorem Job.ask_error_frame {cx : Nat} {j j' : Job} (h : j.ask cx = .error j') :
    j'.img = j.img ∧ j'.pipe.ltp = j.pipe.ltp ∧ j'.pipe.raster = j.pipe.raster ∧ j'.pipe.stats = j.pipe.stats ∧
      j'.pipe.coderLog = ⟨cx, j.pipe.stats.read cx, none⟩ :: j.pipe.coderLog := by
  obtain ⟨p', hp, rfl⟩ := Job.ask_error.1 h
  obtain ⟨-, rfl⟩ := arithDecode_error.1 hp
  exact ⟨rfl, rfl, rfl, rfl, rfl⟩

/-- A request keeps the stats RAM canonical. -/
theorem Job.ask_ok_stats {cx : Nat} {j j' : Job} {b : Bool} (h : j.ask cx = .ok (b, j')) (hw : j.pipe.stats.wf)
    (hcx : cx < statsDepth) : j'.pipe.stats.wf ∧ ∀ a, a ≠ cx → j'.pipe.stats.read a = j.pipe.stats.read a := by
  obtain ⟨p', hp, rfl⟩ := Job.ask_ok.1 h
  obtain ⟨e', c', -, rfl⟩ := arithDecode_ok.1 hp
  exact ⟨StatsRam.wf_write hw hcx e', fun a ha => by simp [StatsRam.read_write hw, ha]⟩

/-- The typical-prediction step is one request and the exclusive or (R172, R207). -/
theorem Job.ltpStep_ok {cx : Nat} {j j' : Job} : j.ltpStep cx = .ok j' ↔
    ∃ b j₁, j.ask cx = .ok (b, j₁) ∧ j' = { j₁ with pipe := { j₁.pipe with ltp := j₁.pipe.ltp ^^ b } } := by
  unfold Job.ltpStep
  cases hd : j.ask cx with
  | error p => simp
  | ok r => obtain ⟨b, j₁⟩ := r; simp [eq_comm]

theorem Job.ltpStep_error {cx : Nat} {j j' : Job} : j.ltpStep cx = .error j' ↔ j.ask cx = .error j' := by
  unfold Job.ltpStep
  cases hd : j.ask cx with
  | error p => simp
  | ok r => simp

/-! ### Contexts are table indices (R66) -/

theorem contextOf_lt (l : List Bool) : contextOf l < 2 ^ l.length := by
  induction l with
  | nil => simp [contextOf]
  | cons b l ih =>
    have := b.toNat_lt
    simp only [contextOf, List.length_cons, Nat.pow_succ]
    omega

theorem genContext_lt (t : GenTemplate) (a : GenAt) (im : Image) (x y : Int) : genContext t a im x y < t.statsSize := by
  have := contextOf_lt (t.taps.map fun tap => im.pix (x + (tap.offset a).1) (y + (tap.offset a).2))
  rw [List.length_map] at this
  cases t <;> exact this

theorem refContext_lt (t : RefTemplate) (o : RefOperands) (im : Image) (x y : Int) :
    refContext t o im x y < t.statsSize := by
  have := contextOf_lt (t.taps.map fun tap => tap.pixel o im.pix x y)
  rw [List.length_map] at this
  cases t <;> exact this

/-- Bit `b` of a context value is the bit listed at place `b` (R8). -/
theorem contextOf_testBit (l : List Bool) (b : Nat) : (contextOf l).testBit b = l.getD b false := by
  induction l generalizing b with
  | nil => simp [contextOf]
  | cons c l ih =>
    have hc : contextOf (c :: l) = Nat.bit c (contextOf l) := by
      cases c <;> simp [contextOf, Nat.bit]
      omega
    rw [hc]
    cases b with
    | zero => simp
    | succ b => rw [Nat.testBit_bit_succ, ih]; simp

theorem GenTemplate.tpCx_lt (t : GenTemplate) : t.tpCx < t.statsSize := by cases t <;> decide
theorem RefTemplate.tpCx_lt (t : RefTemplate) : t.tpCx < t.statsSize := by cases t <;> decide
theorem GenTemplate.statsSize_le (t : GenTemplate) : t.statsSize ≤ statsDepth := by cases t <;> decide
theorem RefTemplate.statsSize_le (t : RefTemplate) : t.statsSize ≤ statsDepth := by cases t <;> decide

/-! ### One pixel and one row -/

/-- A decoded pixel: a request with the pixel's context, and the write of its answer (R172). -/
theorem genPixel_ok {t : GenTemplate} {a : GenAt} {x y : Nat} {j j' : Job} :
    genPixel t a (j.goto x y) = .ok j' ↔
      ∃ b j₁, (j.goto x y).ask (genContext t a j.img x y) = .ok (b, j₁) ∧ j' = j₁.put x y b := by
  unfold genPixel
  simp only [Job.goto_pos, Job.goto_img]
  cases hd : (j.goto x y).ask (genContext t a j.img x y) with
  | error p => simp
  | ok r => obtain ⟨b, j₁⟩ := r; simp [eq_comm]

theorem genPixel_error {t : GenTemplate} {a : GenAt} {x y : Nat} {j j' : Job} :
    genPixel t a (j.goto x y) = .error j' ↔ (j.goto x y).ask (genContext t a j.img x y) = .error j' := by
  unfold genPixel
  simp only [Job.goto_pos, Job.goto_img]
  cases hd : (j.goto x y).ask (genContext t a j.img x y) with
  | error p => simp
  | ok r => simp

theorem refAsk_ok {t : RefTemplate} {o : RefOperands} {x y : Nat} {j j' : Job} :
    refAsk t o (j.goto x y) = .ok j' ↔
      ∃ b j₁, (j.goto x y).ask (refContext t o j.img x y) = .ok (b, j₁) ∧ j' = j₁.put x y b := by
  unfold refAsk
  simp only [Job.goto_pos, Job.goto_img]
  cases hd : (j.goto x y).ask (refContext t o j.img x y) with
  | error p => simp
  | ok r => obtain ⟨b, j₁⟩ := r; simp [eq_comm]

theorem refAsk_error {t : RefTemplate} {o : RefOperands} {x y : Nat} {j j' : Job} :
    refAsk t o (j.goto x y) = .error j' ↔ (j.goto x y).ask (refContext t o j.img x y) = .error j' := by
  unfold refAsk
  simp only [Job.goto_pos, Job.goto_img]
  cases hd : (j.goto x y).ask (refContext t o j.img x y) with
  | error p => simp
  | ok r => simp

/-- A pixel of a refinement decode: implied, with no request, or decoded (R207). -/
theorem refPixel_eq {t : RefTemplate} {tp : Bool} {o : RefOperands} {x y : Nat} {j : Job} :
    refPixel t tp o (j.goto x y) =
      if tp && j.pipe.ltp && (implicitValue o x y).isSome then .ok ((j.goto x y).put x y ((implicitValue o x y).getD false))
      else refAsk t o (j.goto x y) := by
  unfold refPixel
  simp only [Job.goto_pos, Job.goto_pipe]
  by_cases hl : (tp && j.pipe.ltp) = true
  · cases hv : implicitValue o x y with
    | none => simp
    | some v => simp [hl]
  · simp [hl]

/-- A generic row without typical prediction is decoded. -/
theorem genRow_plain {t : GenTemplate} {a : GenAt} {y : Nat} {j : Job} :
    genRow t false a y j = genPixels t a y (j.goto 0 y) := rfl

/-- A generic row with typical prediction (R172). -/
theorem genRow_tp {t : GenTemplate} {a : GenAt} {y : Nat} {j : Job} :
    genRow t true a y j = match (j.goto 0 y).ltpStep t.tpCx with
      | .error j => .error j
      | .ok j => if j.pipe.ltp then .ok { j with img := j.img.copyRow y } else genPixels t a y j := rfl

theorem refRow_plain {t : RefTemplate} {o : RefOperands} {y : Nat} {j : Job} :
    refRow t false o y j = refPixels t false o y (j.goto 0 y) := rfl

theorem refRow_tp {t : RefTemplate} {o : RefOperands} {y : Nat} {j : Job} :
    refRow t true o y j = match (j.goto 0 y).ltpStep t.tpCx with
      | .error j => .error j
      | .ok j => refPixels t true o y j := rfl

/-! ### The induction over a whole decode -/

/-- What every move of a decode whose table has `n` entries keeps: `P` while it goes on, `Q` where the coder fails. -/
structure JobInv (n : Nat) (P Q : Job → Prop) : Prop where
  goto : ∀ {j : Job} (x y : Nat), P j → P (j.goto x y)
  ltp : ∀ {j : Job} (l : Bool), P j → P { j with pipe := { j.pipe with ltp := l } }
  put : ∀ {j : Job} (x y : Int) (v : Bool), P j → P (j.put x y v)
  clear : ∀ {j : Job} {y : Nat}, y < j.img.h → P j → P { j with img := j.img.clearPadding y }
  copy : ∀ {j : Job} {y : Nat}, y < j.img.h → P j → P { j with img := j.img.copyRow y }
  ask : ∀ {j j' : Job} {cx : Nat} {b : Bool}, cx < n → P j → j.ask cx = .ok (b, j') → P j'
  fail : ∀ {j j' : Job} {cx : Nat}, cx < n → P j → j.ask cx = .error j' → Q j'

namespace JobInv

variable {n : Nat} {P Q : Job → Prop}

/-- The image's sizes may be assumed of every state of the decode. -/
theorem sized (H : JobInv n P Q) (w h : Nat) : JobInv n (fun j => P j ∧ j.img.w = w ∧ j.img.h = h) Q where
  goto x y hj := ⟨H.goto x y hj.1, hj.2⟩
  ltp l hj := ⟨H.ltp l hj.1, hj.2⟩
  put x y v hj := ⟨H.put x y v hj.1, by simpa using hj.2⟩
  clear hy hj := ⟨H.clear hy hj.1, hj.2⟩
  copy hy hj := ⟨H.copy hy hj.1, hj.2⟩
  ask hc hj ha := ⟨H.ask hc hj.1 ha, by rw [(Job.ask_ok_frame ha).1]; exact hj.2⟩
  fail hc hj ha := H.fail hc hj.1 ha

/-- What a decode that ends well, or that the coder fails, leaves. -/
abbrev Ends (P Q : Job → Prop) (r : Except Job Job) : Prop := (∀ j, r = .ok j → P j) ∧ (∀ j, r = .error j → Q j)

theorem genPixels {t : GenTemplate} (H : JobInv t.statsSize P Q) {a : GenAt} {y : Nat} {j : Job} (hy : y < j.img.h)
    (hj : P j) : Ends P Q (genPixels t a y j) :=
  loopE_induct (P := fun _ => P) _ (H.clear hy hj) fun x b _ hb =>
    ⟨fun c hc => by
      obtain ⟨v, j₁, ha, rfl⟩ := genPixel_ok.1 hc
      exact H.put _ _ _ (H.ask (genContext_lt ..) (H.goto x y hb) ha),
    fun c hc => H.fail (genContext_lt ..) (H.goto x y hb) (genPixel_error.1 hc)⟩

theorem genRow {t : GenTemplate} (H : JobInv t.statsSize P Q) {tp : Bool} {a : GenAt} {y : Nat} {j : Job}
    (hy : y < j.img.h) (hj : P j) : Ends P Q (genRow t tp a y j) := by
  cases tp with
  | false => exact H.genPixels (j := j.goto 0 y) hy (H.goto 0 y hj)
  | true =>
    rw [genRow_tp]
    cases hl : (j.goto 0 y).ltpStep t.tpCx with
    | error j' =>
      exact ⟨fun c hc => (by cases hc), fun c hc => by
        cases hc; exact H.fail t.tpCx_lt (H.goto 0 y hj) (Job.ltpStep_error.1 hl)⟩
    | ok j' =>
      obtain ⟨b, j₁, ha, rfl⟩ := Job.ltpStep_ok.1 hl
      have hp := H.ltp (j₁.pipe.ltp ^^ b) (H.ask t.tpCx_lt (H.goto 0 y hj) ha)
      have hh : y < j₁.img.h := by rw [(Job.ask_ok_frame ha).1]; exact hy
      change y < ({ j₁ with pipe := { j₁.pipe with ltp := j₁.pipe.ltp ^^ b } } : Job).img.h at hh
      generalize ({ j₁ with pipe := { j₁.pipe with ltp := j₁.pipe.ltp ^^ b } } : Job) = k at hp hh
      simp only
      split
      · exact ⟨fun c hc => by cases hc; exact H.copy hh hp, fun c hc => by cases hc⟩
      · exact H.genPixels hh hp

/-- A generic decode (R172). -/
theorem genRun {t : GenTemplate} (H : JobInv t.statsSize P Q) {tp : Bool} {a : GenAt} {j : Job} (hj : P j) :
    Ends P Q (genRun t tp a j) := by
  have := loopE_induct (P := fun _ k => P k ∧ k.img.w = j.img.w ∧ k.img.h = j.img.h) (Q := Q)
    (f := Machine.genRow t tp a) j.img.h ⟨hj, rfl, rfl⟩
    fun y b hy hb => (H.sized j.img.w j.img.h).genRow (by rw [hb.2.2]; exact hy) hb
  exact ⟨fun c hc => (this.1 c hc).1, this.2⟩

theorem refPixels {t : RefTemplate} (H : JobInv t.statsSize P Q) {tp : Bool} {o : RefOperands} {y : Nat} {j : Job}
    (hy : y < j.img.h) (hj : P j) : Ends P Q (refPixels t tp o y j) :=
  loopE_induct (P := fun _ => P) _ (H.clear hy hj) fun x b _ hb => by
    rw [refPixel_eq]
    split
    · exact ⟨fun c hc => by cases hc; exact H.put _ _ _ (H.goto x y hb), fun c hc => by cases hc⟩
    · exact ⟨fun c hc => by
        obtain ⟨v, j₁, ha, rfl⟩ := refAsk_ok.1 hc
        exact H.put _ _ _ (H.ask (refContext_lt ..) (H.goto x y hb) ha),
      fun c hc => H.fail (refContext_lt ..) (H.goto x y hb) (refAsk_error.1 hc)⟩

theorem refRow {t : RefTemplate} (H : JobInv t.statsSize P Q) {tp : Bool} {o : RefOperands} {y : Nat} {j : Job}
    (hy : y < j.img.h) (hj : P j) : Ends P Q (refRow t tp o y j) := by
  cases tp with
  | false => exact H.refPixels (j := j.goto 0 y) hy (H.goto 0 y hj)
  | true =>
    rw [refRow_tp]
    cases hl : (j.goto 0 y).ltpStep t.tpCx with
    | error j' =>
      exact ⟨fun c hc => (by cases hc), fun c hc => by
        cases hc; exact H.fail t.tpCx_lt (H.goto 0 y hj) (Job.ltpStep_error.1 hl)⟩
    | ok j' =>
      obtain ⟨b, j₁, ha, rfl⟩ := Job.ltpStep_ok.1 hl
      have hp := H.ltp (j₁.pipe.ltp ^^ b) (H.ask t.tpCx_lt (H.goto 0 y hj) ha)
      have hh : y < j₁.img.h := by rw [(Job.ask_ok_frame ha).1]; exact hy
      exact H.refPixels hh hp

/-- A refinement decode (R207). -/
theorem refRun {t : RefTemplate} (H : JobInv t.statsSize P Q) {tp : Bool} {o : RefOperands} {j : Job} (hj : P j) :
    Ends P Q (refRun t tp o j) := by
  have := loopE_induct (P := fun _ k => P k ∧ k.img.w = j.img.w ∧ k.img.h = j.img.h) (Q := Q)
    (f := Machine.refRow t tp o) j.img.h ⟨hj, rfl, rfl⟩
    fun y b hy hb => (H.sized j.img.w j.img.h).refRow (by rw [hb.2.2]; exact hy) hb
  exact ⟨fun c hc => (this.1 c hc).1, this.2⟩

end JobInv

/-- Every move of a decode keeps the image's sizes, references and canonical buffer, and the stats RAM canonical. -/
theorem jobInv_wf {n : Nat} (hn : n ≤ statsDepth) (im : Image) (hw : 1 ≤ im.w) :
    let P := fun j : Job => j.img.w = im.w ∧ j.img.h = im.h ∧ j.img.refcnt = im.refcnt ∧ j.img.memOk ∧ j.pipe.stats.wf
    JobInv n P P where
  goto _ _ hj := hj
  ltp _ hj := hj
  put x y v hj := ⟨by simpa using hj.1, by simpa using hj.2.1, by simpa using hj.2.2.1,
    Image.memOk_put hj.2.2.2.1 x y v, hj.2.2.2.2⟩
  clear hy hj := ⟨hj.1, hj.2.1, hj.2.2.1, Image.memOk_clearPadding hj.2.2.2.1 (by rw [hj.1]; exact hw) hy, hj.2.2.2.2⟩
  copy hy hj := ⟨hj.1, hj.2.1, hj.2.2.1, Image.memOk_copyRow hj.2.2.2.1 hy, hj.2.2.2.2⟩
  ask hc hj ha := by
    rw [(Job.ask_ok_frame ha).1]
    exact ⟨hj.1, hj.2.1, hj.2.2.1, hj.2.2.2.1, (Job.ask_ok_stats ha hj.2.2.2.2 (by omega)).1⟩
  fail hc hj ha := by
    obtain ⟨hi, -, -, hs, -⟩ := Job.ask_error_frame ha
    rw [hi, hs]
    exact hj

end Sys2Proof.Machine
end

