-- ==== Sys2Proof/Laws/Table.lean ====
section
/-! SUPPORT. Table: the laws of the descriptor table: what a handle names after an update, and the bytes in use. -/

namespace Sys2Proof.Machine

theorem State.image?_eq_some {s : State} {h : Word} {im : Image} :
    s.image? h = some im ↔ h ≠ 0 ∧ s.descs[h.toNat - 1]? = some (some im) := by
  unfold State.image?
  by_cases h0 : h = 0
  · simp [h0]
  · rw [if_neg h0]
    cases hd : s.descs[h.toNat - 1]? with
    | none => simp
    | some d =>
      cases d with
      | none => simp
      | some d => simpa using fun _ => h0

/-- A valid handle is nonzero and its slot is in the table. -/
theorem State.valid_lt {s : State} {h : Word} {im : Image} (hv : s.image? h = some im) :
    h ≠ 0 ∧ h.toNat - 1 < s.descs.length := by
  obtain ⟨h0, hd⟩ := State.image?_eq_some.1 hv
  exact ⟨h0, (List.getElem?_eq_some_iff.1 hd).1⟩

theorem Word.toNat_pos {h : Word} (h0 : h ≠ 0) : 0 < h.toNat := by
  rcases Nat.eq_zero_or_pos h.toNat with hz | hz
  · exact absurd (BitVec.eq_of_toNat_eq hz) h0
  · exact hz

theorem Word.pred_inj {g h : Word} (hg : g ≠ 0) (hh : h ≠ 0) (e : g.toNat - 1 = h.toNat - 1) : g = h := by
  have := Word.toNat_pos hg
  have := Word.toNat_pos hh
  exact BitVec.eq_of_toNat_eq (by omega)

/-- What handle `h` names depends on the descriptor table alone. -/
theorem State.image?_congr {s t : State} (hd : s.descs = t.descs) (h : Word) : s.image? h = t.image? h := by
  unfold State.image?; rw [hd]

@[simp] theorem State.image?_complete (s : State) (v h : Word) : (s.complete v).image? h = s.image? h := rfl
@[simp] theorem State.image?_raise (s : State) (c : Cause) (h : Word) : (s.raise c).image? h = s.image? h := rfl
@[simp] theorem State.image?_putJob (s : State) (g : Word) (j : Job) (h : Word) :
    (s.putJob g j).image? h = (s.setImage g (some j.img)).image? h := rfl

/-- A slot that was written reads back. -/
theorem State.image?_setImage_self {s : State} {h : Word} {im : Image} (hv : s.image? h = some im) (new : Option Image) :
    (s.setImage h new).image? h = new := by
  obtain ⟨h0, hl⟩ := State.valid_lt hv
  unfold State.image?
  rw [if_neg h0]
  simp [hl]

/-- A write to one slot leaves what every other handle names. -/
theorem State.image?_setImage_ne {s : State} {g h : Word} (h0 : h ≠ 0) (hgh : g ≠ h) (new : Option Image) :
    (s.setImage h new).image? g = s.image? g := by
  unfold State.image?
  by_cases g0 : g = 0
  · simp [g0]
  · rw [if_neg g0, if_neg g0]
    simp only [State.setImage_descs]
    rw [List.getElem?_set_ne]
    intro e
    exact hgh (Word.pred_inj g0 h0 e.symm)

/-- The bytes in use after one slot of the table is replaced (R68). -/
theorem sum_slotBytes_set {ds : List (Option Image)} {k : Nat} {d : Option Image} (hk : ds[k]? = some d)
    (new : Option Image) :
    ((ds.set k new).map slotBytes).sum + slotBytes d = (ds.map slotBytes).sum + slotBytes new := by
  induction ds generalizing k with
  | nil => simp at hk
  | cons e ds ih =>
    cases k with
    | zero =>
      obtain rfl : e = d := by simpa using hk
      simp only [List.set_cons_zero, List.map_cons, List.sum_cons]
      omega
    | succ k =>
      have := ih (k := k) (by simpa using hk)
      simp only [List.set_cons_succ, List.map_cons, List.sum_cons]
      omega

/-- A live image is among the slots. -/
theorem State.mem_descs {s : State} {h : Word} {im : Image} (hv : s.image? h = some im) : some im ∈ s.descs := by
  obtain ⟨-, hd⟩ := State.image?_eq_some.1 hv
  exact List.mem_of_getElem? hd

/-- The bytes in use after the image of a valid handle is replaced (R68). -/
theorem State.usedBytes_setImage {s : State} {h : Word} {im : Image} (hv : s.image? h = some im) (new : Option Image) :
    (s.setImage h new).usedBytes + im.need = s.usedBytes + slotBytes new :=
  sum_slotBytes_set (State.image?_eq_some.1 hv).2 new

/-- The slots after one is replaced. -/
theorem State.mem_setImage {s : State} {h : Word} {new : Option Image} {im : Image}
    (hm : some im ∈ (s.setImage h new).descs) : some im ∈ s.descs ∨ new = some im := by
  rcases List.mem_or_eq_of_mem_set hm with hm | hm
  · exact .inl hm
  · exact .inr hm.symm

@[simp] theorem State.nHandles_setImage (s : State) (h : Word) (new : Option Image) :
    (s.setImage h new).nHandles = s.nHandles := by simp [State.nHandles]
@[simp] theorem State.nHandles_putJob (s : State) (h : Word) (j : Job) : (s.putJob h j).nHandles = s.nHandles := by
  simp [State.nHandles]
@[simp] theorem State.nHandles_complete (s : State) (v : Word) : (s.complete v).nHandles = s.nHandles := rfl
@[simp] theorem State.nHandles_raise (s : State) (c : Cause) : (s.raise c).nHandles = s.nHandles := rfl

/-- The least free slot (R113). -/
theorem State.freeSlot?_eq_some {s : State} {k : Nat} :
    s.freeSlot? = some k ↔ s.descs[k]? = some none ∧ ∀ g < k, s.descs[g]? ≠ some none := by
  unfold State.freeSlot?
  rw [List.findIdx?_eq_some_iff_getElem]
  constructor
  · rintro ⟨hk, hn, hlt⟩
    refine ⟨?_, fun g hg he => ?_⟩
    · rw [List.getElem?_eq_getElem hk]
      simpa using hn
    · have := hlt g hg
      obtain ⟨hgl, he⟩ := List.getElem?_eq_some_iff.1 he
      rw [he] at this
      simp at this
  · rintro ⟨hk, hlt⟩
    obtain ⟨hkl, he⟩ := List.getElem?_eq_some_iff.1 hk
    refine ⟨hkl, by simp [he], fun g hg => ?_⟩
    have hne := hlt g hg
    rw [List.getElem?_eq_getElem (by omega)] at hne
    cases hd : s.descs[g] with
    | none => simp [hd] at hne
    | some d => simp

/-- No slot is free. -/
theorem State.freeSlot?_eq_none {s : State} : s.freeSlot? = none ↔ ∀ d ∈ s.descs, d ≠ none := by
  unfold State.freeSlot?
  rw [List.findIdx?_eq_none_iff]
  simp [Option.isSome_iff_ne_none]

end Sys2Proof.Machine
end

