-- ==== Sys2Proof/Laws/Exec.lean ====
section
/-! SUPPORT. Exec: how a command can end, said once for all of them (60_exceptions.md R242, R243). -/

namespace Sys2Proof.Machine

/-- How a command started in `s` can end: normally, with a result and STATUS `st` completed, or with an error that is not
one of the two never raised (R259); in between only the descriptor table and the pipelines' storage have changed. -/
def Ended (s : State) (st : Status) (t : State) : Prop :=
  ∃ (ds : List (Option Image)) (p : Pipeline),
    (∃ v, t = State.complete v { s with descs := ds, pipe := p, status := st }) ∨
      ∃ c, c ≠ .notImplemented ∧ c ≠ .composeRange ∧ t = State.raise c { s with descs := ds, pipe := p }

theorem Ended.complete {s : State} {ds : List (Option Image)} {p : Pipeline} {v : Word} :
    Ended s s.status (State.complete v { s with descs := ds, pipe := p }) := ⟨ds, p, .inl ⟨v, rfl⟩⟩

theorem Ended.raise {s : State} {st : Status} {ds : List (Option Image)} {p : Pipeline} {c : Cause}
    (h : c ≠ .notImplemented) (h' : c ≠ .composeRange) :
    Ended s st (State.raise c { s with descs := ds, pipe := p }) := ⟨ds, p, .inr ⟨c, h, h', rfl⟩⟩

/-- A composite ends by its checks or completes, for the range guard never fires (R140, R148). -/
theorem compose_eq (op : ComposeOp) (s : State) : compose op s =
    match s.image? s.ha, s.image? s.hb with
    | some dst, some src =>
      if s.ha = s.hb then s.raise .aliased
      else (s.putJob s.ha (composeRun op src s.ax.toInt s.ay.toInt
        (clip s.ax.toInt s.ay.toInt src.w src.h dst.w dst.h) { img := dst, pipe := s.pipe })).complete 0
    | _, _ => s.raise .badHandle := by
  unfold compose
  cases s.image? s.ha <;> cases s.image? s.hb <;> simp [rangeGuard_clip]

theorem ended_imgNew (s : State) : Ended s s.status (imgNew s) := by
  unfold imgNew
  simp only
  repeat' split
  all_goals first | exact Ended.raise (by decide) (by decide) | exact Ended.complete

theorem ended_imgClone (s : State) : Ended s s.status (imgClone s) := by
  unfold imgClone
  repeat' split
  all_goals first | exact Ended.raise (by decide) (by decide) | exact Ended.complete

theorem ended_imgRelease (s : State) : Ended s s.status (imgRelease s) := by
  unfold imgRelease
  split
  all_goals first | exact Ended.raise (by decide) (by decide) | exact Ended.complete

theorem ended_imgGet (s : State) : Ended s s.status (imgGet s) := by
  unfold imgGet
  split
  all_goals first | exact Ended.raise (by decide) (by decide) | exact Ended.complete

theorem ended_imgSet (s : State) : Ended s s.status (imgSet s) := by
  unfold imgSet
  repeat' split
  all_goals first | exact Ended.raise (by decide) (by decide) | exact Ended.complete

theorem ended_imgClear (clrv : Bool) (s : State) : Ended s s.status (imgClear clrv s) := by
  unfold imgClear
  split
  all_goals first | exact Ended.raise (by decide) (by decide) | exact Ended.complete

theorem ended_imgResize (s : State) : Ended s s.status (imgResize s) := by
  unfold imgResize
  simp only
  repeat' split
  all_goals first | exact Ended.raise (by decide) (by decide) | exact Ended.complete

theorem ended_imgReadb (s : State) : Ended s s.status (imgReadb s) := by
  unfold imgReadb
  repeat' split
  all_goals first | exact Ended.raise (by decide) (by decide) | exact Ended.complete

theorem ended_imgWriteb (s : State) : Ended s s.status (imgWriteb s) := by
  unfold imgWriteb
  repeat' split
  all_goals first | exact Ended.raise (by decide) (by decide) | exact Ended.complete

theorem ended_compose (op : ComposeOp) (s : State) : Ended s s.status (compose op s) := by
  rw [compose_eq]
  repeat' split
  all_goals first | exact Ended.raise (by decide) (by decide) | exact Ended.complete

theorem ended_genPrecheck (s : State) : Ended s s.status (genPrecheck s) := by
  unfold genPrecheck
  simp only
  repeat' split
  all_goals first | exact Ended.raise (by decide) (by decide) | exact Ended.complete

theorem ended_genDecode (t : GenTemplate) (tp mmr : Bool) (s : State) : Ended s s.status (genDecode t tp mmr s) := by
  unfold genDecode
  repeat' split
  all_goals first | exact Ended.raise (by decide) (by decide) | exact Ended.complete

theorem ended_refDecode (t : RefTemplate) (tp : Bool) (s : State) : Ended s s.status (refDecode t tp s) := by
  unfold refDecode
  repeat' split
  all_goals first | exact Ended.raise (by decide) (by decide) | exact Ended.complete

/-- How any command ends: CLRST alone clears the sticky bits before it completes (R231). -/
theorem exec_ended (i : Instr) (s : State) :
    ∃ t, exec i s = .next t ∧ Ended s (if i = .clrst then s.status.clearSticky else s.status) t := by
  cases i
  case clrst => exact ⟨_, rfl, s.descs, s.pipe, .inl ⟨0, rfl⟩⟩
  case nop => exact ⟨_, rfl, Ended.complete⟩
  case imgNew => exact ⟨_, rfl, ended_imgNew s⟩
  case imgClone => exact ⟨_, rfl, ended_imgClone s⟩
  case imgRelease => exact ⟨_, rfl, ended_imgRelease s⟩
  case imgGet => exact ⟨_, rfl, ended_imgGet s⟩
  case imgSet => exact ⟨_, rfl, ended_imgSet s⟩
  case imgClear clrv => exact ⟨_, rfl, ended_imgClear clrv s⟩
  case imgResize => exact ⟨_, rfl, ended_imgResize s⟩
  case imgReadb => exact ⟨_, rfl, ended_imgReadb s⟩
  case imgWriteb => exact ⟨_, rfl, ended_imgWriteb s⟩
  case composeOr => exact ⟨_, rfl, ended_compose .orOp s⟩
  case composeAnd => exact ⟨_, rfl, ended_compose .andOp s⟩
  case composeXor => exact ⟨_, rfl, ended_compose .xorOp s⟩
  case composeXnor => exact ⟨_, rfl, ended_compose .xnorOp s⟩
  case composeReplace => exact ⟨_, rfl, ended_compose .replaceOp s⟩
  case genPrecheck => exact ⟨_, rfl, ended_genPrecheck s⟩
  case genDecodeT0 tp mmr => exact ⟨_, rfl, ended_genDecode .t0 tp mmr s⟩
  case genDecodeT1 tp mmr => exact ⟨_, rfl, ended_genDecode .t1 tp mmr s⟩
  case genDecodeT2 tp mmr => exact ⟨_, rfl, ended_genDecode .t2 tp mmr s⟩
  case genDecodeT3 tp mmr => exact ⟨_, rfl, ended_genDecode .t3 tp mmr s⟩
  case refDecodeT0 tp => exact ⟨_, rfl, ended_refDecode .t0 tp s⟩
  case refDecodeT1 tp => exact ⟨_, rfl, ended_refDecode .t1 tp s⟩

/-- A command ends in one state. -/
theorem exec_next_inj {i : Instr} {s t u : State} (h : exec i s = .next t) (h' : exec i s = .next u) : t = u := by
  rw [h] at h'
  injection h'

end Sys2Proof.Machine
end

