-- ==== Sys2Proof/Laws/PerInstr.lean ====
section
/-! SUPPORT. PerInstr: the family TableRow: every command's word matches its row of the opcode table (30_encoding.md R83). -/

namespace Sys2Proof.Laws.TableRow

/-- The (match, mask) pair of a command's row of the opcode table (R83). -/
def row : Instr → Word × Word
  | .nop => (0x00000000, 0xFFFF00FF)
  | .imgNew => (0x00000001, 0xFFFF00FF)
  | .imgClone => (0x00000002, 0xFFFF00FF)
  | .imgRelease => (0x00000003, 0xFFFF00FF)
  | .imgGet => (0x00000004, 0xFFFF00FF)
  | .imgSet => (0x00000005, 0xFFFF00FF)
  | .imgClear _ => (0x00000006, 0xFFFF00FF)
  | .imgResize => (0x00000007, 0xFFFF00FF)
  | .imgReadb => (0x00000008, 0xFFFF00FF)
  | .imgWriteb => (0x00000009, 0xFFFF00FF)
  | .composeOr => (0x00000010, 0xFFFF70FF)
  | .composeAnd => (0x00001010, 0xFFFF70FF)
  | .composeXor => (0x00002010, 0xFFFF70FF)
  | .composeXnor => (0x00003010, 0xFFFF70FF)
  | .composeReplace => (0x00004010, 0xFFFF70FF)
  | .genPrecheck => (0x00000020, 0xFFFF00FF)
  | .genDecodeT0 _ _ => (0x00000021, 0xFFFF03FF)
  | .genDecodeT1 _ _ => (0x00000121, 0xFFFF03FF)
  | .genDecodeT2 _ _ => (0x00000221, 0xFFFF03FF)
  | .genDecodeT3 _ _ => (0x00000321, 0xFFFF03FF)
  | .refDecodeT0 _ => (0x00000022, 0xFFFF03FF)
  | .refDecodeT1 _ => (0x00000122, 0xFFFF03FF)
  | .clrst => (0x0000003F, 0xFFFF00FF)

/-- The encoder's word, under the mask of the command's row, is the row's match, whatever the operand bits. -/
def Statement (i : Instr) : Prop := encode i &&& (row i).2 = (row i).1

theorem nop : Statement .nop := rfl
theorem imgNew : Statement .imgNew := rfl
theorem imgClone : Statement .imgClone := rfl
theorem imgRelease : Statement .imgRelease := rfl
theorem imgGet : Statement .imgGet := rfl
theorem imgSet : Statement .imgSet := rfl
theorem imgClear (clrv : Bool) : Statement (.imgClear clrv) := by cases clrv <;> rfl
theorem imgResize : Statement .imgResize := rfl
theorem imgReadb : Statement .imgReadb := rfl
theorem imgWriteb : Statement .imgWriteb := rfl
theorem composeOr : Statement .composeOr := rfl
theorem composeAnd : Statement .composeAnd := rfl
theorem composeXor : Statement .composeXor := rfl
theorem composeXnor : Statement .composeXnor := rfl
theorem composeReplace : Statement .composeReplace := rfl
theorem genPrecheck : Statement .genPrecheck := rfl
theorem genDecodeT0 (tp : Bool) (mmr : Bool) : Statement (.genDecodeT0 tp mmr) := by cases tp <;> cases mmr <;> rfl
theorem genDecodeT1 (tp : Bool) (mmr : Bool) : Statement (.genDecodeT1 tp mmr) := by cases tp <;> cases mmr <;> rfl
theorem genDecodeT2 (tp : Bool) (mmr : Bool) : Statement (.genDecodeT2 tp mmr) := by cases tp <;> cases mmr <;> rfl
theorem genDecodeT3 (tp : Bool) (mmr : Bool) : Statement (.genDecodeT3 tp mmr) := by cases tp <;> cases mmr <;> rfl
theorem refDecodeT0 (tp : Bool) : Statement (.refDecodeT0 tp) := by cases tp <;> rfl
theorem refDecodeT1 (tp : Bool) : Statement (.refDecodeT1 tp) := by cases tp <;> rfl
theorem clrst : Statement .clrst := rfl

end Sys2Proof.Laws.TableRow
end

