-- ==== Sys2Proof/Laws/Rows.lean ====
section
/-! SUPPORT. Rows: what a row of a decode leaves of the image and of the request log, said once for each decoder
(42_generic.md R172 to R175, 43_refinement.md R207). -/

namespace Sys2Proof.Machine

/-! ### Images that agree -/

/-- Equal sizes and equal stored bits make equal buffers. -/
theorem Image.mem_ext {a b : Image} (hw : a.w = b.w) (hh : a.h = b.h) (ha : a.memOk) (hb : b.memOk) (hw1 : 1 ≤ a.w)
    (h : ∀ p q : Nat, p < 8 * a.stride → q < a.h → a.bit p q = b.bit p q) : a.mem = b.mem := by
  have hst : a.stride = b.stride := by unfold Image.stride; rw [hw]
  refine Memory.ext ha.1 hb.1 fun off => ?_
  by_cases ho : off < a.size
  · have hs := Image.stride_pos hw1
    have hq : off / a.stride < a.h := Nat.div_lt_of_lt_mul ho
    refine BitVec.eq_of_getLsbD_eq fun k hk => ?_
    have := h (8 * (off % a.stride) + (7 - k)) (off / a.stride) (by have := Nat.mod_lt off hs; omega) hq
    unfold Image.bit at this
    rw [← hst, show (8 * (off % a.stride) + (7 - k)) / 8 = off % a.stride by omega,
      show 7 - (8 * (off % a.stride) + (7 - k)) % 8 = k by omega,
      show off / a.stride * a.stride + off % a.stride = off by rw [Nat.mul_comm]; exact Nat.div_add_mod off a.stride] at this
    exact this
  · have hz : ∀ {c : Image}, c.memOk → c.size ≤ off → c.mem.read off = 0 := fun {c} hc hle =>
      Cells.read_eq_default_of_notMem fun e he hea => by have := hc.2 e he; omega
    rw [hz ha (by omega), hz hb (by unfold Image.size at *; rw [← hst, ← hh]; omega)]

/-- Images of one size whose rows in `R` hold the same bits have the same pixels there. -/
theorem Image.pix_congr {a b : Image} (hw : a.w = b.w) (hh : a.h = b.h) {R : Int → Prop}
    (h : ∀ p q : Nat, p < a.w → R q → a.bit p q = b.bit p q) {p q : Int} (hq : R q) : a.pix p q = b.pix p q := by
  by_cases hin : a.inRange p q = true
  · have hin' := hin
    rw [Image.inRange_iff] at hin
    obtain ⟨p, rfl⟩ := Int.eq_ofNat_of_zero_le hin.1
    obtain ⟨q, rfl⟩ := Int.eq_ofNat_of_zero_le hin.2.2.1
    rw [Image.pix_nat (by omega), Image.pix_nat (by omega)]
    exact h p q (by omega) hq
  · rw [Image.pix_out (by simpa using hin), Image.pix_out (by unfold Image.inRange at *; simpa [hw, hh] using hin)]

/-! ### Contexts read causal pixels (R175, R208) -/

/-- Every tap of a generic template is causal where its AT pixels are. -/
theorem genTap_causal {t : GenTemplate} {a : GenAt} (h : a.causalFor t) {tap : GenTap} (ht : tap ∈ t.taps) :
    causal (tap.offset a) := by
  cases t <;> simp only [GenTemplate.taps, List.mem_cons, List.not_mem_nil, or_false] at ht
  · rcases ht with rfl | rfl | rfl | rfl | rfl | rfl | rfl | rfl | rfl | rfl | rfl | rfl | rfl | rfl | rfl | rfl <;>
      first | exact h.1 | exact h.2.1 | exact h.2.2.1 | exact h.2.2.2 | simp [GenTap.offset, causal]
  · rcases ht with rfl | rfl | rfl | rfl | rfl | rfl | rfl | rfl | rfl | rfl | rfl | rfl | rfl <;>
      first | exact h | simp [GenTap.offset, causal]
  · rcases ht with rfl | rfl | rfl | rfl | rfl | rfl | rfl | rfl | rfl | rfl <;> first | exact h | simp [GenTap.offset, causal]
  · rcases ht with rfl | rfl | rfl | rfl | rfl | rfl | rfl | rfl | rfl | rfl <;> first | exact h | simp [GenTap.offset, causal]

/-- The position before (x, y) in raster order. -/
abbrev before (x y p q : Int) : Prop := q < y ∨ q = y ∧ p < x

/-- A causal generic context depends only on the pixels before its own. -/
theorem genContext_congr {t : GenTemplate} {a : GenAt} (h : a.causalFor t) {im im' : Image} {x y : Int}
    (he : ∀ p q : Int, before x y p q → im.pix p q = im'.pix p q) : genContext t a im x y = genContext t a im' x y := by
  unfold genContext genContextOf
  congr 1
  refine List.map_congr_left fun tap ht => he _ _ ?_
  have := genTap_causal h ht
  unfold causal at this
  unfold before
  omega

/-- A refinement context depends only on the reference and on the pixels before its own, where its AT pixel is causal. -/
theorem refContext_congr {t : RefTemplate} {o : RefOperands} (h : o.offs.causalFor t) {im im' : Image} {x y : Int}
    (he : ∀ p q : Int, before x y p q → im.pix p q = im'.pix p q) : refContext t o im x y = refContext t o im' x y := by
  have hc : t = .t0 → causal o.offs.cur := by rintro rfl; exact h
  unfold refContext refContextOf
  congr 1
  refine List.map_congr_left fun tap ht => ?_
  have key : ∀ dx dy : Int, causal (dx, dy) → im.pix (x + dx) (y + dy) = im'.pix (x + dx) (y + dy) := by
    intro dx dy hd
    refine he _ _ ?_
    unfold causal at hd
    unfold before
    simp only at hd
    omega
  cases t <;> simp only [RefTemplate.taps, List.mem_cons, List.not_mem_nil, or_false] at ht
  · rcases ht with rfl | rfl | rfl | rfl | rfl | rfl | rfl | rfl | rfl | rfl | rfl | rfl | rfl <;>
      first | rfl | exact key _ _ (hc rfl) | exact key _ _ (by decide)
  · rcases ht with rfl | rfl | rfl | rfl | rfl | rfl | rfl | rfl | rfl | rfl <;> first | rfl | exact key _ _ (by decide)

/-! ### The buffer as it stands (R175) -/

/-- What is read at (x, y) depends on the new image's pixels before (x, y) alone. -/
theorem Image.asOf_congr {old new new' : Image} {x y : Nat}
    (h : ∀ p q : Int, before x y p q → new.pix p q = new'.pix p q) : old.asOf new x y = old.asOf new' x y := by
  funext p q
  unfold Image.asOf
  split
  · rename_i hb; exact h p q hb
  · rfl

/-- ... and on the old image's pixels at and after it. -/
theorem Image.asOf_congr_old {old old' new : Image} {x y : Nat}
    (h : ∀ p q : Int, ¬before x y p q → old.pix p q = old'.pix p q) : old.asOf new x y = old'.asOf new x y := by
  funext p q
  unfold Image.asOf
  split
  · rfl
  · rename_i hb; exact h p q hb

/-! ### The pixels of a row -/

/-- The decoded row `y` so far: pixels 0 to n − 1 of row `y` of `b` are decoded, the row's padding is cleared, and every
other stored bit is `j`'s. -/
structure RowSoFar (j : Job) (y n : Nat) (b : Job) : Prop where
  w : b.img.w = j.img.w
  h : b.img.h = j.img.h
  refcnt : b.img.refcnt = j.img.refcnt
  ok : b.img.memOk
  ltp : b.pipe.ltp = j.pipe.ltp
  rest : ∀ p q : Nat, p < 8 * j.img.stride → (q ≠ y ∨ n ≤ p ∧ p < j.img.w) → b.img.bit p q = j.img.bit p q
  padding : ∀ p : Nat, j.img.w ≤ p → p < 8 * j.img.stride → b.img.bit p y = false

namespace RowSoFar

variable {j b : Job} {y n : Nat}

theorem stride (R : RowSoFar j y n b) : b.img.stride = j.img.stride := by unfold Image.stride; rw [R.w]

/-- Where a row starts: its padding is cleared (R174). -/
theorem start (h : j.img.memOk) (hw : 1 ≤ j.img.w) (hy : y < j.img.h) :
    RowSoFar j y 0 { j with img := j.img.clearPadding y } where
  w := rfl
  h := rfl
  refcnt := rfl
  ok := Image.memOk_clearPadding h hw hy
  ltp := rfl
  rest p q hp hpq := by rw [Image.bit_clearPadding h.1 hw y hp, if_neg (by omega)]
  padding p hp hp' := by rw [Image.bit_clearPadding h.1 hw y hp', if_pos ⟨rfl, hp⟩]

/-- One more pixel is written, whatever happened to the pipelines in between. -/
theorem put (R : RowSoFar j y n b) (hn : n < j.img.w) (hy : y < j.img.h) {b' : Job} (hi : b'.img = b.img)
    (hl : b'.pipe.ltp = b.pipe.ltp) (v : Bool) : RowSoFar j y (n + 1) (b'.put n y v) := by
  have hw := b.img.w_le_stride
  have hr : n < b.img.w ∧ y < b.img.h := by rw [R.w, R.h]; exact ⟨hn, hy⟩
  refine ⟨?_, ?_, ?_, ?_, ?_, fun p q hp hpq => ?_, fun p hp hp' => ?_⟩
  · simp [hi, R.w]
  · simp [hi, R.h]
  · simp [hi, R.refcnt]
  · rw [Job.put_img, hi]; exact Image.memOk_put R.ok _ _ _
  · rw [Job.put_pipe, hl, R.ltp]
  · rw [Job.put_img, hi, Image.bit_put R.ok.1 hr v (by rw [R.stride]; exact hp), if_neg (by omega)]
    exact R.rest p q hp (by omega)
  · rw [Job.put_img, hi, Image.bit_put R.ok.1 hr v (by rw [R.stride]; exact hp'), if_neg (by omega)]
    exact R.padding p hp hp'

/-- The pixel just written, and the pixels before it. -/
theorem pix_put (R : RowSoFar j y n b) (hn : n < j.img.w) (hy : y < j.img.h) {b' : Job} (hi : b'.img = b.img) (v : Bool)
    (p q : Int) : (b'.put n y v).img.pix p q = if p = n ∧ q = y then v else b.img.pix p q := by
  rw [Job.put_img, hi, Image.pix_put R.ok.1 ((b.img.inRange_nat n y).2 (by rw [R.w, R.h]; exact ⟨hn, hy⟩))]

/-- The same image and LTP make the same row so far. -/
theorem of_eq (R : RowSoFar j y n b) {b' : Job} (hi : b'.img = b.img) (hl : b'.pipe.ltp = b.pipe.ltp) :
    RowSoFar j y n b' :=
  ⟨by rw [hi, R.w], by rw [hi, R.h], by rw [hi, R.refcnt], hi ▸ R.ok, by rw [hl, R.ltp], fun p q hp hq => by
    rw [hi]; exact R.rest p q hp hq, fun p hp hp' => by rw [hi]; exact R.padding p hp hp'⟩

/-- The image at pixel `n`: what the row started from, with the pixels before written (R175). -/
theorem pix_eq (R : RowSoFar j y n b) : b.img.pix = j.img.asOf b.img n y := by
  funext p q
  unfold Image.asOf
  split
  · rfl
  · rename_i hb
    by_cases hin : b.img.inRange p q = true
    · have hin' := hin
      rw [Image.inRange_iff, R.w, R.h] at hin
      obtain ⟨p, rfl⟩ := Int.eq_ofNat_of_zero_le hin.1
      obtain ⟨q, rfl⟩ := Int.eq_ofNat_of_zero_le hin.2.2.1
      have := j.img.w_le_stride
      rw [Image.pix_nat (by rw [R.w, R.h]; omega), Image.pix_nat (by omega), R.rest p q (by omega) (by omega)]
    · rw [Image.pix_out (by simpa using hin),
        Image.pix_out (by unfold Image.inRange at *; rw [R.w, R.h] at hin; simpa using hin)]

end RowSoFar

/-- A request log as (context, answer) pairs, newest first. -/
abbrev Job.views (j : Job) : List (Nat × Option Bool) := j.pipe.coderLog.map CoderRequest.view

@[simp] theorem Job.views_goto (x y : Nat) (j : Job) : (j.goto x y).views = j.views := rfl

theorem Job.views_ask {cx : Nat} {j j' : Job} {v : Bool} (h : j.ask cx = .ok (v, j')) :
    j'.views = (cx, some v) :: j.views := by
  obtain ⟨-, -, -, hl⟩ := Job.ask_ok_frame h
  unfold Job.views
  rw [hl]
  rfl

theorem Job.views_fail {cx : Nat} {j j' : Job} (h : j.ask cx = .error j') : j'.views = (cx, none) :: j.views := by
  obtain ⟨-, -, -, -, hl⟩ := Job.ask_error_frame h
  unfold Job.views
  rw [hl]
  rfl

/-- The requests for the first `n` pixels of a decoded generic row that took the image from `old` to `new` (R172). -/
def genPixelLog (t : GenTemplate) (a : GenAt) (y : Nat) (old new : Image) (n : Nat) : List (Nat × Option Bool) :=
  (List.range n).map fun x : Nat => (genContextOf t a (old.asOf new x y) x y, some (new.pix x y))

theorem genPixelLog_succ (t : GenTemplate) (a : GenAt) (y : Nat) (old new : Image) (n : Nat) :
    genPixelLog t a y old new (n + 1) =
      genPixelLog t a y old new n ++ [(genContextOf t a (old.asOf new n y) n y, some (new.pix n y))] := by
  unfold genPixelLog
  simp [List.range_succ]

/-- The pixels of a generic row: its requests, and where the coder fails (R172, R176). -/
theorem genPixels_ends {t : GenTemplate} {a : GenAt} {y : Nat} {j : Job} (h : j.img.memOk) (hw : 1 ≤ j.img.w)
    (hy : y < j.img.h) :
    (∀ j', genPixels t a y j = .ok j' →
      RowSoFar j y j.img.w j' ∧ j'.views = (genPixelLog t a y j.img j'.img j.img.w).reverse ++ j.views) ∧
    (∀ j', genPixels t a y j = .error j' → ∃ n < j.img.w, RowSoFar j y n j' ∧
      j'.views = (genContextOf t a (j.img.asOf j'.img n y) n y, none)
        :: ((genPixelLog t a y j.img j'.img n).reverse ++ j.views)) := by
  refine loopE_induct
    (P := fun n b => RowSoFar j y n b ∧ b.views = (genPixelLog t a y j.img b.img n).reverse ++ j.views)
    (Q := fun j' => ∃ n < j.img.w, RowSoFar j y n j' ∧
      j'.views = (genContextOf t a (j.img.asOf j'.img n y) n y, none)
        :: ((genPixelLog t a y j.img j'.img n).reverse ++ j.views))
    j.img.w ⟨RowSoFar.start h hw hy, rfl⟩ ?_
  rintro n b hn ⟨R, hl⟩
  refine ⟨fun c hc => ?_, fun c hc => ?_⟩
  · obtain ⟨v, b', ha, rfl⟩ := genPixel_ok.1 hc
    obtain ⟨hi, hlt, -, -⟩ := Job.ask_ok_frame ha
    rw [Job.goto_img] at hi
    refine ⟨R.put hn hy hi hlt v, ?_⟩
    have hpix := R.pix_put hn hy hi v
    have hold : ∀ x : Nat, x ≤ n → j.img.asOf (b'.put n y v).img x y = j.img.asOf b.img x y := fun x hx =>
      Image.asOf_congr fun p q hpq => by rw [hpix, if_neg (by unfold before at hpq; omega)]
    have hv : (b'.put n y v).views = (genContextOf t a b.img.pix n y, some v) :: b.views :=
      Job.views_ask (j := b.goto n y) (j' := b') ha
    have hrow : genPixelLog t a y j.img (b'.put n y v).img n = genPixelLog t a y j.img b.img n := by
      refine List.map_congr_left fun x hx => ?_
      have hx := List.mem_range.1 hx
      rw [hold x (by omega), hpix, if_neg (by omega)]
    rw [hv, hl, R.pix_eq, genPixelLog_succ, hrow, hold n (Nat.le_refl n), hpix, if_pos ⟨rfl, rfl⟩]
    simp
  · have ha := genPixel_error.1 hc
    obtain ⟨hi, hlt, -⟩ := Job.ask_error_frame ha
    rw [Job.goto_img] at hi
    refine ⟨n, hn, R.of_eq hi hlt, ?_⟩
    have hv : c.views = (genContextOf t a b.img.pix n y, none) :: b.views := Job.views_fail (j := b.goto n y) ha
    rw [hv, hl, hi, R.pix_eq]

/-- What a row leaves of the image: its sizes, its canonical buffer, and every stored bit of the other rows. -/
structure RowKept (y : Nat) (j j' : Job) : Prop where
  w : j'.img.w = j.img.w
  h : j'.img.h = j.img.h
  refcnt : j'.img.refcnt = j.img.refcnt
  ok : j'.img.memOk
  rest : ∀ p q : Nat, p < 8 * j.img.stride → q ≠ y → j'.img.bit p q = j.img.bit p q

theorem RowSoFar.kept {j b : Job} {y n : Nat} (R : RowSoFar j y n b) : RowKept y j b :=
  ⟨R.w, R.h, R.refcnt, R.ok, fun p q hp hq => R.rest p q hp (.inl hq)⟩

/-- The LTP step of a row (R172, R207). -/
theorem Job.ltpStep_ok_frame {cx : Nat} {j j' : Job} (h : j.ltpStep cx = .ok j') : ∃ b : Bool, j'.img = j.img ∧
    j'.pipe.ltp = (j.pipe.ltp ^^ b) ∧ j'.views = (cx, some b) :: j.views := by
  obtain ⟨b, j₁, ha, rfl⟩ := Job.ltpStep_ok.1 h
  obtain ⟨hi, hl, -, -⟩ := Job.ask_ok_frame ha
  exact ⟨b, hi, congrArg (· ^^ b) hl, Job.views_ask (j' := j₁) ha⟩

/-- A failed LTP step is a failed request. -/
theorem Job.ltpStep_error_frame {cx : Nat} {j j' : Job} (h : j.ltpStep cx = .error j') :
    j'.img = j.img ∧ j'.views = (cx, none) :: j.views :=
  ⟨(Job.ask_error_frame (Job.ltpStep_error.1 h)).1, Job.views_fail (Job.ltpStep_error.1 h)⟩

/-- A generic row that ends well (R172 to R174). -/
theorem genRow_ok {t : GenTemplate} {tp : Bool} {a : GenAt} {y : Nat} {j : Job} (h : j.img.memOk)
    (hw : 1 ≤ j.img.w) (hy : y < j.img.h) {j' : Job} (hr : genRow t tp a y j = .ok j') :
    RowKept y j j' ∧ ∃ sltp : Bool, j'.pipe.ltp = (if tp then j.pipe.ltp ^^ sltp else j.pipe.ltp) ∧
      ((tp && j'.pipe.ltp) = true → ∀ p : Nat, p < 8 * j.img.stride →
        j'.img.bit p y = if y = 0 then false else j.img.bit p (y - 1)) ∧
      ((tp && j'.pipe.ltp) = false → ∀ p : Nat, j.img.w ≤ p → p < 8 * j.img.stride → j'.img.bit p y = false) ∧
      j'.views = ((if tp then [(t.tpCx, some sltp)] else []) ++
        (if tp && j'.pipe.ltp then [] else genPixelLog t a y j.img j'.img j.img.w)).reverse ++ j.views := by
  cases tp with
  | false =>
    obtain ⟨R, hv⟩ := (genPixels_ends (j := j.goto 0 y) h hw hy).1 j' hr
    have K := R.kept
    exact ⟨⟨K.w, K.h, K.refcnt, K.ok, K.rest⟩, false, by simpa using R.ltp, by simp, fun _ => R.padding, by simpa using hv⟩
  | true =>
    rw [genRow_tp] at hr
    cases hl : (j.goto 0 y).ltpStep t.tpCx with
    | error k => rw [hl] at hr; cases hr
    | ok k =>
      rw [hl] at hr
      obtain ⟨b, hi, hlt, hv⟩ := Job.ltpStep_ok_frame hl
      rw [Job.goto_img] at hi
      simp only at hr
      split at hr
      · rename_i hk
        cases hr
        refine ⟨⟨by simp [hi], by simp [hi], by simp [hi], ?_, fun p q hp hq => ?_⟩, b, hlt, fun _ p hp => ?_, ?_, ?_⟩
        · simp only [hi]; exact Image.memOk_copyRow h hy
        · simp only [hi]; rw [Image.bit_copyRow h.1 y hp, if_neg hq]
        · simp only [hi]; rw [Image.bit_copyRow h.1 y hp, if_pos rfl]
        · simp [hk]
        · simp only [hk, Bool.and_true, if_true, List.append_nil, List.reverse_cons, List.reverse_nil, List.nil_append]
          exact hv
      · rename_i hk
        obtain ⟨R, hv'⟩ := (genPixels_ends (j := k) (hi ▸ h) (hi ▸ hw) (hi ▸ hy)).1 j' hr
        have hkl : j'.pipe.ltp = false := by rw [R.ltp]; simpa using hk
        have K := R.kept
        refine ⟨⟨hi ▸ K.w, hi ▸ K.h, hi ▸ K.refcnt, K.ok, hi ▸ K.rest⟩, b, R.ltp.trans hlt, ?_, fun _ => hi ▸ R.padding, ?_⟩
        · simp [hkl]
        · rw [hv', hv, hi]
          simp [hkl]

/-- What a row that the coder fails at its pixel `n`, or at its SLTP request (`none`), leaves of the image: the first `n`
pixels are decoded, the padding is cleared, and every other stored bit is as it was (R176, R208). -/
structure RowFailed (y : Nat) (n : Option Nat) (j j' : Job) : Prop extends RowKept y j j' where
  lt : ∀ x ∈ n, x < j.img.w
  after : ∀ p : Nat, p < 8 * j.img.stride → (∀ x ∈ n, x ≤ p ∧ p < j.img.w) → j'.img.bit p y = j.img.bit p y
  padding : n ≠ none → ∀ p : Nat, j.img.w ≤ p → p < 8 * j.img.stride → j'.img.bit p y = false

theorem RowSoFar.failed {j b : Job} {y n : Nat} (R : RowSoFar j y n b) (hn : n < j.img.w) : RowFailed y (some n) j b where
  toRowKept := R.kept
  lt x hx := by obtain rfl := Option.mem_some.1 hx; exact hn
  after p hp hx := R.rest p y hp (.inr (hx n rfl))
  padding _ := R.padding

theorem RowFailed.sltp {y : Nat} {j j' : Job} (h : j.img.memOk) (hi : j'.img = j.img) : RowFailed y none j j' where
  w := by rw [hi]
  h := by rw [hi]
  refcnt := by rw [hi]
  ok := hi ▸ h
  rest p q _ _ := by rw [hi]
  lt x hx := nomatch hx
  after p _ _ := by rw [hi]
  padding h := absurd rfl h

/-- A generic row that the coder fails (R176). -/
theorem genRow_error {t : GenTemplate} {tp : Bool} {a : GenAt} {y : Nat} {j : Job} (h : j.img.memOk)
    (hw : 1 ≤ j.img.w) (hy : y < j.img.h) {j' : Job} (hr : genRow t tp a y j = .error j') :
    ∃ (n : Option Nat) (sltp : Bool), RowFailed y n j j' ∧ (n = none → tp = true) ∧
      (n ≠ none → (tp && (j.pipe.ltp ^^ sltp)) = false) ∧
      j'.views = (match n with
        | none => [(t.tpCx, none)]
        | some x => (if tp then [(t.tpCx, some sltp)] else []) ++ genPixelLog t a y j.img j'.img x
            ++ [(genContextOf t a (j.img.asOf j'.img x y) x y, none)]).reverse ++ j.views := by
  cases tp with
  | false =>
    obtain ⟨n, hn, R, hv⟩ := (genPixels_ends (j := j.goto 0 y) h hw hy).2 j' hr
    have F := R.failed hn
    exact ⟨some n, false, ⟨⟨F.w, F.h, F.refcnt, F.ok, F.rest⟩, F.lt, F.after, F.padding⟩, by simp, by simp, by simpa using hv⟩
  | true =>
    rw [genRow_tp] at hr
    cases hl : (j.goto 0 y).ltpStep t.tpCx with
    | error k =>
      rw [hl] at hr
      cases hr
      obtain ⟨hi, hv⟩ := Job.ltpStep_error_frame hl
      exact ⟨none, false, RowFailed.sltp h hi, by simp, by simp, hv⟩
    | ok k =>
      rw [hl] at hr
      obtain ⟨b, hi, hlt, hv⟩ := Job.ltpStep_ok_frame hl
      rw [Job.goto_img] at hi
      simp only at hr
      split at hr
      · cases hr
      · rename_i hk
        obtain ⟨n, hn, R, hv'⟩ := (genPixels_ends (j := k) (hi ▸ h) (hi ▸ hw) (hi ▸ hy)).2 j' hr
        have F := R.failed hn
        refine ⟨some n, b, ⟨⟨hi ▸ F.w, hi ▸ F.h, hi ▸ F.refcnt, F.ok, hi ▸ F.rest⟩, hi ▸ F.lt, hi ▸ F.after,
          hi ▸ F.padding⟩, by simp, fun _ => ?_, ?_⟩
        · have hkl : k.pipe.ltp = false := by simpa using hk
          have := hlt.symm.trans hkl
          simpa using this
        · rw [hv', hv, hi]; simp

end Sys2Proof.Machine
end

