-- ==== Sys2Proof/Laws/RefRows.lean ====
section
/-! SUPPORT. RefRows: what one row of a refinement decode leaves and asks, said once (43_refinement.md R207, R208). -/

namespace Sys2Proof.Machine

/-- The requests for the first `n` pixels of a refinement row that took the image from `old` to `new`, `ltp` being the row's
LTP: none for a pixel that takes an implicit value (R207). -/
def refPixelLog (t : RefTemplate) (tp ltp : Bool) (o : RefOperands) (y : Nat) (old new : Image) (n : Nat) :
    List (Nat × Option Bool) :=
  (List.range n).flatMap fun x : Nat =>
    if tp && ltp && (implicitValue o x y).isSome then []
    else [(refContextOf t o (old.asOf new x y) x y, some (new.pix x y))]

theorem refPixelLog_succ (t : RefTemplate) (tp ltp : Bool) (o : RefOperands) (y : Nat) (old new : Image) (n : Nat) :
    refPixelLog t tp ltp o y old new (n + 1) = refPixelLog t tp ltp o y old new n ++
      (if tp && ltp && (implicitValue o n y).isSome then []
       else [(refContextOf t o (old.asOf new n y) n y, some (new.pix n y))]) := by
  unfold refPixelLog
  rw [List.range_succ, List.flatMap_append, List.flatMap_singleton]

/-- The first `n` pixels of row `y` that have an implicit value in force hold it (R207). -/
def HoldsImplied (tp ltp : Bool) (o : RefOperands) (y n : Nat) (im : Image) : Prop :=
  (tp && ltp) = true → ∀ (x : Nat) (m : Bool), x < n → implicitValue o x y = some m → im.pix x y = m

/-- The pixels of a refinement row: its requests, and where the coder fails (R207, R208). -/
theorem refPixels_ends {t : RefTemplate} {tp : Bool} {o : RefOperands} {y : Nat} {j : Job} (h : j.img.memOk)
    (hw : 1 ≤ j.img.w) (hy : y < j.img.h) :
    (∀ j', refPixels t tp o y j = .ok j' → RowSoFar j y j.img.w j' ∧
      j'.views = (refPixelLog t tp j.pipe.ltp o y j.img j'.img j.img.w).reverse ++ j.views ∧
      HoldsImplied tp j.pipe.ltp o y j.img.w j'.img) ∧
    (∀ j', refPixels t tp o y j = .error j' → ∃ n < j.img.w, RowSoFar j y n j' ∧
      j'.views = (refContextOf t o (j.img.asOf j'.img n y) n y, none)
        :: ((refPixelLog t tp j.pipe.ltp o y j.img j'.img n).reverse ++ j.views) ∧
      HoldsImplied tp j.pipe.ltp o y n j'.img ∧ (tp && j.pipe.ltp && (implicitValue o n y).isSome) = false) := by
  refine loopE_induct
    (P := fun n b => RowSoFar j y n b ∧
      b.views = (refPixelLog t tp j.pipe.ltp o y j.img b.img n).reverse ++ j.views ∧
      HoldsImplied tp j.pipe.ltp o y n b.img)
    (Q := fun j' => ∃ n < j.img.w, RowSoFar j y n j' ∧
      j'.views = (refContextOf t o (j.img.asOf j'.img n y) n y, none)
        :: ((refPixelLog t tp j.pipe.ltp o y j.img j'.img n).reverse ++ j.views) ∧
      HoldsImplied tp j.pipe.ltp o y n j'.img ∧ (tp && j.pipe.ltp && (implicitValue o n y).isSome) = false)
    j.img.w ⟨RowSoFar.start h hw hy, rfl, by intro _ x m hx; omega⟩ ?_
  rintro n b hn ⟨R, hl, hI⟩
  -- One more pixel written: the log so far and the implied pixels so far are as they were.
  have old : ∀ (b' : Job) (v : Bool), b'.img = b.img →
      (∀ x : Nat, x ≤ n → j.img.asOf (b'.put n y v).img x y = j.img.asOf b.img x y) ∧
      refPixelLog t tp j.pipe.ltp o y j.img (b'.put n y v).img n = refPixelLog t tp j.pipe.ltp o y j.img b.img n := by
    intro b' v hi
    have hpix := R.pix_put hn hy hi v
    have hold : ∀ x : Nat, x ≤ n → j.img.asOf (b'.put n y v).img x y = j.img.asOf b.img x y := fun x hx =>
      Image.asOf_congr fun p q hpq => by rw [hpix, if_neg (by unfold before at hpq; omega)]
    refine ⟨hold, List.flatMap_congr fun x hx => ?_⟩
    have hx := List.mem_range.1 hx
    have hp : (b'.put n y v).img.pix x y = b.img.pix x y := by rw [hpix, if_neg (by omega)]
    rw [hold x (by omega), hp]
  have implied : ∀ (b' : Job) (v : Bool), b'.img = b.img → (∀ m, (tp && j.pipe.ltp) = true →
      implicitValue o n y = some m → v = m) → HoldsImplied tp j.pipe.ltp o y (n + 1) (b'.put n y v).img := by
    intro b' v hi hv htl x m hx hm
    rw [R.pix_put hn hy hi v]
    by_cases hxn : x = n
    · subst hxn; rw [if_pos ⟨rfl, rfl⟩]; exact hv m htl hm
    · rw [if_neg (by omega)]; exact hI htl x m (by omega) hm
  rw [refPixel_eq]
  split
  · rename_i hv0
    refine ⟨fun c hc => ?_, fun c hc => by cases hc⟩
    cases hc
    simp only [Bool.and_eq_true] at hv0
    obtain ⟨v, hv⟩ := Option.isSome_iff_exists.1 hv0.2
    have htl : (tp && j.pipe.ltp) = true := by rw [← R.ltp]; simpa using hv0.1
    rw [hv]
    simp only [Option.getD_some]
    refine ⟨R.put hn hy (b' := b.goto n y) rfl rfl v, ?_, implied (b.goto n y) v rfl fun m _ hm => ?_⟩
    · show b.views = _
      rw [refPixelLog_succ, (old (b.goto n y) v rfl).2, if_pos (by rw [htl, hv]; rfl), List.append_nil, hl]
    · rw [hv] at hm; injection hm
  · rename_i hv
    have hno : (tp && j.pipe.ltp && (implicitValue o n y).isSome) = false := by rw [← R.ltp]; simpa using hv
    refine ⟨fun c hc => ?_, fun c hc => ?_⟩
    · obtain ⟨v, b', ha, rfl⟩ := refAsk_ok.1 hc
      obtain ⟨hi, hlt, -, -⟩ := Job.ask_ok_frame ha
      rw [Job.goto_img] at hi
      have hvw : (b'.put n y v).views = (refContextOf t o b.img.pix n y, some v) :: b.views :=
        Job.views_ask (j := b.goto n y) (j' := b') ha
      refine ⟨R.put hn hy hi hlt v, ?_, implied b' v hi fun m htl hm => ?_⟩
      · rw [hvw, hl, R.pix_eq, refPixelLog_succ, (old b' v hi).2, if_neg (by simp [hno]), (old b' v hi).1 n (Nat.le_refl n),
          R.pix_put hn hy hi v, if_pos ⟨rfl, rfl⟩]
        simp
      · rw [htl, hm] at hno; cases hno
    · have ha := refAsk_error.1 hc
      obtain ⟨hi, hlt, -⟩ := Job.ask_error_frame ha
      rw [Job.goto_img] at hi
      have hvw : c.views = (refContextOf t o b.img.pix n y, none) :: b.views := Job.views_fail (j := b.goto n y) ha
      exact ⟨n, hn, R.of_eq hi hlt, by rw [hvw, hl, hi, R.pix_eq], hi ▸ hI, hno⟩

/-- A refinement row that ends well (R207, R174). -/
theorem refRow_ok {t : RefTemplate} {tp : Bool} {o : RefOperands} {y : Nat} {j : Job}
    (h : j.img.memOk) (hw : 1 ≤ j.img.w) (hy : y < j.img.h) {j' : Job} (hr : refRow t tp o y j = .ok j') :
    RowKept y j j' ∧ ∃ sltp : Bool, j'.pipe.ltp = (if tp then j.pipe.ltp ^^ sltp else j.pipe.ltp) ∧
      HoldsImplied tp j'.pipe.ltp o y j.img.w j'.img ∧
      (∀ p : Nat, j.img.w ≤ p → p < 8 * j.img.stride → j'.img.bit p y = false) ∧
      j'.views = ((if tp then [(t.tpCx, some sltp)] else []) ++
        refPixelLog t tp j'.pipe.ltp o y j.img j'.img j.img.w).reverse ++ j.views := by
  cases tp with
  | false =>
    obtain ⟨R, hv, -⟩ := (refPixels_ends (j := j.goto 0 y) h hw hy).1 j' hr
    have K := R.kept
    refine ⟨⟨K.w, K.h, K.refcnt, K.ok, K.rest⟩, false, by simpa using R.ltp, by intro h; simp at h, R.padding, ?_⟩
    rw [hv]
    have : (j.goto 0 y).pipe.ltp = j'.pipe.ltp := R.ltp.symm
    rw [this]; rfl
  | true =>
    rw [refRow_tp] at hr
    cases hl : (j.goto 0 y).ltpStep t.tpCx with
    | error k => rw [hl] at hr; cases hr
    | ok k =>
      rw [hl] at hr
      obtain ⟨b, hi, hlt, hv⟩ := Job.ltpStep_ok_frame hl
      rw [Job.goto_img] at hi
      simp only at hr
      obtain ⟨R, hv', hI⟩ := (refPixels_ends (j := k) (hi ▸ h) (hi ▸ hw) (hi ▸ hy)).1 j' hr
      have K := R.kept
      refine ⟨⟨hi ▸ K.w, hi ▸ K.h, hi ▸ K.refcnt, K.ok, hi ▸ K.rest⟩, b, R.ltp.trans hlt, ?_, hi ▸ R.padding, ?_⟩
      · rw [R.ltp]; rw [← hi]; exact hI
      · rw [hv', hv, R.ltp, hi]; simp

/-- A refinement row that the coder fails (R208). -/
theorem refRow_error {t : RefTemplate} {tp : Bool} {o : RefOperands} {y : Nat} {j : Job}
    (h : j.img.memOk) (hw : 1 ≤ j.img.w) (hy : y < j.img.h) {j' : Job} (hr : refRow t tp o y j = .error j') :
    ∃ (n : Option Nat) (sltp ltp : Bool), RowFailed y n j j' ∧ (n = none → tp = true) ∧
      (tp = true → ltp = (j.pipe.ltp ^^ sltp)) ∧
      (∀ x ∈ n, HoldsImplied tp ltp o y x j'.img ∧ (tp && ltp && (implicitValue o x y).isSome) = false) ∧
      j'.views = (match n with
        | none => [(t.tpCx, none)]
        | some x => (if tp then [(t.tpCx, some sltp)] else []) ++ refPixelLog t tp ltp o y j.img j'.img x
            ++ [(refContextOf t o (j.img.asOf j'.img x y) x y, none)]).reverse ++ j.views := by
  cases tp with
  | false =>
    obtain ⟨n, hn, R, hv, hI, hno⟩ := (refPixels_ends (j := j.goto 0 y) h hw hy).2 j' hr
    have F := R.failed hn
    refine ⟨some n, false, j.pipe.ltp, ⟨⟨F.w, F.h, F.refcnt, F.ok, F.rest⟩, F.lt, F.after, F.padding⟩, by simp, by simp,
      fun x hx => ?_, by simpa using hv⟩
    obtain rfl := Option.mem_some.1 hx
    exact ⟨hI, hno⟩
  | true =>
    rw [refRow_tp] at hr
    cases hl : (j.goto 0 y).ltpStep t.tpCx with
    | error k =>
      rw [hl] at hr
      cases hr
      obtain ⟨hi, hv⟩ := Job.ltpStep_error_frame hl
      exact ⟨none, false, _, RowFailed.sltp h hi, by simp, fun _ => rfl, fun x hx => (nomatch hx), hv⟩
    | ok k =>
      rw [hl] at hr
      obtain ⟨b, hi, hlt, hv⟩ := Job.ltpStep_ok_frame hl
      rw [Job.goto_img] at hi
      simp only at hr
      obtain ⟨n, hn, R, hv', hI, hno⟩ := (refPixels_ends (j := k) (hi ▸ h) (hi ▸ hw) (hi ▸ hy)).2 j' hr
      have F := R.failed hn
      refine ⟨some n, b, k.pipe.ltp, ⟨⟨hi ▸ F.w, hi ▸ F.h, hi ▸ F.refcnt, F.ok, hi ▸ F.rest⟩, hi ▸ F.lt, hi ▸ F.after,
        hi ▸ F.padding⟩, by simp, fun _ => hlt, fun x hx => ?_, ?_⟩
      · obtain rfl := Option.mem_some.1 hx
        exact ⟨hI, hno⟩
      · rw [hv', hv, hi]; simp

end Sys2Proof.Machine
end

