-- ==== Sys2Proof/Laws/Replay.lean ====
section
/-! SUPPORT. Replay: the requests of a decode replay from the table and the coder it starts from, and against a script the
answers are its bits (20_memory.md R67, R70, R71, 60_exceptions.md R248). -/

namespace Sys2Proof.Machine

/-! ### A replay grows by one request -/

/-- One more answered request. -/
theorem Replay.answered {l : List CoderRequest} {E E₁ E₂ : Nat → Entry} {c c₁ c₂ : CoderState} {cx : Nat} {b : Bool} {e : Entry}
    (h : Replay l E c E₁ c₁) (hl : ∀ r ∈ l, r.answer ≠ none) (hd : c₁.decode (E₁ cx) = some (b, e, c₂))
    (hE : ∀ a, E₂ a = if a = cx then e else E₁ a) : Replay (l ++ [⟨cx, E₁ cx, some b⟩]) E c E₂ c₂ := by
  induction l generalizing E c with
  | nil =>
    obtain ⟨h, rfl⟩ := h
    refine ⟨h cx, ?_⟩
    rw [hd]
    exact ⟨rfl, fun a => by rw [hE, h], rfl⟩
  | cons r l ih =>
    obtain ⟨he, h⟩ := h
    refine ⟨he, ?_⟩
    cases hr : c.decode r.entry with
    | none =>
      rw [hr] at h
      exact absurd h.1 (hl r (by simp))
    | some v =>
      rw [hr] at h
      exact ⟨h.1, ih h.2 fun x hx => hl x (by simp [hx])⟩

/-- A last request, answered FAIL. -/
theorem Replay.failed {l : List CoderRequest} {E E₁ : Nat → Entry} {c c₁ : CoderState} {cx : Nat}
    (h : Replay l E c E₁ c₁) (hl : ∀ r ∈ l, r.answer ≠ none) (hd : c₁.decode (E₁ cx) = none) :
    Replay (l ++ [⟨cx, E₁ cx, none⟩]) E c E₁ (c₁.afterFail (E₁ cx)) := by
  induction l generalizing E c with
  | nil =>
    obtain ⟨h, rfl⟩ := h
    refine ⟨h cx, ?_⟩
    rw [hd]
    exact ⟨rfl, rfl, h, rfl⟩
  | cons r l ih =>
    obtain ⟨he, h⟩ := h
    refine ⟨he, ?_⟩
    cases hr : c.decode r.entry with
    | none =>
      rw [hr] at h
      exact absurd h.1 (hl r (by simp))
    | some v =>
      rw [hr] at h
      exact ⟨h.1, ih h.2 fun x hx => hl x (by simp [hx])⟩

/-! ### What a decode keeps -/

/-- Every request made since the table was zeroed replays, and every answered one has an answer. -/
theorem jobInv_replay {n : Nat} (hn : n ≤ statsDepth) (E : Nat → Entry) (c : CoderState) (base : List CoderRequest) :
    JobInv n
      (fun j => ∃ made, j.pipe.coderLog = made ++ base ∧ Replay made.reverse E c j.pipe.stats.read j.pipe.coder ∧
        j.pipe.stats.wf ∧ ∀ r ∈ made, r.answer ≠ none)
      (fun j => ∃ made, j.pipe.coderLog = made ++ base ∧ Replay made.reverse E c j.pipe.stats.read j.pipe.coder) where
  goto _ _ h := h
  ltp _ h := h
  put _ _ _ h := h
  clear _ h := h
  copy _ h := h
  ask hc h ha := by
    obtain ⟨made, hl, hr, hw, hm⟩ := h
    have hs := (Job.ask_ok_stats ha hw (by omega)).1
    obtain ⟨p, hp, rfl⟩ := Job.ask_ok.1 ha
    obtain ⟨e, d, hd, rfl⟩ := arithDecode_ok.1 hp
    refine ⟨_ :: made, by rw [hl]; rfl, ?_, hs, fun r hr => ?_⟩
    · rw [List.reverse_cons]
      exact hr.answered (by simpa using hm) hd fun a => StatsRam.read_write hw _ _ _
    · rcases List.mem_cons.1 hr with rfl | hr
      · simp
      · exact hm r hr
  fail hc h ha := by
    obtain ⟨made, hl, hr, hw, hm⟩ := h
    obtain ⟨p, hp, rfl⟩ := Job.ask_error.1 ha
    obtain ⟨hd, rfl⟩ := arithDecode_error.1 hp
    refine ⟨_ :: made, by rw [hl]; rfl, ?_⟩
    rw [List.reverse_cons]
    exact hr.failed (by simpa using hm) hd

/-- Against a script the answers are its first bits in order, and the coder is the rest of it. -/
theorem jobInv_script (n : Nat) (bits : List Bool) (base : List CoderRequest) :
    JobInv n
      (fun j => ∃ made, j.pipe.coderLog = made ++ base ∧
        made.reverse.map CoderRequest.answer = (bits.take made.length).map some ∧ made.length ≤ bits.length ∧
        j.pipe.coder = .script (bits.drop made.length))
      (fun j => ∃ last made, j.pipe.coderLog = last :: made ++ base ∧ last.answer = none ∧
        made.reverse.map CoderRequest.answer = bits.map some ∧ j.pipe.coder = .script []) where
  goto _ _ h := h
  ltp _ h := h
  put _ _ _ h := h
  clear _ h := h
  copy _ h := h
  ask hc h ha := by
    obtain ⟨made, hl, hm, hb, hs⟩ := h
    obtain ⟨p, hp, rfl⟩ := Job.ask_ok.1 ha
    obtain ⟨e, d, hd, rfl⟩ := arithDecode_ok.1 hp
    rw [hs] at hd
    by_cases hlt : made.length < bits.length
    · rw [List.drop_eq_getElem_cons hlt] at hd
      cases hd
      refine ⟨_ :: made, by rw [hl]; rfl, ?_, hlt, rfl⟩
      rw [List.reverse_cons, List.map_append, hm, List.length_cons, List.take_succ_eq_append_getElem hlt,
        List.map_append]
      rfl
    · rw [List.drop_eq_nil_of_le (by omega)] at hd
      cases hd
  fail hc h ha := by
    obtain ⟨made, hl, hm, hb, hs⟩ := h
    obtain ⟨p, hp, rfl⟩ := Job.ask_error.1 ha
    obtain ⟨hd, rfl⟩ := arithDecode_error.1 hp
    rw [hs] at hd
    by_cases hlt : made.length < bits.length
    · rw [List.drop_eq_getElem_cons hlt] at hd
      cases hd
    · have he : made.length = bits.length := by omega
      refine ⟨_, made, by rw [hl]; rfl, rfl, by rw [hm, he, List.take_length], ?_⟩
      simp [hs, he, CoderState.afterFail]

end Sys2Proof.Machine
end

