-- ==== Sys2Proof/Laws/Runs.lean ====
section
/-! SUPPORT. Runs: what the first rows of a decode leave of the image and of the request log, said once for each decoder, and
what a row that the coder fails adds to it (42_generic.md R172 to R176, 43_refinement.md R207, R208). -/

namespace Sys2Proof.Machine

/-! ### The LTP of a row -/

theorem rowLtp_snoc {l : List Bool} {b : Bool} {y : Nat} (h : y < l.length) : rowLtp (l ++ [b]) y = rowLtp l y := by
  unfold rowLtp; rw [List.take_append_of_le_length (by omega)]

theorem rowLtp_last (l : List Bool) (b : Bool) :
    rowLtp (l ++ [b]) l.length = (l.foldl (fun a b => a ^^ b) false ^^ b) := by
  unfold rowLtp
  rw [show l.length + 1 = (l ++ [b]).length by simp, List.take_length, List.foldl_append]; rfl

theorem getD_snoc_last (l : List Bool) (b : Bool) : (l ++ [b]).getD l.length false = b := by simp

theorem getD_snoc {l : List Bool} {b : Bool} {y : Nat} (h : y < l.length) : (l ++ [b]).getD y false = l.getD y false := by
  rw [List.getD_eq_getElem?_getD, List.getD_eq_getElem?_getD, List.getElem?_append_left h]

/-! ### Rows before the current one -/

/-- A row leaves the pixels of the rows above it as they are. -/
theorem RowKept.pix_before {y : Nat} {b c : Job} (K : RowKept y b c) {p q : Int} (hq : q < y) :
    c.img.pix p q = b.img.pix p q :=
  Image.pix_congr K.w K.h (R := fun q => q < (y : Int)) (fun p q hp hq => by
    have := b.img.w_le_stride
    rw [K.w] at hp
    exact K.rest p q (by omega) (by omega)) hq

theorem RowKept.asOf_before {y : Nat} {b c : Job} (K : RowKept y b c) {q : Nat} (hq : q < y) (im : Image) (x : Nat) :
    im.asOf c.img x q = im.asOf b.img x q :=
  Image.asOf_congr fun p q' hpq => K.pix_before (by unfold before at hpq; omega)

/-- What the first `y` rows of a decode of `im` leave of the image: its sizes, its canonical buffer, and every stored bit of
the rows still to come. -/
structure RowsDone (im : Image) (y : Nat) (b : Job) : Prop where
  w : b.img.w = im.w
  h : b.img.h = im.h
  refcnt : b.img.refcnt = im.refcnt
  ok : b.img.memOk
  rest : ∀ p q : Nat, p < 8 * im.stride → y ≤ q → b.img.bit p q = im.bit p q

namespace RowsDone

variable {im : Image} {y : Nat} {b c : Job}

theorem stride (D : RowsDone im y b) : b.img.stride = im.stride := by unfold Image.stride; rw [D.w]

/-- A row done after them. -/
theorem succ (D : RowsDone im y b) (K : RowKept y b c) : RowsDone im (y + 1) c where
  w := K.w.trans D.w
  h := K.h.trans D.h
  refcnt := K.refcnt.trans D.refcnt
  ok := K.ok
  rest p q hp hq := by rw [K.rest p q (by rw [D.stride]; exact hp) (by omega)]; exact D.rest p q hp (by omega)

/-- What the current row reads is what the whole command has left so far (R175). -/
theorem asOf_row (D : RowsDone im y b) (new : Image) (x : Nat) : b.img.asOf new x y = im.asOf new x y :=
  Image.asOf_congr_old fun p q hpq => by
    refine Image.pix_congr D.w D.h (R := fun q => (y : Int) ≤ q) (fun p q hp hq => ?_) (by unfold before at hpq; omega)
    have := im.w_le_stride
    rw [D.w] at hp
    exact D.rest p q (by omega) (by omega)

end RowsDone

/-! ### The generic decoder -/

/-- What the first `y` rows of a generic decode of `im` leave, their SLTP answers being `l` and the log before them `base`
(R172 to R174). -/
structure GenSoFar (t : GenTemplate) (tp : Bool) (a : GenAt) (im : Image) (base : List (Nat × Option Bool)) (y : Nat)
    (b : Job) (l : List Bool) : Prop extends RowsDone im y b where
  len : l.length = y
  ltp : tp = true → b.pipe.ltp = l.foldl (fun a b => a ^^ b) false
  views : b.views = ((List.range y).flatMap (genRowLog t tp a im b.img l im.w)).reverse ++ base
  copied : ∀ p q : Nat, p < 8 * im.stride → q < y → (tp && rowLtp l q) = true →
    b.img.bit p q = if q = 0 then false else b.img.bit p (q - 1)
  padding : ∀ p q : Nat, im.w ≤ p → p < 8 * im.stride → q < y → (tp && rowLtp l q) = false → b.img.bit p q = false

namespace GenSoFar

variable {t : GenTemplate} {tp : Bool} {a : GenAt} {im : Image} {base : List (Nat × Option Bool)} {y : Nat} {b c : Job}
  {l : List Bool}

/-- The log of the rows done is the same after one more row. -/
theorem log_stable (G : GenSoFar t tp a im base y b l) (K : RowKept y b c) (s : Bool) :
    (List.range y).flatMap (genRowLog t tp a im c.img (l ++ [s]) im.w) =
      (List.range y).flatMap (genRowLog t tp a im b.img l im.w) := by
  refine List.flatMap_congr fun q hq => ?_
  have hq := List.mem_range.1 hq
  unfold genRowLog
  rw [getD_snoc (by rw [G.len]; exact hq), rowLtp_snoc (by rw [G.len]; exact hq)]
  congr 2
  refine List.map_congr_left fun x _ => ?_
  rw [K.asOf_before hq, K.pix_before (by omega)]

theorem rowLtp_row (G : GenSoFar t tp a im base y b l) (ht : tp = true) (s : Bool) :
    rowLtp (l ++ [s]) y = (b.pipe.ltp ^^ s) := by rw [← G.len, rowLtp_last, G.ltp ht]

/-- The log of the current row, seen from the whole command. -/
theorem row_log (G : GenSoFar t tp a im base y b l) (s : Bool) {new : Image} {n : Nat} :
    genRowLog t tp a im new (l ++ [s]) n y =
      (if tp then [(t.tpCx, some s)] else []) ++
        (if tp && (b.pipe.ltp ^^ s) then [] else genPixelLog t a y b.img new n) := by
  have hg : (l ++ [s]).getD y false = s := by rw [← G.len]; exact getD_snoc_last l s
  have hp : genPixelLog t a y b.img new n =
      (List.range n).map fun x : Nat => (genContextOf t a (im.asOf new x y) x y, some (new.pix x y)) :=
    List.map_congr_left fun x _ => by rw [G.asOf_row]
  unfold genRowLog
  rw [hg, hp]
  cases tp with
  | false => simp
  | true => rw [G.rowLtp_row rfl]

/-- One more row. -/
theorem succ (G : GenSoFar t tp a im base y b l) (hw : 1 ≤ im.w) (hy : y < im.h) (hr : genRow t tp a y b = .ok c) :
    ∃ l', GenSoFar t tp a im base (y + 1) c l' := by
  obtain ⟨K, s, hl, hcopy, hpad, hv⟩ := genRow_ok G.ok (by rw [G.w]; exact hw) (by rw [G.h]; exact hy) hr
  have hst := G.stride
  have hlast : (tp && rowLtp (l ++ [s]) y) = (tp && c.pipe.ltp) := by
    cases tp with
    | false => rfl
    | true => rw [G.rowLtp_row rfl, hl]; rfl
  refine ⟨l ++ [s], G.toRowsDone.succ K, by simp [G.len], fun ht => ?_, ?_, fun p q hp hq hlq => ?_,
    fun p q hp hp' hq hlq => ?_⟩
  · rw [hl, ht, G.ltp ht, List.foldl_append]; rfl
  · rw [List.range_succ, List.flatMap_append, List.flatMap_singleton, G.log_stable K, G.row_log, hv, G.views, G.w]
    cases tp with
    | false => simp
    | true => rw [hl]; simp
  · by_cases hqy : q = y
    · subst hqy
      rw [hcopy (by rw [← hlast]; exact hlq) p (by rw [hst]; exact hp)]
      split
      · rfl
      · rw [K.rest p _ (by rw [hst]; exact hp) (by omega)]
    · rw [rowLtp_snoc (by rw [G.len]; omega)] at hlq
      rw [K.rest p q (by rw [hst]; exact hp) hqy, G.copied p q hp (by omega) hlq]
      split
      · rfl
      · rw [K.rest p _ (by rw [hst]; exact hp) (by omega)]
  · by_cases hqy : q = y
    · subst hqy
      exact hpad (by rw [← hlast]; exact hlq) p (by rw [G.w]; exact hp) (by rw [hst]; exact hp')
    · rw [rowLtp_snoc (by rw [G.len]; omega)] at hlq
      rw [K.rest p q (by rw [hst]; exact hp') hqy]
      exact G.padding p q hp hp' (by omega) hlq

end GenSoFar

/-- What a generic decode of `im` that the coder fails leaves: in row `y` at its pixel `n`, or at its SLTP request (R176). -/
structure GenFailed (t : GenTemplate) (tp : Bool) (a : GenAt) (im : Image) (base : List (Nat × Option Bool)) (c : Job)
    (y : Nat) (n : Option Nat) (b : Job) (l : List Bool) (s : Bool) : Prop where
  views : c.views =
    ((List.range y).flatMap (genRowLog t tp a im c.img (l ++ [s]) im.w) ++
      match n with
      | none => [(t.tpCx, none)]
      | some x => genRowLog t tp a im c.img (l ++ [s]) x y ++
          [(genContextOf t a (im.asOf c.img x y) x y, none)]).reverse ++ base
  before : GenSoFar t tp a im base y b l
  row : RowFailed y n b c
  lt : y < im.h
  sltp : n = none → tp = true
  decoded : n ≠ none → (tp && rowLtp (l ++ [s]) y) = false

theorem GenSoFar.failed {t : GenTemplate} {tp : Bool} {a : GenAt} {im : Image} {base : List (Nat × Option Bool)} {y : Nat}
    {b c : Job} {l : List Bool} (G : GenSoFar t tp a im base y b l) (hw : 1 ≤ im.w) (hy : y < im.h)
    (hr : genRow t tp a y b = .error c) : ∃ n s, GenFailed t tp a im base c y n b l s := by
  obtain ⟨n, s, F, hn, hd, hv⟩ := genRow_error G.ok (by rw [G.w]; exact hw) (by rw [G.h]; exact hy) hr
  have hd' : n ≠ none → (tp && rowLtp (l ++ [s]) y) = false := fun h => by
    cases tp with
    | false => rfl
    | true => rw [G.rowLtp_row rfl]; exact hd h
  refine ⟨n, s, ?_, G, F, hy, hn, hd'⟩
  rw [hv, G.log_stable F.toRowKept, G.views]
  cases n with
  | none => simp
  | some x =>
    simp only [G.row_log, hd (by simp), Bool.false_eq_true, if_false, G.asOf_row]
    simp

/-- A generic decode (R172 to R174, R176). -/
theorem genRun_ends {t : GenTemplate} {tp : Bool} {a : GenAt} {j : Job} (hw : 1 ≤ j.img.w) (hm : j.img.memOk)
    (hl : j.pipe.ltp = false) :
    (∀ c, genRun t tp a j = .ok c → ∃ l, GenSoFar t tp a j.img j.views j.img.h c l) ∧
    (∀ c, genRun t tp a j = .error c → ∃ y n b l s, GenFailed t tp a j.img j.views c y n b l s) :=
  loopE_induct (P := fun y b => ∃ l, GenSoFar t tp a j.img j.views y b l)
    (Q := fun c => ∃ y n b l s, GenFailed t tp a j.img j.views c y n b l s) j.img.h
    ⟨[], ⟨rfl, rfl, rfl, hm, fun _ _ _ _ => rfl⟩, rfl, fun _ => hl, by simp, by intros; omega, by intros; omega⟩
    fun y b hy ⟨l, G⟩ => ⟨fun c hc => G.succ hw hy hc, fun c hc => by
      obtain ⟨n, s, F⟩ := G.failed hw hy hc
      exact ⟨y, n, b, l, s, F⟩⟩

/-! ### The refinement decoder -/

/-- What the first `y` rows of a refinement decode of `im` leave, their SLTP answers being `l` and the log before them `base`
(R207). -/
structure RefSoFar (t : RefTemplate) (tp : Bool) (o : RefOperands) (im : Image) (base : List (Nat × Option Bool)) (y : Nat)
    (b : Job) (l : List Bool) : Prop extends RowsDone im y b where
  len : l.length = y
  ltp : tp = true → b.pipe.ltp = l.foldl (fun a b => a ^^ b) false
  views : b.views = ((List.range y).flatMap (refRowLog t tp o im b.img l im.w)).reverse ++ base
  implied : ∀ (p q : Nat) (m : Bool), p < im.w → q < y → (tp && rowLtp l q) = true → implicitValue o p q = some m →
    b.img.pix p q = m
  padding : ∀ p q : Nat, im.w ≤ p → p < 8 * im.stride → q < y → b.img.bit p q = false

namespace RefSoFar

variable {t : RefTemplate} {tp : Bool} {o : RefOperands} {im : Image} {base : List (Nat × Option Bool)} {y : Nat} {b c : Job}
  {l : List Bool}

theorem log_stable (G : RefSoFar t tp o im base y b l) (K : RowKept y b c) (s : Bool) :
    (List.range y).flatMap (refRowLog t tp o im c.img (l ++ [s]) im.w) =
      (List.range y).flatMap (refRowLog t tp o im b.img l im.w) := by
  refine List.flatMap_congr fun q hq => ?_
  have hq := List.mem_range.1 hq
  unfold refRowLog Machine.implied
  rw [getD_snoc (by rw [G.len]; exact hq), rowLtp_snoc (by rw [G.len]; exact hq)]
  congr 1
  refine List.flatMap_congr fun x _ => ?_
  rw [K.asOf_before hq, K.pix_before (by omega)]

theorem rowLtp_row (G : RefSoFar t tp o im base y b l) (ht : tp = true) (s : Bool) :
    rowLtp (l ++ [s]) y = (b.pipe.ltp ^^ s) := by rw [← G.len, rowLtp_last, G.ltp ht]

/-- The log of the current row, whose LTP is `v`, seen from the whole command. -/
theorem row_log (G : RefSoFar t tp o im base y b l) {s v : Bool} (hv : tp = true → v = (b.pipe.ltp ^^ s)) {new : Image}
    {n : Nat} : refRowLog t tp o im new (l ++ [s]) n y =
      (if tp then [(t.tpCx, some s)] else []) ++ refPixelLog t tp v o y b.img new n := by
  have hg : (l ++ [s]).getD y false = s := by rw [← G.len]; exact getD_snoc_last l s
  have hl : (tp && rowLtp (l ++ [s]) y) = (tp && v) := by
    cases tp with
    | false => rfl
    | true => rw [G.rowLtp_row rfl, hv rfl]
  unfold refRowLog refPixelLog Machine.implied
  rw [hg, hl]
  congr 1
  exact List.flatMap_congr fun x _ => by rw [G.asOf_row]

/-- One more row. -/
theorem succ (G : RefSoFar t tp o im base y b l) (hw : 1 ≤ im.w) (hy : y < im.h) (hr : refRow t tp o y b = .ok c) :
    ∃ l', RefSoFar t tp o im base (y + 1) c l' := by
  obtain ⟨K, s, hl, himp, hpad, hv⟩ := refRow_ok G.ok (by rw [G.w]; exact hw) (by rw [G.h]; exact hy) hr
  have hst := G.stride
  have hv' : tp = true → c.pipe.ltp = (b.pipe.ltp ^^ s) := fun ht => by rw [hl, ht]; rfl
  refine ⟨l ++ [s], G.toRowsDone.succ K, by simp [G.len], fun ht => ?_, ?_, fun p q m hp hq hlq hm => ?_,
    fun p q hp hp' hq => ?_⟩
  · rw [hl, ht, G.ltp ht, List.foldl_append]; rfl
  · rw [List.range_succ, List.flatMap_append, List.flatMap_singleton, G.log_stable K, G.row_log hv', hv, G.views, G.w]
    simp
  · by_cases hqy : q = y
    · subst hqy
      refine himp ?_ p m (by rw [G.w]; exact hp) hm
      simp only [Bool.and_eq_true] at hlq ⊢
      exact ⟨hlq.1, by rw [hv' hlq.1, ← G.rowLtp_row hlq.1]; exact hlq.2⟩
    · rw [rowLtp_snoc (by rw [G.len]; omega)] at hlq
      rw [K.pix_before (by omega)]
      exact G.implied p q m hp (by omega) hlq hm
  · by_cases hqy : q = y
    · subst hqy
      exact hpad p (by rw [G.w]; exact hp) (by rw [hst]; exact hp')
    · rw [K.rest p q (by rw [hst]; exact hp') hqy]
      exact G.padding p q hp hp' (by omega)

end RefSoFar

/-- What a refinement decode of `im` that the coder fails leaves: in row `y` at its pixel `n`, or at its SLTP request
(R208). -/
structure RefFailed (t : RefTemplate) (tp : Bool) (o : RefOperands) (im : Image) (base : List (Nat × Option Bool)) (c : Job)
    (y : Nat) (n : Option Nat) (b : Job) (l : List Bool) (s : Bool) : Prop where
  views : c.views =
    ((List.range y).flatMap (refRowLog t tp o im c.img (l ++ [s]) im.w) ++
      match n with
      | none => [(t.tpCx, none)]
      | some x => refRowLog t tp o im c.img (l ++ [s]) x y ++
          [(refContextOf t o (im.asOf c.img x y) x y, none)]).reverse ++ base
  before : RefSoFar t tp o im base y b l
  row : RowFailed y n b c
  lt : y < im.h
  sltp : n = none → tp = true
  asked : ∀ x ∈ n, implied tp o (l ++ [s]) x y = false
  held : ∀ x ∈ n, ∀ (p : Nat) (m : Bool), p < x → implied tp o (l ++ [s]) p y = true → implicitValue o p y = some m →
    c.img.pix p y = m

theorem RefSoFar.failed {t : RefTemplate} {tp : Bool} {o : RefOperands} {im : Image} {base : List (Nat × Option Bool)}
    {y : Nat} {b c : Job} {l : List Bool} (G : RefSoFar t tp o im base y b l) (hw : 1 ≤ im.w) (hy : y < im.h)
    (hr : refRow t tp o y b = .error c) : ∃ n s, RefFailed t tp o im base c y n b l s := by
  obtain ⟨n, s, v, F, hn, hv, hx, hlog⟩ := refRow_error G.ok (by rw [G.w]; exact hw) (by rw [G.h]; exact hy) hr
  have hl : (tp && rowLtp (l ++ [s]) y) = (tp && v) := by
    cases tp with
    | false => rfl
    | true => rw [G.rowLtp_row rfl, hv rfl]
  refine ⟨n, s, ?_, G, F, hy, hn, fun x h => ?_, fun x h p m hp hi hm => ?_⟩
  · rw [hlog, G.log_stable F.toRowKept, G.views]
    cases n with
    | none => simp
    | some x =>
      simp only [G.row_log hv, G.asOf_row]
      simp
  · unfold Machine.implied; rw [hl]; exact (hx x h).2
  · refine (hx x h).1 ?_ p m hp hm
    unfold Machine.implied at hi
    rw [hl] at hi
    simp only [Bool.and_eq_true] at hi ⊢
    exact hi.1

/-- A refinement decode (R207, R208). -/
theorem refRun_ends {t : RefTemplate} {tp : Bool} {o : RefOperands} {j : Job} (hw : 1 ≤ j.img.w) (hm : j.img.memOk)
    (hl : j.pipe.ltp = false) :
    (∀ c, refRun t tp o j = .ok c → ∃ l, RefSoFar t tp o j.img j.views j.img.h c l) ∧
    (∀ c, refRun t tp o j = .error c → ∃ y n b l s, RefFailed t tp o j.img j.views c y n b l s) :=
  loopE_induct (P := fun y b => ∃ l, RefSoFar t tp o j.img j.views y b l)
    (Q := fun c => ∃ y n b l s, RefFailed t tp o j.img j.views c y n b l s) j.img.h
    ⟨[], ⟨rfl, rfl, rfl, hm, fun _ _ _ _ => rfl⟩, rfl, fun _ => hl, by simp, by intros; omega, by intros; omega⟩
    fun y b hy ⟨l, G⟩ => ⟨fun c hc => G.succ hw hy hc, fun c hc => by
      obtain ⟨n, s, F⟩ := G.failed hw hy hc
      exact ⟨y, n, b, l, s, F⟩⟩

end Sys2Proof.Machine
end

