-- ==== Sys2Proof/Laws/Script.lean ====
section
/-! SUPPORT. Script: the decode commands by template, the DOS guard as arithmetic, and a decode against a scripted coder. -/

namespace Sys2Proof.Machine

theorem exec_genInstr (t : GenTemplate) (tp mmr : Bool) (s : State) :
    exec (genInstr t tp mmr) s = .next (genDecode t tp mmr s) := by cases t <;> rfl

theorem exec_refInstr (t : RefTemplate) (tp : Bool) (s : State) : exec (refInstr t tp) s = .next (refDecode t tp s) := by
  cases t <;> rfl

theorem exec_composeInstr (op : ComposeOp) (s : State) : exec (composeInstr op) s = .next (compose op s) := by
  cases op <;> rfl

/-- The DOS guard (R161). -/
theorem dosReject_iff {w h dlen : Nat} :
    dosReject w h dlen = true ↔ (w + 7) / 8 * h > 2 ^ 24 ∧ dlen < (w + 7) / 8 * h / 256 := by simp [dosReject]

/-- A scripted coder answers its next bit (95_test_vectors.md §2). -/
theorem Job.ask_script {j : Job} {cx : Nat} {b : Bool} {bs : List Bool} (h : j.pipe.coder = .script (b :: bs)) :
    ∃ j', j.ask cx = .ok (b, j') ∧ j'.pipe.coder = .script bs ∧ j'.img = j.img ∧ j'.pipe.ltp = j.pipe.ltp ∧
      j'.views = (cx, some b) :: j.views := by
  refine ⟨_, Job.ask_ok.2 ⟨_, arithDecode_ok.2 ⟨j.pipe.stats.read cx, .script bs, ?_, rfl⟩, rfl⟩, rfl, rfl, rfl, rfl⟩
  rw [h]
  rfl

/-- A loop that asks for every pixel of row `y`, against a script: the image and the requests depend on the script and the image
it started from alone, not on the rest of the pipelines. -/
theorem pixelLoop_script (f : Nat → Job → Except Job Job) (y : Nat) (ctx : Image → Nat → Nat)
    (hf : ∀ (n : Nat) (b c : Job), f n b = .ok c ↔
      ∃ v b', (b.goto n y).ask (ctx b.img n) = .ok (v, b') ∧ c = b'.put n y v)
    (n : Nat) (im : Image) (r : List Bool) (hn : n ≤ r.length) :
    ∃ (im' : Image) (chunk : List (Nat × Option Bool)), chunk.length = n ∧ im'.w = im.w ∧ im'.h = im.h ∧
      ∀ (p : Pipeline) (rest : List Bool), p.coder = .script (r ++ rest) →
        ∃ p', loopE n f ⟨im, p⟩ = .ok ⟨im', p'⟩ ∧ p'.ltp = p.ltp ∧ p'.coder = .script (r.drop n ++ rest) ∧
          p'.coderLog.map CoderRequest.view = chunk.reverse ++ p.coderLog.map CoderRequest.view := by
  induction n with
  | zero => exact ⟨im, [], rfl, rfl, rfl, fun p rest hp => ⟨p, rfl, rfl, hp, rfl⟩⟩
  | succ n ih =>
    obtain ⟨im', chunk, hlen, hw, hh, hrun⟩ := ih (by omega)
    have hd : r.drop n = r[n] :: r.drop (n + 1) := (List.cons_getElem_drop_succ (h := by omega)).symm
    refine ⟨im'.put n y r[n], chunk ++ [(ctx im' n, some r[n])], by simp [hlen], by simp [hw], by simp [hh],
      fun p rest hp => ?_⟩
    obtain ⟨p', h1, h2, h3, h4⟩ := hrun p rest hp
    rw [hd] at h3
    obtain ⟨j', ha, hc, hi, hl, hv⟩ := Job.ask_script (j := (Job.mk im' p').goto n y) (cx := ctx im' n) h3
    refine ⟨j'.pipe, ?_, hl.trans h2, hc, ?_⟩
    · rw [loopE_succ_of_ok h1, (hf n ⟨im', p'⟩ (j'.put n y r[n])).2 ⟨_, _, ha, rfl⟩]
      congr 1
      show Job.mk (j'.img.put n y r[n]) j'.pipe = _
      rw [hi]
      rfl
    · have : j'.pipe.coderLog.map CoderRequest.view =
        (ctx im' n, some r[n]) :: p'.coderLog.map CoderRequest.view := hv
      rw [this, h4]
      simp

end Sys2Proof.Machine
end

