-- ==== Sys2Proof/Tests/Slice0.lean ====
section
/-! SUPPORT. Tests: the worked vectors of 95_test_vectors.md, each one step on a small state; the ill-formed terms; and for
every statement with premises a concrete state that meets them. -/

namespace Sys2Proof.Tests

open Sys2Proof.Machine

-- One theorem at a time: each thread Lean starts reserves its whole stack.
set_option Elab.async false

/-! ### Helpers -/

/-- A W × H image with one reference and the bytes given. -/
def img (w h : Nat) (bytes : List Nat) : Image :=
  { w := w, h := h, refcnt := 1,
    mem := (bytes.zipIdx.map fun c => (c.2, BitVec.ofNat 8 c.1)).filter fun c => c.2 != 0 }

/-- A signed value in a register. -/
def I (x : Int) : Word := BitVec.ofInt 32 x

/-- The block after reset with N_HANDLES = 3, BUF_CAPACITY = 64 and REG_BASE = 0x1000, the given images in slots 1, 2, ..., and
a scripted coder. -/
def block (images : List Image) (bits : List Nat := []) : State :=
  { State.resetWith 3 ⟨64, 0x1000⟩ (Pipeline.reset 0 (.script (bits.map (· == 1))) []) [] [] with
    descs := (images.map some ++ List.replicate 3 none).take 3 }

/-- The state one step after the command word `w` is accepted. -/
def run (w : Nat) (s : State) : State :=
  match step (s.withFetchWord 32 w) with
  | .next t => t
  | _ => s

/-- The bytes of the image in slot `h`. -/
def bytes (s : State) (h : Word) : List Nat :=
  match s.image? h with
  | none => []
  | some im => (List.range im.size).map fun off => (im.mem.read off).toNat

/-- STATUS and RESULT, as a host reads them. -/
def ends (s : State) : Nat × Nat := (s.status.word.toNat, s.result.toNat)

/-- The request log, oldest first, as 95_test_vectors.md writes it; FAIL is 2. -/
def log (s : State) : List (Nat × Nat) :=
  s.pipe.coderLog.reverse.map fun r => (r.cx, match r.answer with | some b => b.toNat | none => 2)

/-- A state with HA, AX and AY written. -/
def at3 (h : Nat) (x y : Int) (s : State) : State := { s with ha := BitVec.ofNat 32 h, ax := I x, ay := I y }

/-- The nominal AT offsets of a generic decode with HA = 1 (42_generic.md R169). -/
def nominal (t : GenTemplate) (s : State) : State :=
  match t with
  | .t0 => { s with ha := 1, gbatLo := 0xFFFDFF03, gbatHi := 0xFEFEFE02 }
  | .t1 => { s with ha := 1, gbatLo := 0x0000FF03, gbatHi := 0 }
  | .t2 | .t3 => { s with ha := 1, gbatLo := 0x0000FF02, gbatHi := 0 }

/-- The operands of a refinement decode of image 1 against image 2 with nominal AT offsets. -/
def against (dx dy : Int) (s : State) : State :=
  { s with ha := 1, hb := 2, dx := I dx, dy := I dy, grat := 0xFFFFFFFF }

/-! ### WellFormed: the ill-formed terms are refused -/

theorem test_wf_refuses_mmr : ∀ tp : Bool, (Instr.genDecodeT0 tp true).wf = false ∧ (Instr.genDecodeT1 tp true).wf = false ∧
    (Instr.genDecodeT2 tp true).wf = false ∧ (Instr.genDecodeT3 tp true).wf = false := by decide

/-! ### Decode: words written out from the fields of 30_encoding.md R81 -/

/-- RSV, CLRV, COP, MMR, TP, TMPL, OPC. -/
theorem test_decode_control : decode 0b0000000000000000_0_000_0_0_00_00000000 = .ok .nop ∧
    decode 0b0000000000000000_0_000_0_0_00_00111111 = .ok .clrst := by decide +kernel

theorem test_decode_bitmap : decode 0b0000000000000000_0_000_0_0_00_00000101 = .ok .imgSet ∧
    decode 0b0000000000000000_1_000_0_0_00_00000110 = .ok (.imgClear true) := by decide +kernel

theorem test_decode_compose : decode 0b0000000000000000_0_011_0_0_00_00010000 = .ok .composeXnor := by decide +kernel

theorem test_decode_generic : decode 0b0000000000000000_0_000_0_1_10_00100001 = .ok (.genDecodeT2 true false) := by
  decide +kernel

theorem test_decode_refinement : decode 0b0000000000000000_0_000_0_1_01_00100010 = .ok (.refDecodeT1 true) := by
  decide +kernel

/-- V-E1 to V-E7 and V-E11: STATUS after a rejected word. -/
theorem test_rejected_words : [0x00010000, 0x0000000A, 0x00005010, 0x00000222, 0x00000821, 0x00010821, 0x00000F21, 0x00007010].map
    (fun w => ends (run w (block []))) =
    [(0x00020706, 0), (0x00010706, 0), (0x00070206, 0), (0x00040206, 0), (0x00020206, 0), (0x00020706, 0), (0x00020206, 0),
      (0x00070206, 0)] := by decide +kernel

/-! ### Control -/

/-- V-E10, and V-S2: FATAL stays set. -/
theorem test_nop : ends (run 0xFF00 (block [])) = (0x2, 0) ∧ ends (run 0 (run 0xA (block []))) = (0x6, 0) := by
  decide +kernel

/-- V-S1. -/
theorem test_clrst : ends (run 0x3F (run 0xA (block []))) = (0x2, 0) := by decide +kernel

/-! ### The bitmap unit -/

/-- V-B1, V-E9. -/
theorem test_imgNew : ends (run 0x1 (at3 0 17 3 (block []))) = (0x2, 1) ∧
    bytes (run 0x1 (at3 0 17 3 (block []))) 1 = [0, 0, 0, 0, 0, 0, 0, 0, 0] ∧
    ends (run 0x8001 (at3 0 4 2 (block []))) = (0x2, 1) := by decide +kernel

/-- V-B2, V-B3, V-B15, V-B16, and V-B17 in a block of 64 bytes. -/
theorem test_imgNew_fails : ends (run 0x1 (at3 0 0 3 (block []))) = (0x00010106, 0) ∧
    ends (run 0x1 (at3 0 2147483640 9 (block []))) = (0x00020106, 0) ∧
    ends (run 0x1 (at3 0 1 1 (block [img 1 1 [], img 1 1 [], img 1 1 []]))) = (0x00030106, 0) ∧
    ends (run 0x1 (at3 0 8 64 (block []))) = (0x00040106, 0) := by decide +kernel

/-- V-B11. -/
theorem test_imgClone : ends (run 0x2 (at3 1 0 0 (block [img 17 3 []]))) = (0x2, 1) ∧
    ((run 0x2 (at3 1 0 0 (block [img 17 3 []]))).image? 1).map (·.refcnt) = some 2 := by decide +kernel

/-- V-B11. -/
theorem test_imgRelease : ends (run 0x3 (at3 1 0 0 (block [{ img 17 3 [] with refcnt := 2 }]))) = (0x2, 1) ∧
    ends (run 0x3 (at3 1 0 0 (block [img 17 3 []]))) = (0x2, 0) ∧
    (run 0x3 (at3 1 0 0 (block [img 17 3 []]))).image? 1 = none ∧
    ends (run 0x3 (at3 1 0 0 (block []))) = (0x00050206, 0) := by decide +kernel

/-- V-B4, V-B5. -/
theorem test_imgGet : [(9, 1), (-1, 0), (17, 0), (0, 3), (23, 0), (0, -1)].map
    (fun p : Int × Int => ends (run 0x4 (at3 1 p.1 p.2 (block [img 17 3 [0, 0, 0, 0, 0x40, 0, 0, 0, 0]])))) =
    [(0x2, 1), (0x2, 0), (0x2, 0), (0x2, 0), (0x2, 0), (0x2, 0)] := by decide +kernel

/-- V-B4, V-B7. -/
theorem test_imgSet : bytes (run 0x5 { at3 1 9 1 (block [img 17 3 []]) with av := 1 }) 1 = [0, 0, 0, 0, 0x40, 0, 0, 0, 0] ∧
    ends (run 0x5 { at3 1 9 1 (block [img 17 3 []]) with av := 1 }) = (0x2, 0) ∧
    ends (run 0x5 { at3 1 17 0 (block [img 17 3 []]) with av := 1 }) = (0x0502, 1) := by decide +kernel

/-- V-B6. -/
theorem test_imgClear : bytes (run 0x8006 (at3 1 0 0 (block [img 17 3 []]))) 1 = List.replicate 9 0xFF ∧
    bytes (run 0x6 (at3 1 0 0 (block [img 17 3 [1, 2, 3]]))) 1 = List.replicate 9 0 := by decide +kernel

/-- V-B12 to V-B14. -/
theorem test_imgResize :
    bytes (run 0x7 (at3 1 17 5 (block [img 17 3 [0, 0, 0, 0, 0x40]]))) 1 = [0, 0, 0, 0, 0x40, 0, 0, 0, 0, 0, 0, 0, 0, 0, 0] ∧
    bytes (run 0x7 (at3 1 17 1 (block [img 17 3 [1, 0, 0, 0, 0x40]]))) 1 = [1, 0, 0] ∧
    ends (run 0x7 (at3 1 16 3 (block [img 17 3 []]))) = (0x00030206, 0) := by decide +kernel

/-- V-B8, V-B10. -/
theorem test_imgReadb : [2, 9, -1].map (fun x : Int => ends (run 0x8 (at3 1 x 0 (block [img 17 3 [0, 0, 0xFF]])))) =
    [(0x2, 0xFF), (0x2, 0), (0x2, 0)] := by decide +kernel

/-- V-B9, V-B10. -/
theorem test_imgWriteb :
    bytes (run 0x9 { at3 1 2 0 (block [img 17 3 []]) with av := 0x1FF }) 1 = [0, 0, 0xFF, 0, 0, 0, 0, 0, 0] ∧
    ends (run 0x9 { at3 1 9 0 (block [img 17 3 []]) with av := 0x55 }) = (0x0502, 1) := by decide +kernel

/-! ### The compositors: D = 10 × 2 and S = 4 × 2 of 95_test_vectors.md §3.3 -/

/-- D as image 1, S as image 2, at the offset (x, y). -/
def placed (x y : Int) : State :=
  { at3 1 x y (block [img 10 2 [0xCC, 0xC0, 0x55, 0x40], img 4 2 [0xA0, 0x60]]) with hb := 2 }

/-- V-C1, V-C1b. -/
theorem test_composeOr : bytes (run 0x10 (placed 3 0)) 1 = [0xDC, 0xC0, 0x5D, 0x40] ∧
    bytes (run 0x10 (placed 7 0)) 1 = [0xCD, 0xC0, 0x55, 0xC0] := by decide +kernel

/-- V-C2, V-C2b. -/
theorem test_composeAnd : bytes (run 0x1010 (placed 3 0)) 1 = [0xC4, 0xC0, 0x45, 0x40] ∧
    bytes (run 0x1010 (placed 7 0)) 1 = [0xCC, 0x40, 0x54, 0x40] := by decide +kernel

/-- V-C3, V-C3b, V-C3c. -/
theorem test_composeXor : bytes (run 0x2010 (placed 3 0)) 1 = [0xD8, 0xC0, 0x59, 0x40] ∧
    bytes (run 0x2010 (placed 7 0)) 1 = [0xCD, 0x80, 0x55, 0x80] ∧
    bytes (run 0x2010 (placed (-1) 1)) 1 = [0xCC, 0xC0, 0x15, 0x40] := by decide +kernel

/-- V-C4, V-C4b. -/
theorem test_composeXnor : bytes (run 0x3010 (placed 3 0)) 1 = [0xC6, 0xC0, 0x47, 0x40] ∧
    bytes (run 0x3010 (placed 7 0)) 1 = [0xCC, 0x40, 0x54, 0x40] := by decide +kernel

/-- V-C5, V-C5b. -/
theorem test_composeReplace : bytes (run 0x4010 (placed 3 0)) 1 = [0xD4, 0xC0, 0x4D, 0x40] ∧
    bytes (run 0x4010 (placed 7 0)) 1 = [0xCD, 0x40, 0x54, 0xC0] := by decide +kernel

/-- V-C8, V-C10. -/
theorem test_compose_nothing_lands : [(10, 0), (-4, 0), (0, 2), (0, -2)].all
    (fun p : Int × Int => bytes (run 0x4010 (placed p.1 p.2)) 1 == [0xCC, 0xC0, 0x55, 0x40]) ∧
    ends (run 0x10 { placed 0 0 with hb := 1 }) = (0x00060206, 0) := by decide +kernel

/-! ### The DOS guard -/

/-- V-D1 to V-D5. -/
theorem test_genPrecheck : [(32768, 4097, 65551), (32768, 4097, 65552), (32768, 4096, 0), (32761, 4097, 0), (0, 5, 0)].map
    (fun p : Int × Int × Nat => ends (run 0x20 { at3 0 p.1 p.2.1 (block []) with dlen := BitVec.ofNat 32 p.2.2 })) =
    [(0x00010206, 0), (0x2, 0), (0x2, 0), (0x00010206, 0), (0x00090206, 0)] := by decide +kernel

/-! ### The generic decoder -/

/-- V-G1, V-G9: the end bytes and the request log. -/
theorem test_genDecodeT0 : let s := run 0x21 (nominal .t0 (block [img 4 2 []] [1, 0, 1, 1, 0, 1, 1, 0]))
    ends s = (0x2, 0) ∧ bytes s 1 = [0xB0, 0x60] ∧
    log s = [(0, 1), (1, 0), (2, 1), (5, 1), (0xB0, 0), (0x160, 1), (0x2C1, 1), (0x583, 0)] := by decide +kernel

/-- V-G7: row 0 is a copy, and the second row fails. -/
theorem test_genDecodeT0_tp : let s := run 0x421 (nominal .t0 (block [img 3 2 []] [1, 1, 1]))
    ends s = (0x0306, 0) ∧ bytes s 1 = [0x00, 0x80] ∧ log s = [(0x9B25, 1), (0x9B25, 1), (0, 1), (1, 2)] := by
  decide +kernel

/-- V-G2; and, by hand from R165 and R175, AT pixel 1 at (0, 0), which reads the old value of the pixel itself into bit 3. -/
theorem test_genDecodeT1 : (let s := run 0x121 (nominal .t1 (block [img 4 2 []] [1, 0, 1, 1, 0, 1, 1, 0]))
    bytes s 1 = [0xB0, 0x60] ∧
    log s = [(0, 1), (1, 0), (2, 1), (5, 1), (0x58, 0), (0xB0, 1), (0x161, 1), (0xC3, 0)]) ∧
    log (run 0x121 (at3 1 0 0 (block [img 2 1 [0xC0]] [0, 1]))) = [(8, 0), (8, 1)] := by decide +kernel

/-- V-G8. -/
theorem test_genDecodeT1_tp : let s := run 0x521 (nominal .t1 (block [img 4 3 []] [1, 1, 1, 1, 0, 1, 0, 0, 1, 1, 0]))
    bytes s 1 = [0x00, 0xD0, 0x60] ∧
    log s = [(0x795, 1), (0x795, 1), (0, 1), (1, 1), (3, 0), (6, 1), (0x795, 0), (0x68, 0), (0xD0, 1), (0x1A1, 1), (0x143, 0)] := by
  decide +kernel

/-- V-G3. -/
theorem test_genDecodeT2 : let s := run 0x221 (nominal .t2 (block [img 4 2 []] [1, 0, 1, 1, 0, 1, 1, 0]))
    bytes s 1 = [0xB0, 0x60] ∧
    log s = [(0, 1), (1, 0), (2, 1), (1, 1), (0x14, 0), (0x2C, 1), (0x59, 1), (0x33, 0)] := by decide +kernel

/-- V-G6. -/
theorem test_genDecodeT2_tp :
    let s := run 0x621 (nominal .t2 (block [img 5 3 []] [0, 1, 0, 0, 1, 1, 1, 1, 0, 1, 1, 1, 0]))
    bytes s 1 = [0x98, 0x98, 0x70] ∧
    log s = [(0xE5, 0), (0, 1), (1, 0), (2, 0), (0, 1), (1, 1), (0xE5, 1), (0xE5, 1), (0x110, 0), (0x224, 1), (0xCD, 1),
      (0x19B, 1), (0x333, 0)] := by decide +kernel

/-- V-G4. -/
theorem test_genDecodeT3 : let s := run 0x321 (nominal .t3 (block [img 4 2 []] [1, 0, 1, 1, 0, 1, 1, 0]))
    bytes s 1 = [0xB0, 0x60] ∧
    log s = [(0, 1), (1, 0), (2, 1), (5, 1), (0x50, 0), (0xB0, 1), (0x161, 1), (0x2C3, 0)] := by decide +kernel

/-- V-G5: the coder runs out, and what was decoded stays. -/
theorem test_genDecodeT3_fails : let s := run 0x321 (nominal .t3 (block [img 4 2 []] [1, 1, 0, 1, 0]))
    ends s = (0x0306, 0) ∧ bytes s 1 = [0xD0, 0x00] ∧ log s = [(0, 1), (1, 1), (3, 0), (6, 1), (0x60, 0), (0xD0, 2)] := by
  decide +kernel

/-- R283: V-G5 again, by a coder with bits to spare that the host disturbs once it has answered five requests: into one that
fails, and into one that answers 0. -/
theorem test_disturbed_coder :
    (let s := run 0x321 { nominal .t3 (block [img 4 2 []]) with
        pipe := Pipeline.reset 0 (.disturbed 5 (.script [true, true, false, true, false, true, true, true]) (.script [])) [] }
    ends s = (0x0306, 0) ∧ bytes s 1 = [0xD0, 0x00] ∧ (log s).map (·.2) = [1, 1, 0, 1, 0, 2]) ∧
    (let s := run 0x321 { nominal .t3 (block [img 4 2 []]) with
        pipe := Pipeline.reset 0 (.disturbed 5 (.script [true, true, false, true, false, true, true, true])
          (.script [false, false, false])) [] }
    ends s = (0x2, 0) ∧ bytes s 1 = [0xD0, 0x00] ∧ (log s).map (·.2) = [1, 1, 0, 1, 0, 0, 0, 0]) := by decide +kernel

/-! ### The refinement decoder -/

/-- V-R1. -/
theorem test_refDecodeT0 :
    let s := run 0x22 (against 1 0 (block [img 3 2 [], img 4 4 [0, 0x60, 0x60, 0]] [1, 0, 1, 0, 1, 1]))
    ends s = (0x2, 0) ∧ bytes s 1 = [0xA0, 0x60] ∧ log s = [(0, 1), (0x11, 0), (0x30, 1), (4, 0), (0x9A, 1), (0x1B5, 1)] := by
  decide +kernel

/-- V-R5: every pixel is implicit. -/
theorem test_refDecodeT0_tp : let s := run 0x422 (against 0 0 (block [img 6 2 [], img 6 2 []] [1, 0]))
    bytes s 1 = [0, 0] ∧ log s = [(0x100, 1), (0x100, 0)] := by decide +kernel

/-- V-R2. -/
theorem test_refDecodeT1 :
    let s := run 0x122 (against 0 0 (block [img 4 4 [], img 4 4 [0, 0x60, 0x60, 0]] (List.replicate 16 1)))
    bytes s 1 = [0xF0, 0xF0, 0xF0, 0xF0] ∧ (log s).map (·.1) = [0x10, 0x31, 0x21, 0x1, 0x56, 0xFF, 0x1AF, 0x10D, 0x46, 0x2CF,
      0x38F, 0x10D, 0x6, 0x20F, 0x20F, 0xD] := by decide +kernel

/-- V-R6. -/
theorem test_refDecodeT1_tp :
    let s := run 0x522 (against 0 0 (block [img 6 3 [], img 6 3 [0xE0, 0xE0, 0xE0]]
      [1, 1, 0, 1, 0, 0, 1, 0, 0, 1, 0, 0, 0, 1, 1]))
    ends s = (0x0306, 0) ∧ bytes s 1 = [0xA0, 0xC0, 0x18] ∧
    log s = [(0x40, 1), (0xF0, 1), (0x1F1, 0), (0x1A0, 1), (0x101, 0), (0x40, 0), (0x2F4, 1), (0x3A5, 0), (0x108, 0), (0x40, 1),
      (0x2C6, 0), (0x3CC, 0), (0x388, 0), (0x100, 1), (1, 1), (1, 2)] := by decide +kernel

/-! ### The register window -/

/-- V-S5, V-S6, V-S7. -/
theorem test_registers :
    ({ block [] with status := { busy := false, done := true, fatal := true, overrun := true, err := 7, sub := 2 } } : State).busRead
      4 = 0x0002070E ∧
    (({ block [] with
        status := { busy := false, done := true, fatal := true, overrun := true, err := 7, sub := 2 } } : State).busWrite 4
      0xFFFFFFFF).busRead 4 = 0x00020700 ∧
    (block []).busRead 0x3C = 0x4A425244 ∧ (block []).busRead 0x40 = 0 ∧ (block []).busRead 0xFC = 0 := by decide +kernel

/-- V-S3, V-S4. -/
theorem test_irq : (run 0 { block [] with irqEn := true }).irq = true ∧
    ((run 0 { block [] with irqEn := true }).busWrite 4 2).irq = false ∧
    ((run 0 { block [] with irqEn := true }).busWrite 8 0).irq = false := by decide +kernel

/-! ### Witnesses: for every statement with premises, concrete values that meet them, clause by clause -/

/-- `s` with the command word `w` accepted. -/
def busy (w : Nat) (s : State := block []) : State := s.withFetchWord 32 w

/-- `s` with one host action pending. -/
def withOp (op : HostOp) (early : Bool) (s : State) : State := { s with host := [⟨op, early⟩] }

theorem witness_EncodedInstructionsDecodeBack :
    (Instr.imgClear true).wf = true ∧ (Instr.genDecodeT3 true false).wf = true ∧ (Instr.refDecodeT1 true).wf = true := by decide

/-- Every clause, at the words where two of them meet. -/
theorem witness_RejectedCommandWordReportsItsError :
    let known := [0x00, 0x01, 0x02, 0x03, 0x04, 0x05, 0x06, 0x07, 0x08, 0x09, 0x10, 0x20, 0x21, 0x22, 0x3F]
    (∀ w ∈ [0x00010000, 0xFFFF0821, 0xA, 0x3E, 0x40, 0x5010, 0x7010, 0x0222, 0x0322, 0x0821, 0x0F21, 0x4010, 0x0122, 0x0721],
      (busy w).hostTurn = none ∧ (busy w).latched = some (BitVec.ofNat 32 w)) ∧
    (∀ v ∈ [0x00010000, 0xFFFF0821], v / 0x10000 ≠ 0) ∧
    (∀ v ∈ [0xA, 0x3E, 0x40], v / 0x10000 = 0 ∧ v % 0x100 ∉ known) ∧
    (∀ v ∈ [0x5010, 0x7010], v / 0x10000 = 0 ∧ v % 0x100 = 0x10 ∧ 4 < v / 0x1000 % 8) ∧
    (∀ v ∈ [0x0222, 0x0322], v / 0x10000 = 0 ∧ v % 0x100 = 0x22 ∧ 1 < v / 0x100 % 4) ∧
    (∀ v ∈ [0x0821, 0x0F21], v / 0x10000 = 0 ∧ v % 0x100 = 0x21 ∧ v / 0x800 % 2 = 1) ∧
    (∀ v ∈ [0x4010, 0x0122, 0x0721], v / 0x10000 = 0 ∧ v % 0x100 ∈ known ∧ ¬(v % 0x100 = 0x10 ∧ 4 < v / 0x1000 % 8) ∧
      ¬(v % 0x100 = 0x22 ∧ 1 < v / 0x100 % 4) ∧ ¬(v % 0x100 = 0x21 ∧ v / 0x800 % 2 = 1)) := by decide +kernel

theorem witness_StepRunsTheDecodedCommand :
    (busy 0x4010).hostTurn = none ∧ (busy 0x4010).status.busy = true ∧ decode (busy 0x4010).cmd = .ok .composeReplace := by
  decide +kernel

theorem witness_CmdWriteStartsACommandOrOverruns :
    (withOp (.write 0x1000 32 0x21) true (block [])).host = [⟨.write (block []).params.regBase 32 0x21, true⟩] ∧
    (block []).status.busy = false ∧
    (withOp (.write 0x1000 32 0x21) true (busy 0x3F)).host = [⟨.write (busy 0x3F).params.regBase 32 0x21, true⟩] ∧
    (busy 0x3F).status.busy = true := by decide +kernel

/-- The first and the last parameter register. -/
theorem witness_ParameterRegistersHoldWritesUnlessBusy :
    (∀ off ∈ [0x10, 0x38], (withOp (.write (0x1000 + off) 32 7) true (busy 0)).host =
      [⟨.write ((busy 0).params.regBase + off) 32 7, true⟩]) ∧
    (block []).status.busy = false ∧ (busy 0).status.busy = true ∧
    ∀ s : State, (0x10, s.ha, { s with ha := 7 }) ∈ [(0x10, s.ha, { s with ha := 7 }), (0x38, s.dy, { s with dy := 7 })] :=
  ⟨by decide +kernel, by decide +kernel, by decide +kernel, fun _ => List.mem_cons_self⟩

theorem witness_IdAndReservedOffsetsIgnoreWrites : ∀ off ∈ [0x40, 0xFC], 0x40 ≤ off ∧ off ≤ 0xFC := by decide

/-- Accesses at both ends of the window, and the illegal ones next to them. -/
theorem witness_OnlyAlignedWordAccessesReachTheWindow :
    (∀ a ∈ [0x1000, 0x10FC, 0xFFC, 0x1100, 0x1001, 0x1002],
      (withOp (.read a 32) true (block [])).hostTurn = some (.read a 32) ∧
      (withOp (.write a 32 5) true (busy 0)).hostTurn = some (.write a 32 5)) ∧
    (withOp (.read 0x1000 16) true (block [])).hostTurn = some (.read 0x1000 16) ∧
    (∀ a ∈ [0x1000, 0x10FC], 0x1000 ≤ a ∧ a < 0x1000 + 256 ∧ (a - 0x1000) % 4 = 0) ∧
    (∀ a ∈ [0xFFC, 0x1100, 0x1001, 0x1002], ¬(0x1000 ≤ a ∧ a < 0x1000 + 256 ∧ (a - 0x1000) % 4 = 0)) := by decide +kernel

theorem witness_ResetInputResetsTheBlock :
    (withOp .reset true (busy 0x21)).host = [⟨.reset, true⟩] ∧ (busy 0x21).status.busy = true ∧
    (withOp .reset false (block [])).host = [⟨.reset, false⟩] ∧ (block []).status.busy = false := by decide +kernel

theorem witness_CommandCompletionAssertsTheInterrupt :
    ∃ t, (busy 0xA).hostTurn = none ∧ (busy 0xA).status.busy = true ∧ step (busy 0xA) = .next t :=
  ⟨_, by decide +kernel, by decide +kernel, rfl⟩

theorem witness_HostDeassertsTheInterrupt :
    (2 : Word).getLsbD 1 = true ∧ (0 : Word).getLsbD 0 = false ∧ (block []).status.busy = false := by decide +kernel

theorem witness_RacingCmdWritesEndInOneOfTwoStates (e e' : Bool) : ∃ s : State, s.status.busy = false ∧
    s.host = [⟨.write s.params.regBase 32 0, e⟩, ⟨.write s.params.regBase 32 0, e'⟩] :=
  ⟨{ block [] with host := [⟨.write 0x1000 32 0, e⟩, ⟨.write 0x1000 32 0, e'⟩] }, rfl, rfl⟩

/-- A state whose sticky bits are set. -/
def sticky (w : Nat) : State := busy w { block [] with
  status := { busy := false, done := true, fatal := true, overrun := true, err := 7, sub := 1 } }

/-- FATAL is set by a rejected word, and cleared in each of the three ways. -/
theorem witness_FatalChangesOnlyAsItsRuleSays :
    (∃ t, step (busy 0xA) = .next t ∧ (busy 0xA).status.fatal = false ∧ t.status.fatal = true) ∧
    (∀ s ∈ [withOp (.write 0x1004 32 4) true (sticky 0), withOp .reset true (sticky 0), sticky 0x3F],
      s.status.fatal = true ∧ (match step s with | .next t => t.status.fatal | _ => true) = false) := by
  refine ⟨⟨_, rfl, by decide +kernel, by decide +kernel⟩, ?_⟩
  decide +kernel

theorem witness_OverrunChangesOnlyAsItsRuleSays :
    (∃ t, step (withOp (.write 0x1000 32 0) true (busy 0xA)) = .next t ∧ (busy 0xA).status.overrun = false ∧
      t.status.overrun = true) ∧
    (∀ s ∈ [withOp (.write 0x1004 32 8) true (sticky 0), withOp .reset true (sticky 0), sticky 0x3F],
      s.status.overrun = true ∧ (match step s with | .next t => t.status.overrun | _ => true) = false) := by
  refine ⟨⟨_, rfl, by decide +kernel, by decide +kernel⟩, ?_⟩
  decide +kernel

theorem witness_OnlyCompletionRecordsAnOutcome :
    (∃ t, step (withOp (.write 0x1000 32 5) true (block [])) = .next t ∧
      (withOp (.write 0x1000 32 5) true (block [])).hostTurn = some (.write 0x1000 32 5) ∧
      HostOp.write 0x1000 32 5 ≠ .reset ∧ (block []).status.busy = false ∧ t.status.busy = true) ∧
    (∃ t, step (withOp (.read 0x1004 32) true (busy 0)) = .next t ∧ (busy 0).status.busy = true ∧
      (busy 0).status.done = false) ∧
    (∃ t, step (block []) = .next t ∧ (block []).hostTurn = none ∧ (block []).status.busy = false) := by
  refine ⟨⟨_, rfl, ?_⟩, ⟨_, rfl, ?_⟩, ⟨_, rfl, ?_⟩⟩ <;> decide +kernel

theorem witness_CommandsKeepTheHostRegisters : ∃ t, exec .imgNew (at3 0 4 2 (block [])) = .next t ∧ Instr.imgNew ≠ .clrst :=
  ⟨_, rfl, by decide⟩

theorem witness_CommandsTouchOnlyTheirDestination :
    (∃ t, exec .imgSet (at3 1 0 0 (block [img 4 2 [], img 4 2 []])) = .next t ∧ (2 : Word) ≠ 1) ∧
    (∃ t, exec .imgNew (at3 0 1 1 (block [img 4 2 []])) = .next t ∧
      (at3 0 1 1 (block [img 4 2 []])).image? 1 = some (img 4 2 [])) ∧
    (∃ t, exec .imgGet (at3 1 0 0 (block [img 4 2 []])) = .next t) := by
  refine ⟨⟨_, rfl, by decide⟩, ⟨_, rfl, by decide +kernel⟩, ⟨_, rfl⟩⟩

theorem witness_OnlyDecodesTouchThePipeline : ∃ t, exec .composeOr (placed 3 0) = .next t ∧
    (∀ g tp mmr, Instr.composeOr ≠ genInstr g tp mmr) ∧ ∀ r tp, Instr.composeOr ≠ refInstr r tp :=
  ⟨_, rfl, by rintro ⟨⟩ <;> simp [genInstr], by rintro ⟨⟩ <;> simp [refInstr]⟩

theorem witness_NeverRaisedCodesAreNeverRecorded :
    ∃ t, (busy 0x10).hostTurn = none ∧ (busy 0x10).status.busy = true ∧ step (busy 0x10) = .next t :=
  ⟨_, by decide +kernel, by decide +kernel, rfl⟩

/-- The invariant holds of a block with two live images. -/
theorem two_images_inv : (placed 3 0).Inv where
  handles := by decide +kernel
  images := by
    intro im h
    have : ∀ d ∈ (placed 3 0).descs, ∀ im, d = some im → im.wf := by
      intro d hd im hi
      simp only [placed, at3, block, List.map_cons, List.map_nil, List.cons_append, List.nil_append, List.replicate,
        List.take_succ_cons, List.take_zero, List.mem_cons, List.not_mem_nil, or_false] at hd
      rcases hd with rfl | rfl | rfl
      · cases hi; decide +kernel
      · cases hi; decide +kernel
      · cases hi
    exact this _ h _ rfl
  capacity := by decide +kernel
  stats := by decide +kernel
  raster := by decide +kernel
  status := by decide +kernel

theorem witness_StepKeepsTheInvariant : ∃ s t, s.Inv ∧ step s = .next t ∧ s.status.busy = true := by
  refine ⟨busy 0x2010 (placed 3 0), _, ?_, rfl, by decide +kernel⟩
  exact { two_images_inv with status := by decide +kernel }

theorem witness_ErrorsRecordTheirCodes : (Cause.range, (5 : BitVec 4), (0 : BitVec 8)) ∈
      [(Cause.nonpositiveDims, (1 : BitVec 4), (1 : BitVec 8)), (.range, 5, 0), (.reservedBits, 7, 2)] := by decide

/-- Handle 0, a handle above N_HANDLES, a handle whose slot is free, and a live one. -/
theorem witness_InvalidHandlesAreRejected :
    (∀ h ∈ [0, 4, 2], (at3 h 0 0 (block [img 4 2 []])).image? (at3 h 0 0 (block [img 4 2 []])).ha = none ∧
      ({ at3 1 0 0 (block [img 4 2 []]) with hb := BitVec.ofNat 32 h } : State).image? (BitVec.ofNat 32 h) = none) ∧
    (block [img 4 2 [], img 4 2 [], img 5 2 []]).image? 3 = some (img 5 2 []) := by decide +kernel

/-- Each check of IMG_NEW at its boundary. -/
theorem witness_ImgNewFollowsItsRule :
    ((at3 0 0 1 (block [])).ax.toInt ≤ 0 ∧ (at3 0 1 (-1) (block [])).ay.toInt ≤ 0) ∧
    (let s := at3 0 16 0x40000000 (block [])
     0 < s.ax.toInt ∧ 0 < s.ay.toInt ∧ (s.ax.toInt + 7) / 8 * s.ay.toInt + 1 > 2 ^ 31 - 1) ∧
    (let s := at3 0 8 0x7FFFFFFE (block [img 1 1 [], img 1 1 [], img 1 1 []])
     0 < s.ax.toInt ∧ 0 < s.ay.toInt ∧ (s.ax.toInt + 7) / 8 * s.ay.toInt + 1 = 2 ^ 31 - 1 ∧ ∀ d ∈ s.descs, d ≠ none) ∧
    (∀ h : Fin 2, let s := at3 0 8 (61 + h) (block [img 1 1 []])
      (s.ax.toInt + 7) / 8 * s.ay.toInt + 1 ≤ 2 ^ 31 - 1 ∧ s.descs[1]? = some none ∧ (∀ g < 1, s.descs[g]? ≠ some none) ∧
      (if h = 0 then s.usedBytes + ((s.ax.toInt + 7) / 8 * s.ay.toInt + 1) = s.params.bufCapacity
       else s.usedBytes + ((s.ax.toInt + 7) / 8 * s.ay.toInt + 1) > s.params.bufCapacity)) := by decide +kernel

theorem witness_NewImagesAreZero : ∃ s t, s.Inv ∧ exec .imgNew s = .next t ∧ t.status.err = 0 := by
  refine ⟨placed 3 1, _, ?_, rfl, by decide +kernel⟩
  exact { two_images_inv with }

/-- Reference counts 1, 2^32 − 2 and 2^32 − 1. -/
theorem witness_CloneAndReleaseCountReferences : ∀ n ∈ [1, 2 ^ 32 - 2, 2 ^ 32 - 1],
    (at3 1 0 0 (block [{ img 4 2 [] with refcnt := n }])).image? 1 = some { img 4 2 [] with refcnt := n } ∧ 1 ≤ n := by
  decide +kernel

/-- The corner pixels of a 17 × 3 image and the positions next to them. -/
theorem witness_ImgGetReturnsThePixel :
    (∀ p ∈ [((0 : Int), (0 : Int)), (16, 2)], let s := at3 1 p.1 p.2 (block [img 17 3 [1, 2, 3]])
      s.image? s.ha = some (img 17 3 [1, 2, 3]) ∧ 0 ≤ s.ax.toInt ∧ s.ax.toInt < 17 ∧ 0 ≤ s.ay.toInt ∧ s.ay.toInt < 3) ∧
    (∀ p ∈ [((-1 : Int), (0 : Int)), (17, 0), (0, -1), (0, 3)], let s := at3 1 p.1 p.2 (block [img 17 3 [1, 2, 3]])
      s.image? s.ha = some (img 17 3 [1, 2, 3]) ∧
      ¬(0 ≤ s.ax.toInt ∧ s.ax.toInt < 17 ∧ 0 ≤ s.ay.toInt ∧ s.ay.toInt < 3)) := by decide +kernel

theorem witness_ImgSetWritesOnePixel :
    (∀ p ∈ [((0 : Int), (0 : Int)), (16, 2), (-1, 0), (17, 0), (0, -1), (0, 3)],
      let s := at3 1 p.1 p.2 (block [img 17 3 [1, 2, 3]])
      s.image? s.ha = some (img 17 3 [1, 2, 3]) ∧ (img 17 3 [1, 2, 3]).mem.wf) ∧
    (∃ p : Nat, p < 8 * (img 17 3 [1, 2, 3]).stride ∧ p = 23) := by
  refine ⟨by decide +kernel, 23, by decide, rfl⟩

theorem witness_GetAfterSetReturnsTheValue : ∃ s t, s.image? s.ha = some (img 17 3 [1, 2, 3]) ∧ (img 17 3 [1, 2, 3]).mem.wf ∧
    exec .imgSet s = .next t ∧ t.status.err = 0 ∧ (img 17 3 [1, 2, 3]).isPadding 17 0 :=
  ⟨at3 1 16 2 (block [img 17 3 [1, 2, 3]]), _, by decide +kernel, by decide +kernel, rfl, by decide +kernel, by decide +kernel⟩

theorem witness_ImgClearFillsEveryByte : (at3 1 0 0 (block [img 17 3 [1, 2, 3]])).image? 1 = some (img 17 3 [1, 2, 3]) := by
  decide +kernel

/-- Each check of IMG_RESIZE at its boundary, on a block that meets the invariant: another width, the heights 0 and 1, the
heights 30 and 31 (8 − 5 + 2 × 30 + 1 = 64 bytes fit), and the greatest size below SIZE_LIMIT and the next. -/
theorem witness_ImgResizeKeepsTheKeptRows :
    ∀ p ∈ [((9 : Int), (2 : Int)), (10, 0), (10, 1), (10, 30), (10, 31), (10, 0x3FFFFFFF), (10, 0x40000000)],
      ∃ s : State, s.Inv ∧ s.image? s.ha = some (img 10 2 [0xCC, 0xC0, 0x55, 0x40]) ∧ s.ax.toInt = p.1 ∧ s.ay.toInt = p.2 ∧
        s.params.bufCapacity = 64 ∧ s.usedBytes = 8 := by
  intro p hp
  refine ⟨at3 1 p.1 p.2 (placed 0 0), { two_images_inv with }, ?_, ?_, ?_, ?_, ?_⟩ <;> revert p <;> decide +kernel

/-- The byte offsets 0 and 8 of a 9-byte image, and −1 and 9. -/
theorem witness_BytePortReadsAndWritesOneByte : ∀ x ∈ [(0 : Int), 8, -1, 9],
    let s := at3 1 x 0 (block [img 17 3 [1, 2, 3]])
    s.image? s.ha = some (img 17 3 [1, 2, 3]) ∧ (img 17 3 [1, 2, 3]).mem.wf ∧ (img 17 3 [1, 2, 3]).size = 9 ∧
      s.ax.toInt = x := by decide +kernel

/-- D and S meet every premise of the composite statements. -/
theorem witness_ComposeCombinesThePixels : (placed 7 0).image? (placed 7 0).ha = some (img 10 2 [0xCC, 0xC0, 0x55, 0x40]) ∧
    (placed 7 0).image? (placed 7 0).hb = some (img 4 2 [0xA0, 0x60]) ∧ (placed 7 0).ha ≠ (placed 7 0).hb ∧
    (img 10 2 [0xCC, 0xC0, 0x55, 0x40]).mem.wf := by decide +kernel

theorem witness_ComposeWritesOnlyTheClippedPixels :
    (placed 7 0).image? (placed 7 0).ha = some (img 10 2 [0xCC, 0xC0, 0x55, 0x40]) ∧
    (placed 7 0).image? (placed 7 0).hb = some (img 4 2 [0xA0, 0x60]) ∧ (placed 7 0).ha ≠ (placed 7 0).hb ∧
    (img 10 2 [0xCC, 0xC0, 0x55, 0x40]).wf ∧ (img 10 2 [0xCC, 0xC0, 0x55, 0x40]).isPadding 10 1 := by decide +kernel

/-- Placed at (9, 1), only byte 3 of D holds a pixel of the clipped rectangle. -/
theorem witness_ComposeWritesOnlyTheClippedPixels_byte :
    ∀ x y : Int, (img 10 2 [0xCC, 0xC0, 0x55, 0x40]).inRange x y = true →
      (img 4 2 [0xA0, 0x60]).inRange (x - 9) (y - 1) = true → 0 ≠ (img 10 2 [0xCC, 0xC0, 0x55, 0x40]).pixOff x y := by
  intro x y h h'
  rw [Image.inRange_iff] at h h'
  simp only [img] at h h'
  obtain rfl : x = 9 := by omega
  obtain rfl : y = 1 := by omega
  decide +kernel

theorem witness_AliasedOperandsAreRejected : let s : State := { placed 0 0 with hb := 1 }
    s.image? s.ha = some (img 10 2 [0xCC, 0xC0, 0x55, 0x40]) ∧ s.ha = s.hb := by decide +kernel

/-- V-C6: a source and a destination of one size whose padding agrees. -/
theorem witness_ReplaceOfEqualSizesCopiesTheSource :
    let dst := img 9 2 []
    let src := img 9 2 [0xB3, 0x80, 0x4C, 0x80]
    let s : State := { at3 1 0 0 (block [dst, src]) with hb := 2 }
    s.image? s.ha = some dst ∧ s.image? s.hb = some src ∧ s.ha ≠ s.hb ∧ dst.wf ∧ src.wf ∧ dst.w = src.w ∧ dst.h = src.h ∧
      s.ax = 0 ∧ s.ay = 0 ∧ ∀ p < 16, ∀ q < 2, dst.isPadding p q → dst.bit p q = src.bit p q := by decide +kernel

/-- V-C7. -/
theorem witness_OrCompositesCommute :
    let s := at3 1 0 0 (block [img 10 2 [], img 4 2 [0xA0, 0x60], img 4 2 [0x50]])
    s.image? s.ha = some (img 10 2 []) ∧ s.image? 2 = some (img 4 2 [0xA0, 0x60]) ∧ s.image? 3 = some (img 4 2 [0x50]) ∧
      s.ha ≠ 2 ∧ s.ha ≠ 3 ∧ (img 10 2 []).wf := by decide +kernel

/-- A request answered, one answered FAIL, and a host action on the coder of an IDLE and of a BUSY block. -/
theorem witness_ArithDecodeWritesOnlyTheAnsweredEntry :
    (Pipeline.reset 0 (.script []) []).stats.wf ∧
    (Pipeline.reset 0 (.script []) []).coder.decode ((Pipeline.reset 0 (.script []) []).stats.read 5) = none ∧
    (∃ b e' c', (Pipeline.reset 0 (.script [true]) []).coder.decode ((Pipeline.reset 0 (.script [true]) []).stats.read 5) =
      some (b, e', c')) ∧
    (withOp (.bindCoder (.script []) 0) true (block [])).hostTurn = some (.bindCoder (.script []) 0) ∧
    (withOp (.bindCoder (.script []) 5) true (busy 0x321)).hostTurn = some (.bindCoder (.script []) 5) :=
  ⟨by decide +kernel, rfl, ⟨_, _, _, rfl⟩, by decide +kernel, by decide +kernel⟩

/-- V-D1 to V-D3 and V-D5. -/
theorem witness_PrecheckRunsTheDosGuard :
    (at3 0 0 5 (block [])).ax.toInt ≤ 0 ∧
    (∀ p ∈ [((4097 : Int), (65551 : Nat)), (4097, 65552), (4096, 0)],
      let s : State := { at3 0 32768 p.1 (block []) with dlen := BitVec.ofNat 32 p.2 }
      let area := (s.ax.toInt + 7) / 8 * s.ay.toInt
      0 < s.ax.toInt ∧ 0 < s.ay.toInt ∧
        ((area > 2 ^ 24 ∧ (s.dlen.toNat : Int) < area / 256) ↔ p = (4097, 65551))) := by decide +kernel

/-- V-D6. -/
theorem witness_GenDecodeChecksInOrder :
    (nominal .t2 (block [])).image? (nominal .t2 (block [])).ha = none ∧
    (let s : State := { nominal .t2 (block [img 32768 4097 []]) with dlen := 100 }
     s.image? s.ha = some (img 32768 4097 []) ∧ (img 32768 4097 []).size > 2 ^ 24 ∧
       s.dlen.toNat < (img 32768 4097 []).size / 256) := by decide +kernel

/-- A script just long enough, for each template and with and without TP. -/
theorem witness_GenDecodeCompletes : ∀ t ∈ [GenTemplate.t0, .t1, .t2, .t3], ∀ tp : Bool,
    let s := nominal t (block [img 9 2 [0xFF, 0xFF]] (List.replicate 20 1))
    s.image? s.ha = some (img 9 2 [0xFF, 0xFF]) ∧ (img 9 2 [0xFF, 0xFF]).wf ∧
      ¬((img 9 2 [0xFF, 0xFF]).size > 2 ^ 24 ∧ s.dlen.toNat < (img 9 2 [0xFF, 0xFF]).size / 256) ∧
      s.pipe.coder = .script (List.replicate 20 true) ∧
      requestBound tp (img 9 2 [0xFF, 0xFF]) ≤ (List.replicate 20 true).length := by decide +kernel

/-- V-G6, in which a row is copied, and a decode whose AT pixel is the pixel itself, so not causal (R175). -/
theorem witness_GenDecodeAgreesWithItsRequests :
    (∃ s u, s.image? s.ha = some (img 5 3 []) ∧ (img 5 3 []).wf ∧ exec (genInstr .t2 true false) s = .next u ∧
      u.status.err = 0) ∧
    (∃ s u, s.image? s.ha = some (img 2 1 [0xC0]) ∧ (img 2 1 [0xC0]).wf ∧
      ¬(genAtOf s.gbatLo s.gbatHi).causalFor .t1 ∧ exec (genInstr .t1 false false) s = .next u ∧ u.status.err = 0) := by
  refine ⟨⟨nominal .t2 (block [img 5 3 []] [0, 1, 0, 0, 1, 1, 1, 1, 0, 1, 1, 1, 0]), _, ?_, ?_, rfl, ?_⟩,
    ⟨at3 1 0 0 (block [img 2 1 [0xC0]] [0, 1]), _, ?_, ?_, ?_, rfl, ?_⟩⟩
  all_goals decide +kernel

/-- V-G9. -/
theorem witness_ForcedTpGivesThePlainGenericDecode :
    let s := nominal .t0 (block [img 4 2 []])
    let rows := [[true, false, true, true], [false, true, true, false]]
    s.image? s.ha = some (img 4 2 []) ∧ (img 4 2 []).wf ∧
      ¬((img 4 2 []).size > 2 ^ 24 ∧ s.dlen.toNat < (img 4 2 []).size / 256) ∧ rows.length = (img 4 2 []).h ∧
      ∀ r ∈ rows, r.length = (img 4 2 []).w := by decide +kernel

theorem witness_GenDecodeIgnoresPriorContents :
    ∃ s u, s.image? s.ha = some (img 4 2 []) ∧ (img 4 2 []).wf ∧ (img 4 2 [0xFF, 0xFF]).mem.wf ∧
      (∀ c ∈ (img 4 2 [0xFF, 0xFF]).mem, c.1 < (img 4 2 []).size) ∧ (genAtOf s.gbatLo s.gbatHi).causalFor .t1 ∧
      exec (genInstr .t1 false false) s = .next u ∧ u.status.err = 0 := by
  refine ⟨nominal .t1 (block [img 4 2 []] [1, 0, 1, 1, 0, 1, 1, 0]), _, ?_, ?_, ?_, ?_, ?_, rfl, ?_⟩
  all_goals decide +kernel

/-- V-G5 over a buffer of ones, V-G7, an SLTP request answered FAIL, and V-R6. -/
theorem witness_FailedDecodesLeaveThePartialImage :
    (∀ c ∈ [(GenTemplate.t3, false, [1, 1, 0, 1, 0]), (.t0, true, [1, 1, 1]), (.t0, true, [1])],
      ∃ s u, s.image? s.ha = some (img 4 2 [0xFF, 0xFF]) ∧ (img 4 2 [0xFF, 0xFF]).wf ∧
        exec (genInstr c.1 c.2.1 false) s = .next u ∧ u.status.err = 3) ∧
    (∃ s u, s.image? s.ha = some (img 6 3 []) ∧ s.image? s.hb = some (img 6 3 [0xE0, 0xE0, 0xE0]) ∧ s.ha ≠ s.hb ∧
      (img 6 3 []).wf ∧ exec (refInstr .t1 true) s = .next u ∧ u.status.err = 3) := by
  refine ⟨fun c hc => ⟨nominal c.1 (block [img 4 2 [0xFF, 0xFF]] c.2.2), _, ?_, ?_, exec_genInstr .., ?_⟩,
    ⟨against 0 0 (block [img 6 3 [], img 6 3 [0xE0, 0xE0, 0xE0]] [1, 1, 0, 1, 0, 0, 1, 0, 0, 1, 0, 0, 0, 1, 1]), _,
      ?_, ?_, ?_, ?_, rfl, ?_⟩⟩
  case refine_1 | refine_2 | refine_3 => revert c; decide +kernel
  all_goals decide +kernel

theorem witness_DecodesEndAtTheFirstFail :
    (∃ s u, s.image? s.ha = some (img 4 2 []) ∧ (img 4 2 []).wf ∧
      (∃ g, Instr.genDecodeT3 true false = genInstr g true false) ∧
      ¬((img 4 2 []).size > 2 ^ 24 ∧ s.dlen.toNat < (img 4 2 []).size / 256) ∧
      exec (.genDecodeT3 true false) s = .next u) ∧
    (∃ s u, s.image? s.ha = some (img 3 2 []) ∧ (img 3 2 []).wf ∧ (∃ r, Instr.refDecodeT0 false = refInstr r false) ∧
      s.image? s.hb ≠ none ∧ s.ha ≠ s.hb ∧ exec (.refDecodeT0 false) s = .next u) := by
  refine ⟨⟨nominal .t3 (block [img 4 2 []] [1, 1, 0, 1, 0]), _, ?_, ?_, ⟨.t3, rfl⟩, ?_, rfl⟩,
    ⟨against 1 0 (block [img 3 2 [], img 4 4 [0, 0x60, 0x60, 0]]), _, ?_, ?_, ⟨.t0, rfl⟩, ?_, ?_, rfl⟩⟩
  all_goals decide +kernel

/-- V-G5 sends six requests, all to different contexts, and leaves entry 2 unnamed; and a command its checks end. -/
theorem witness_DecodesStayInsideTheirTable :
    ((Instr.genDecodeT3 false false, 1024) ∈
      [(Instr.genDecodeT0 false false, 65536), (.genDecodeT1 false false, 8192), (.genDecodeT2 false false, 1024),
        (.genDecodeT3 false false, 1024), (.refDecodeT0 false, 8192), (.refDecodeT1 false, 1024)]) ∧
    (∃ s u, s.pipe.stats.wf ∧ exec (.genDecodeT3 false false) s = .next u ∧ u.status.err = 3 ∧
      u.pipe.coderLog.map CoderRequest.cx = [0xD0, 0x60, 6, 3, 1, 0]) ∧
    (∃ s u, s.pipe.stats.wf ∧ exec (.genDecodeT3 false false) s = .next u ∧ ¬(u.status.err = 0 ∨ u.status.err = 3)) := by
  refine ⟨by decide, ⟨nominal .t3 (block [img 4 2 []] [1, 1, 0, 1, 0]), _, ?_, rfl, ?_, ?_⟩,
    ⟨nominal .t3 (block []), _, ?_, rfl, ?_⟩⟩
  all_goals decide +kernel

/-- Both values of the implicit value, and none: 95_test_vectors.md §3.6 at (1, 1), (4, 4) and (2, 1). -/
theorem witness_ImplicitValueIsAUniformBlock :
    let o : RefOperands := { offs := refAtOf 0xFFFFFFFF, ref := img 5 5 [0xE0, 0xE0, 0xE0], dx := 0, dy := 0 }
    implicitValue o 1 1 = some true ∧ implicitValue o 4 4 = some false ∧ implicitValue o 2 1 = none := by decide +kernel

theorem witness_RefDecodeCompletes : ∀ tp : Bool,
    let s := against 1 0 (block [img 3 2 [], img 4 4 [0, 0x60, 0x60, 0]] (List.replicate 8 1))
    s.image? s.ha = some (img 3 2 []) ∧ s.image? s.hb = some (img 4 4 [0, 0x60, 0x60, 0]) ∧ s.ha ≠ s.hb ∧ (img 3 2 []).wf ∧
      s.pipe.coder = .script (List.replicate 8 true) ∧ requestBound tp (img 3 2 []) ≤ (List.replicate 8 true).length := by
  decide +kernel

/-- V-R5, in which every pixel is implicit, and a decode whose current AT pixel is the pixel itself, so not causal. -/
theorem witness_RefDecodeAgreesWithItsRequests :
    (∃ s u, s.image? s.ha = some (img 6 2 []) ∧ s.image? s.hb = some (img 6 2 []) ∧ s.ha ≠ s.hb ∧ (img 6 2 []).wf ∧
      exec (refInstr .t0 true) s = .next u ∧ u.status.err = 0) ∧
    (∃ s u, s.image? s.ha = some (img 2 1 [0xC0]) ∧ s.image? s.hb = some (img 1 1 []) ∧ s.ha ≠ s.hb ∧
      (img 2 1 [0xC0]).wf ∧ ¬(refAtOf s.grat).causalFor .t0 ∧ exec (refInstr .t0 false) s = .next u ∧
      u.status.err = 0) := by
  refine ⟨⟨against 0 0 (block [img 6 2 [], img 6 2 []] [1, 0]), _, ?_, ?_, ?_, ?_, rfl, ?_⟩,
    ⟨{ against 0 0 (block [img 2 1 [0xC0], img 1 1 []] [0, 1]) with grat := 0 }, _, ?_, ?_, ?_, ?_, ?_, rfl, ?_⟩⟩
  all_goals decide +kernel

theorem witness_ForcedTpGivesThePlainRefinementDecode :
    let s := against 1 0 (block [img 3 2 [], img 4 4 [0, 0x60, 0x60, 0]])
    let rows := [[true, false, true], [false, true, true]]
    s.image? s.ha = some (img 3 2 []) ∧ s.image? s.hb = some (img 4 4 [0, 0x60, 0x60, 0]) ∧ s.ha ≠ s.hb ∧ (img 3 2 []).wf ∧
      rows.length = (img 3 2 []).h ∧ ∀ r ∈ rows, r.length = (img 3 2 []).w := by decide +kernel

end Sys2Proof.Tests
end

section
/-! SUPPORT. Invariant: what of the invariant holds also while a command runs, one rule per state operation; then one
lemma per command (10_state.md R42, 20_memory.md R66, R68). -/

namespace Sys2Proof.Machine

/-! ### The part of the invariant that a running command keeps -/

/-- The invariant without the raster position and STATUS, which a running command changes and its end puts in order. -/
structure State.Ready (s : State) : Prop where
  handles : 3 ≤ s.nHandles ∧ s.nHandles < 2 ^ 32
  images : ∀ im, some im ∈ s.descs → im.wf
  capacity : s.usedBytes ≤ s.params.bufCapacity
  stats : s.pipe.stats.wf

theorem State.inv_iff {s : State} : s.Inv ↔ s.Ready ∧ s.pipe.raster = none ∧ s.status.wf :=
  ⟨fun h => ⟨⟨h.handles, h.images, h.capacity, h.stats⟩, h.raster, h.status⟩,
    fun ⟨h, hr, hs⟩ => ⟨h.handles, h.images, h.capacity, h.stats, hr, hs⟩⟩

namespace State.Ready

variable {s t : State} {h : Word} {im : Image}

/-- It depends on the block's parameters, the descriptor table and the stats RAM alone. -/
theorem congr (hs : s.Ready) (hp : t.params = s.params) (hd : t.descs = s.descs)
    (hr : t.pipe.stats = s.pipe.stats) : t.Ready := by
  refine ⟨?_, ?_, ?_, ?_⟩
  · rw [State.nHandles, hd]; exact hs.handles
  · rw [hd]; exact hs.images
  · rw [State.usedBytes, hd, hp]; exact hs.capacity
  · rw [hr]; exact hs.stats

theorem complete (hs : s.Ready) (v : Word) : (s.complete v).Ready := hs.congr rfl rfl rfl

theorem raise (hs : s.Ready) (c : Cause) : (s.raise c).Ready := hs.congr rfl rfl rfl

theorem wf_of_image? (hs : s.Ready) (hv : s.image? h = some im) : im.wf := hs.images im (State.mem_descs hv)

/-- A slot is replaced: a new image is well-formed, and needs no more than the old one did or fits (R42, R68). -/
theorem setSlot (hs : s.Ready) {k : Nat} {old : Option Image} (hk : s.descs[k]? = some old) {new : Option Image}
    (hw : ∀ im, new = some im → im.wf)
    (hc : slotBytes new ≤ slotBytes old ∨ s.usedBytes - slotBytes old + slotBytes new ≤ s.params.bufCapacity) :
    ({ s with descs := s.descs.set k new } : State).Ready where
  handles := by simpa [State.nHandles] using hs.handles
  images im hm := by
    rcases List.mem_or_eq_of_mem_set hm with hm | hm
    · exact hs.images im hm
    · exact hw im hm.symm
  capacity := by
    have hsum := sum_slotBytes_set hk new
    have hcap := hs.capacity
    unfold State.usedBytes at hc hcap ⊢
    simp only
    omega
  stats := hs.stats

/-- The image of a valid handle is replaced by one of no more bytes. -/
theorem setImage (hs : s.Ready) (hv : s.image? h = some im) {new : Image} (hw : new.wf) (hn : new.need ≤ im.need) :
    (s.setImage h (some new)).Ready :=
  hs.setSlot (State.image?_eq_some.1 hv).2 (fun _ he => Option.some.inj he ▸ hw) (.inl hn)

/-- The image of a valid handle is freed (R115). -/
theorem freeImage (hs : s.Ready) (hv : s.image? h = some im) : (s.setImage h none).Ready :=
  hs.setSlot (State.image?_eq_some.1 hv).2 (fun _ he => nomatch he) (.inl (Nat.zero_le _))

end State.Ready

/-! ### Well-formed images -/

/-- An image of the same size and count whose buffer is canonical is well-formed. -/
theorem Image.wf_of_sameSize {im new : Image} (h : im.wf) (hw : new.w = im.w) (hh : new.h = im.h)
    (hr : new.refcnt = im.refcnt) (hm : new.memOk) : new.wf := by
  obtain ⟨hw₀, hh₀, hn₀, hr₀, -⟩ := h
  refine ⟨hw ▸ hw₀, hh ▸ hh₀, ?_, hr ▸ hr₀, hm⟩
  unfold Image.need Image.size Image.stride at hn₀ ⊢
  rw [hw, hh]
  exact hn₀

theorem Image.need_of_sameSize {im new : Image} (hw : new.w = im.w) (hh : new.h = im.h) : new.need = im.need := by
  unfold Image.need Image.size Image.stride
  rw [hw, hh]

/-- Only the reference count of an image is changed (R114, R115). -/
theorem Image.wf_setRefcnt {im : Image} (h : im.wf) {n : Nat} (hn : 1 ≤ n ∧ n ≤ 2 ^ 32 - 1) :
    ({ im with refcnt := n } : Image).wf := by
  obtain ⟨hw, hh, hneed, -, hm⟩ := h
  exact ⟨hw, hh, hneed, hn, hm⟩

/-- A dimension read from a register fits in 31 bits (R88). -/
theorem Word.toNat_toInt_lt (v : Word) : v.toInt.toNat < 2 ^ 31 := by
  have := BitVec.toInt_lt (x := v)
  omega

/-- A job whose image has the sizes, the count and a canonical buffer like `im`, with the stats RAM canonical. -/
abbrev Job.Like (im : Image) (j : Job) : Prop :=
  j.img.w = im.w ∧ j.img.h = im.h ∧ j.img.refcnt = im.refcnt ∧ j.img.memOk ∧ j.pipe.stats.wf

theorem Job.like_start {im : Image} {p : Pipeline} (h : im.wf) (hp : p.stats.wf) (n : Nat) :
    (Job.start n im p).Like im := by
  obtain ⟨-, -, -, -, hm⟩ := h
  exact ⟨rfl, rfl, rfl, hm, StatsRam.wf_zero hp n⟩

/-- A command's work goes back into the slot it came from. -/
theorem State.Ready.putJob {s : State} {h : Word} {im : Image} {j : Job} (hs : s.Ready) (hv : s.image? h = some im)
    (hj : j.Like im) : (s.putJob h j).Ready := by
  obtain ⟨hw, hh, hr, hm, hst⟩ := hj
  have ht := hs.setImage hv (Image.wf_of_sameSize (hs.wf_of_image? hv) hw hh hr hm) (Image.need_of_sameSize hw hh).le
  exact ⟨ht.handles, ht.images, ht.capacity, hst⟩

/-! ### The commands -/

theorem imgNew_ready {s : State} (hs : s.Ready) : (imgNew s).Ready := by
  have hw := Word.toNat_toInt_lt s.ax
  have hh := Word.toNat_toInt_lt s.ay
  unfold imgNew
  simp only
  split
  · exact hs.raise _
  · split
    · exact hs.raise _
    · split
      · exact hs.raise _
      · rename_i hpos hsize _ k hk
        split
        · exact hs.raise _
        · rename_i hcap
          refine (hs.setSlot (State.freeSlot?_eq_some.1 hk).1 (fun im he => ?_) (.inr ?_)).complete _
          · obtain rfl := Option.some.inj he
            exact ⟨⟨by simp only; omega, hw⟩, ⟨by simp only; omega, hh⟩, Nat.le_of_not_gt hsize,
              ⟨Nat.le_refl 1, by norm_num⟩, Memory.wf_nil,
              fun _ hc => nomatch hc⟩
          · exact Nat.le_of_not_gt hcap

theorem imgClone_ready {s : State} (hs : s.Ready) : (imgClone s).Ready := by
  unfold imgClone
  split
  · exact hs.raise _
  · rename_i im hv
    split
    · exact hs.raise _
    · rename_i hmax
      have hwf := hs.wf_of_image? hv
      obtain ⟨-, -, -, hr, -⟩ := hs.wf_of_image? hv
      have hn : 1 ≤ im.refcnt + 1 ∧ im.refcnt + 1 ≤ 2 ^ 32 - 1 := by unfold refcountMax at hmax; omega
      exact (hs.setImage hv (Image.wf_setRefcnt hwf hn) (Nat.le_refl _)).complete _

theorem imgRelease_ready {s : State} (hs : s.Ready) : (imgRelease s).Ready := by
  unfold imgRelease
  split
  · exact hs.raise _
  · rename_i im hv
    refine State.Ready.complete ?_ _
    split
    · exact hs.freeImage hv
    · have hwf := hs.wf_of_image? hv
      obtain ⟨-, -, -, hr, -⟩ := hs.wf_of_image? hv
      have hn : 1 ≤ im.refcnt - 1 ∧ im.refcnt - 1 ≤ 2 ^ 32 - 1 := by omega
      exact hs.setImage hv (Image.wf_setRefcnt hwf hn) (Nat.le_refl _)

theorem imgGet_ready {s : State} (hs : s.Ready) : (imgGet s).Ready := by
  unfold imgGet
  split
  · exact hs.raise _
  · exact hs.complete _

theorem imgSet_ready {s : State} (hs : s.Ready) : (imgSet s).Ready := by
  unfold imgSet
  split
  · exact hs.raise _
  · rename_i im hv
    rw [Image.putPix_eq]
    by_cases hin : im.inRange s.ax.toInt s.ay.toInt = true
    · have hwf := hs.wf_of_image? hv
      obtain ⟨-, -, -, -, hm⟩ := hs.wf_of_image? hv
      simp only [hin, if_true]
      exact (hs.setImage hv
        (Image.wf_of_sameSize hwf (Image.put_w ..) (Image.put_h ..) (Image.put_refcnt ..) (Image.memOk_put hm ..))
        (Image.need_of_sameSize (Image.put_w ..) (Image.put_h ..)).le).complete _
    · simp only [hin]
      exact hs.raise _

/-- The buffer of a live image is replaced by a canonical one inside its size. -/
theorem State.Ready.setMem {s : State} {h : Word} {im : Image} (hs : s.Ready) (hv : s.image? h = some im) {m : Memory}
    (hm : m.wf) (hlt : ∀ c ∈ m, c.1 < im.size) : (s.setImage h (some { im with mem := m })).Ready :=
  hs.setImage hv (Image.wf_of_sameSize (hs.wf_of_image? hv) rfl rfl rfl ⟨hm, hlt⟩) (Nat.le_refl _)

theorem imgClear_ready {s : State} (hs : s.Ready) (clrv : Bool) : (imgClear clrv s).Ready := by
  unfold imgClear
  split
  · exact hs.raise _
  · rename_i im hv
    exact (hs.setMem hv (Memory.wf_fill ..) Memory.lt_of_mem_fill).complete _

/-- The kept rows of a resized image lie below its new size (R119). -/
theorem imgResize_ready {s : State} (hs : s.Ready) : (imgResize s).Ready := by
  have hh := Word.toNat_toInt_lt s.ay
  unfold imgResize
  split
  · exact hs.raise _
  · rename_i im hv
    simp only
    split
    · exact hs.raise _
    · split
      · exact hs.raise _
      · split
        · exact hs.raise _
        · split
          · exact hs.raise _
          · rename_i hpos hsize hcap
            obtain ⟨hw, -, -, hr, hm, -⟩ := hs.wf_of_image? hv
            refine (hs.setSlot (State.image?_eq_some.1 hv).2 (fun new he => ?_) (.inr ?_)).complete _
            · obtain rfl := Option.some.inj he
              exact ⟨hw, ⟨by simp only; omega, hh⟩, Nat.le_of_not_gt hsize, hr, Memory.wf_take hm _, fun c hc =>
                (Memory.lt_of_mem_take c hc).trans_le (Nat.mul_le_mul_left _ (Nat.min_le_right ..))⟩
            · exact Nat.le_of_not_gt hcap

theorem imgReadb_ready {s : State} (hs : s.Ready) : (imgReadb s).Ready := by
  unfold imgReadb
  split
  · exact hs.raise _
  · split
    · exact hs.complete _
    · exact hs.complete _

theorem byteOffset?_lt {im : Image} {v : Word} {off : Nat} (h : byteOffset? im v = some off) : off < im.size := by
  unfold byteOffset? at h
  split at h
  · obtain rfl := Option.some.inj h
    omega
  · cases h

theorem imgWriteb_ready {s : State} (hs : s.Ready) : (imgWriteb s).Ready := by
  unfold imgWriteb
  split
  · exact hs.raise _
  · rename_i im hv
    split
    · rename_i off ho
      obtain ⟨-, -, -, -, hm, hlt⟩ := hs.wf_of_image? hv
      exact (hs.setMem hv (Memory.wf_write hm _ _) (Memory.lt_of_mem_write hlt (byteOffset?_lt ho))).complete _
    · exact hs.raise _

/-- A composite writes pixels of its destination only. -/
theorem composeRun_like {im : Image} {k : Job} (h : k.Like im) (op : ComposeOp) (src : Image) (x y : Int) (r : Rect) :
    (composeRun op src x y r k).Like im :=
  composeRun_induct (P := Job.Like im) op src x y r h (fun _ _ _ hj => hj) fun j p q v ⟨hw, hh, hr, hm, hst⟩ =>
    ⟨by simpa using hw, by simpa using hh, by simpa using hr, Image.memOk_put hm p q v, hst⟩

theorem compose_ready {s : State} (hs : s.Ready) (op : ComposeOp) : (compose op s).Ready := by
  rw [compose_eq]
  split
  · rename_i dst src hv _
    split
    · exact hs.raise _
    · obtain ⟨-, -, -, -, hm⟩ := hs.wf_of_image? hv
      exact (hs.putJob hv (composeRun_like ⟨rfl, rfl, rfl, hm, hs.stats⟩ ..)).complete _
  · exact hs.raise _

theorem genPrecheck_ready {s : State} (hs : s.Ready) : (genPrecheck s).Ready := by
  unfold genPrecheck
  simp only
  split
  · exact hs.raise _
  · split
    · exact hs.raise _
    · exact hs.complete _

theorem genDecode_ready {s : State} (hs : s.Ready) (t : GenTemplate) (tp mmr : Bool) : (genDecode t tp mmr s).Ready := by
  unfold genDecode
  split
  · exact hs.raise _
  · split
    · exact hs.raise _
    · rename_i im hv
      split
      · exact hs.raise _
      · have hwf := hs.wf_of_image? hv
        obtain ⟨⟨hw, -⟩, -⟩ := hs.wf_of_image? hv
        have hrun := (jobInv_wf t.statsSize_le im hw).genRun (tp := tp) (a := genAtOf s.gbatLo s.gbatHi)
          (Job.like_start hwf hs.stats t.statsSize)
        split
        · rename_i j hj
          exact (hs.putJob hv (hrun.1 j hj)).complete _
        · rename_i j hj
          exact (hs.putJob hv (hrun.2 j hj)).raise _

theorem refDecode_ready {s : State} (hs : s.Ready) (t : RefTemplate) (tp : Bool) : (refDecode t tp s).Ready := by
  unfold refDecode
  split
  · rename_i im r hv _
    split
    · exact hs.raise _
    · have hwf := hs.wf_of_image? hv
      obtain ⟨⟨hw, -⟩, -⟩ := hs.wf_of_image? hv
      have hrun := (jobInv_wf t.statsSize_le im hw).refRun (tp := tp) (o := s.refOperands r)
        (Job.like_start hwf hs.stats t.statsSize)
      split
      · rename_i j hj
        exact (hs.putJob hv (hrun.1 j hj)).complete _
      · rename_i j hj
        exact (hs.putJob hv (hrun.2 j hj)).raise _
  · exact hs.raise _

/-- Every command keeps the table, the capacity and the stats RAM in order. -/
theorem exec_ready {i : Instr} {s t : State} (hs : s.Ready) (h : exec i s = .next t) : t.Ready := by
  cases i <;> obtain rfl := Host.Outcome.next.inj h
  case nop => exact hs.complete _
  case imgNew => exact imgNew_ready hs
  case imgClone => exact imgClone_ready hs
  case imgRelease => exact imgRelease_ready hs
  case imgGet => exact imgGet_ready hs
  case imgSet => exact imgSet_ready hs
  case imgClear clrv => exact imgClear_ready hs clrv
  case imgResize => exact imgResize_ready hs
  case imgReadb => exact imgReadb_ready hs
  case imgWriteb => exact imgWriteb_ready hs
  case composeOr => exact compose_ready hs .orOp
  case composeAnd => exact compose_ready hs .andOp
  case composeXor => exact compose_ready hs .xorOp
  case composeXnor => exact compose_ready hs .xnorOp
  case composeReplace => exact compose_ready hs .replaceOp
  case genPrecheck => exact genPrecheck_ready hs
  case genDecodeT0 tp mmr => exact genDecode_ready hs .t0 tp mmr
  case genDecodeT1 tp mmr => exact genDecode_ready hs .t1 tp mmr
  case genDecodeT2 tp mmr => exact genDecode_ready hs .t2 tp mmr
  case genDecodeT3 tp mmr => exact genDecode_ready hs .t3 tp mmr
  case refDecodeT0 tp => exact refDecode_ready hs .t0 tp
  case refDecodeT1 tp => exact refDecode_ready hs .t1 tp
  case clrst => exact hs.congr rfl rfl rfl

end Sys2Proof.Machine
end

section
/-! SUPPORT. Steps: what a host action and a step can do, said once for all of them (10_state.md R40, 20_memory.md R65,
60_exceptions.md R257). -/

namespace Sys2Proof.Machine

/-! ### A host action -/

/-- A host write leaves the table, the pipelines, the block's parameters and RESULT. -/
theorem State.busWrite_frame (s : State) (off : Nat) (v : Word) :
    (s.busWrite off v).params = s.params ∧ (s.busWrite off v).descs = s.descs ∧ (s.busWrite off v).pipe = s.pipe ∧
      (s.busWrite off v).result = s.result := by
  unfold State.busWrite State.writeReg State.writeCmd
  repeat' split
  all_goals exact ⟨rfl, rfl, rfl, rfl⟩

/-- STATUS after a host action other than reset that started with STATUS `old`, in a block with the parameters `p`: only a
write to CMD or to STATUS changes it (R21, R22, R26). -/
inductive StatusAfter (p : Params) (old : Status) : HostOp → Status → Prop
  | same (op : HostOp) : StatusAfter p old op old
  | accepted (v : Word) : old.busy = false → StatusAfter p old (.write p.regBase 32 v) old.accept
  | overrun (v : Word) : old.busy = true → StatusAfter p old (.write p.regBase 32 v) old.setOverrun
  | cleared (v : Word) : StatusAfter p old (.write (p.regBase + 4) 32 v) (old.w1c v)

/-- A register other than CMD and STATUS is written without a change of STATUS. -/
theorem State.writeReg_status (s : State) {r : Reg} (v : Word) (hc : r ≠ .cmd) (hs : r ≠ .status) :
    (s.writeReg r v).status = s.status := by
  cases r
  case cmd => exact absurd rfl hc
  case status => exact absurd rfl hs
  case ctrl | result | id => rfl
  all_goals
    simp only [State.writeReg]
    split <;> rfl

theorem State.busWrite_status (s : State) (off : Nat) (v : Word) :
    StatusAfter s.params s.status (.write (s.params.regBase + off) 32 v) (s.busWrite off v).status := by
  unfold State.busWrite
  split
  · rename_i r hr
    by_cases hc : r = .cmd
    · subst hc
      obtain rfl : off = 0 := by simpa using regAt_eq_some.1 hr
      by_cases hb : s.status.busy = true
      · simpa [State.writeReg, State.writeCmd, hb] using StatusAfter.overrun v hb
      · simpa [State.writeReg, State.writeCmd, hb] using StatusAfter.accepted v (by simpa using hb)
    · by_cases hs : r = .status
      · subst hs
        obtain rfl : off = 4 := by simpa using regAt_eq_some.1 hr
        exact .cleared v
      · rw [s.writeReg_status v hc hs]
        exact .same _
  · exact .same _

/-- What a host action other than reset leaves. -/
structure HostKept (s : State) (op : HostOp) (t : State) : Prop where
  params : t.params = s.params
  descs : t.descs = s.descs
  stats : t.pipe.stats = s.pipe.stats
  raster : t.pipe.raster = s.pipe.raster
  result : t.result = s.result
  status : StatusAfter s.params s.status op t.status

/-- What a host action can do. -/
theorem hostStep_cases {s t : State} {op : HostOp} (h : State.hostStep s op = .next t) :
    op = .reset ∧ t = s.assertReset ∨ op ≠ .reset ∧ HostKept s op t := by
  cases op with
  | read addr width =>
    simp only [State.hostStep] at h
    split at h
    · obtain rfl := Host.Outcome.next.inj h
      exact .inr ⟨nofun, rfl, rfl, rfl, rfl, rfl, .same _⟩
    · cases h
  | write addr width data =>
    simp only [State.hostStep] at h
    split at h
    · rename_i off ho
      obtain ⟨rfl, rfl, -, -⟩ := busOffset?_eq_some.1 ho
      obtain rfl := Host.Outcome.next.inj h
      obtain ⟨hp, hd, hpipe, hres⟩ := s.busWrite_frame off data
      exact .inr ⟨nofun, hp, hd, by rw [hpipe], by rw [hpipe], hres, s.busWrite_status off data⟩
    · cases h
  | bindCoder c after =>
    obtain rfl := Host.Outcome.next.inj h
    exact .inr ⟨nofun, rfl, rfl, rfl, rfl, rfl, .same _⟩
  | reset =>
    obtain rfl := Host.Outcome.next.inj h
    exact .inl ⟨rfl, rfl⟩

/-! ### A step -/

/-- What a step from `s` to `t` can be: the reset input, another host action, a step of an IDLE block, a command, or the end
of a rejected command word. -/
inductive StepCase (s t : State) : Prop
  | reset : s.hostTurn = some .reset → t = ({ s with host := s.host.tail } : State).assertReset → StepCase s t
  | host (op : HostOp) : s.hostTurn = some op → op ≠ .reset → HostKept s op t → StepCase s t
  | idle : s.hostTurn = none → s.status.busy = false → t = s → StepCase s t
  | command (i : Instr) : s.hostTurn = none → s.status.busy = true → decode s.cmd = .ok i → exec i s = .next t →
      StepCase s t
  | rejected (r : Reject) : s.hostTurn = none → s.status.busy = true → decode s.cmd = .error r →
      t = s.raise (causeOfReject r) → StepCase s t

theorem step_cases {s t : State} (h : step s = .next t) : StepCase s t := by
  cases hturn : s.hostTurn with
  | some op =>
    rw [step_of_hostTurn hturn] at h
    rcases hostStep_cases h with ⟨rfl, ht⟩ | ⟨hop, hk⟩
    · exact .reset hturn ht
    · exact .host op hturn hop ⟨hk.params, hk.descs, hk.stats, hk.raster, hk.result, hk.status⟩
  | none =>
    by_cases hb : s.status.busy = true
    · rw [step_of_busy hturn hb] at h
      cases hd : decode s.cmd with
      | ok i => exact .command i hturn hb hd (by rwa [hd] at h)
      | error r => exact .rejected r hturn hb hd (by rw [hd] at h; exact (Host.Outcome.next.inj h).symm)
    · have hb : s.status.busy = false := by simpa using hb
      rw [step_of_idle hturn hb] at h
      exact .idle hturn hb (Host.Outcome.next.inj h).symm

/-- How a command that answered `t` ended. -/
theorem ended_of_exec {i : Instr} {s t : State} (h : exec i s = .next t) :
    Ended s (if i = .clrst then s.status.clearSticky else s.status) t := by
  obtain ⟨u, hu, he⟩ := exec_ended i s
  rwa [exec_next_inj h hu]

/-- An error of a rejected word is one that is raised (R84, R259). -/
theorem causeOfReject_raised (r : Reject) : causeOfReject r ≠ .notImplemented ∧ causeOfReject r ≠ .composeRange := by
  cases r <;> decide

/-! ### The invariant over steps -/

theorem Status.wf_complete (st : Status) : st.complete.wf := ⟨by simp [legalCodes], by simp⟩

theorem Status.wf_raise (st : Status) {c : Cause} (h : c ≠ .notImplemented) (h' : c ≠ .composeRange) : (st.raise c).wf := by
  refine ⟨?_, by simp⟩
  simp only [Status.raise_err, Status.raise_sub]
  cases c
  case notImplemented => exact absurd rfl h
  case composeRange => exact absurd rfl h'
  all_goals decide

/-- A command that ended holds no raster position, and STATUS is legal (R24, R45, R259). -/
theorem Ended.raster_and_status {s t : State} {st : Status} (h : Ended s st t) : t.pipe.raster = none ∧ t.status.wf := by
  obtain ⟨ds, p, ⟨v, rfl⟩ | ⟨c, hc, hc', rfl⟩⟩ := h
  · exact ⟨rfl, Status.wf_complete _⟩
  · exact ⟨rfl, Status.wf_raise _ hc hc'⟩

/-- A host action keeps STATUS legal: an accepted write to CMD clears DONE as it sets BUSY (R24). -/
theorem StatusAfter.wf {p : Params} {old st : Status} {op : HostOp} (h : StatusAfter p old op st) (hw : old.wf) : st.wf := by
  obtain ⟨hcode, hbd⟩ := hw
  cases h with
  | same => exact ⟨hcode, hbd⟩
  | accepted v hb => exact ⟨hcode, by simp⟩
  | overrun v hb => exact ⟨hcode, hbd⟩
  | cleared v => exact ⟨hcode, fun ⟨hb, hd⟩ => hbd ⟨hb, by simp at hd; exact hd.1⟩⟩

theorem HostKept.inv {s t : State} {op : HostOp} (h : HostKept s op t) (hs : s.Inv) : t.Inv := by
  obtain ⟨hready, hraster, hstatus⟩ := State.inv_iff.1 hs
  exact State.inv_iff.2 ⟨hready.congr h.params h.descs h.stats, h.raster.trans hraster, h.status.wf hstatus⟩

/-- A reset block meets the invariant, whatever its parameters, coder and host (R48). -/
theorem State.inv_resetWith {n : Nat} (hn : 3 ≤ n ∧ n < 2 ^ 32) (p : Params) (epoch : Nat) (c : CoderState)
    (log : List CoderRequest) (host : List HostEvent) (seen : List Word) :
    (State.resetWith n p (Pipeline.reset epoch c log) host seen).Inv where
  handles := by simpa [State.nHandles, State.resetWith] using hn
  images im hm := nomatch (List.eq_of_mem_replicate hm)
  capacity := by simp [State.usedBytes, State.resetWith, slotBytes]
  stats := ⟨Cells.wf_nil, fun _ hc => nomatch hc⟩
  raster := rfl
  status := ⟨(by decide : (0, 0) ∈ legalCodes), by simp [State.resetWith]⟩

/-- Settles O26: the reset input starts afresh, a host action leaves the table and the stats RAM, and a command keeps them
in order (`exec_ready`) and ends in a legal STATUS with no raster position. -/
theorem stepKeepsTheInvariant : Obligations.StepKeepsTheInvariant := by
  intro s t hs h
  obtain ⟨hready, -, -⟩ := State.inv_iff.1 hs
  cases step_cases h with
  | reset _ ht => exact ht ▸ State.inv_resetWith hs.handles ..
  | host op _ _ hk => exact hk.inv hs
  | idle _ _ ht => exact ht ▸ hs
  | command i _ _ _ he => exact State.inv_iff.2 ⟨exec_ready hready he, (ended_of_exec he).raster_and_status⟩
  | rejected r _ _ _ ht =>
    obtain ⟨hc, hc'⟩ := causeOfReject_raised r
    exact ht ▸ State.inv_iff.2 ⟨hready.raise _, rfl, Status.wf_raise _ hc hc'⟩

/-- Settles O27: State.reset is a reset block with three slots. -/
theorem resetMeetsTheInvariant : Obligations.ResetMeetsTheInvariant :=
  State.inv_resetWith (by norm_num) ..

/-! ### How STATUS changes over steps -/

/-- Every error of the fatal class records a code other than OK and RANGE (R244). -/
theorem Cause.errCode_of_fatal {c : Cause} (h : c.fatal = true) : c.errCode ≠ 0 ∧ c.errCode ≠ 5 := by
  cases c
  case range => cases h
  all_goals decide

/-- A command sets FATAL only where it ends with an error of the fatal class, and only CLRST clears it (R25). -/
theorem exec_fatal {i : Instr} {s t : State} (h : exec i s = .next t) :
    (s.status.fatal = false → t.status.fatal = true → t.status.err ≠ 0 ∧ t.status.err ≠ 5) ∧
      (s.status.fatal = true → t.status.fatal = false → i = .clrst) := by
  obtain ⟨ds, p, ⟨v, rfl⟩ | ⟨c, -, -, rfl⟩⟩ := ended_of_exec h
  · by_cases hi : i = .clrst
    · simp [hi]
    · simp +contextual [hi]
  · exact ⟨fun hf hf' => Cause.errCode_of_fatal (by simpa [hf] using hf'), fun hf hf' => by simp [hf] at hf'⟩

/-- No command sets OVERRUN, and only CLRST clears it (R26). -/
theorem exec_overrun {i : Instr} {s t : State} (h : exec i s = .next t) :
    t.status.overrun = s.status.overrun ∨ i = .clrst ∧ t.status.overrun = false := by
  obtain ⟨ds, p, ⟨v, rfl⟩ | ⟨c, -, -, rfl⟩⟩ := ended_of_exec h
  · by_cases hi : i = .clrst
    · exact .inr ⟨hi, by simp [hi]⟩
    · exact .inl (by simp [hi])
  · exact .inl rfl

/-- A host action other than reset changes FATAL only by clearing it, in a write to STATUS with bit 2 set (R22, R25). -/
theorem StatusAfter.fatal_eq_or {p : Params} {old st : Status} {op : HostOp} (h : StatusAfter p old op st) :
    st.fatal = old.fatal ∨ st.fatal = false ∧ ∃ v : Word, op = .write (p.regBase + 4) 32 v ∧ v.getLsbD 2 = true := by
  cases h with
  | cleared v =>
    cases hv : v.getLsbD 2 with
    | false => exact .inl (by rw [Status.w1c_fatal, hv, Bool.not_false, Bool.and_true])
    | true => exact .inr ⟨by rw [Status.w1c_fatal, hv, Bool.not_true, Bool.and_false], v, rfl, hv⟩
  | _ => exact .inl rfl

/-- A host action other than reset sets OVERRUN in a write to CMD while BUSY, and clears it in a write to STATUS with bit 3
set (R22, R26). -/
theorem StatusAfter.overrun_eq_or {p : Params} {old st : Status} {op : HostOp} (h : StatusAfter p old op st) :
    st.overrun = old.overrun ∨
      (st.overrun = true ∧ old.busy = true ∧ ∃ v : Word, op = .write p.regBase 32 v) ∨
      st.overrun = false ∧ ∃ v : Word, op = .write (p.regBase + 4) 32 v ∧ v.getLsbD 3 = true := by
  cases h with
  | overrun v hb => exact .inr (.inl ⟨rfl, hb, v, rfl⟩)
  | cleared v =>
    cases hv : v.getLsbD 3 with
    | false => exact .inl (by rw [Status.w1c_overrun, hv, Bool.not_false, Bool.and_true])
    | true => exact .inr (.inr ⟨by rw [Status.w1c_overrun, hv, Bool.not_true, Bool.and_false], v, rfl, hv⟩)
  | _ => exact .inl rfl

/-- A bit that keeps its value is neither set nor cleared. -/
theorem neither_set_nor_cleared {b b' : Bool} {P Q : Prop} (e : b' = b) :
    (b = false → b' = true → P) ∧ (b = true → b' = false → Q) := by
  subst e
  exact ⟨fun h h' => (nomatch h.symm.trans h'), fun h h' => (nomatch h.symm.trans h')⟩

/-- Settles O18, by what a step can be. -/
theorem fatalChangesOnlyAsItsRuleSays : Obligations.FatalChangesOnlyAsItsRuleSays := by
  intro s t h
  cases step_cases h with
  | reset hturn ht => exact ⟨fun _ hf => (by subst ht; cases hf), fun _ _ => .inr (.inl hturn)⟩
  | host op hturn _ hk =>
    rcases hk.status.fatal_eq_or with e | ⟨hf, v, rfl, hv⟩
    · exact neither_set_nor_cleared e
    · exact ⟨fun _ hf' => (nomatch hf.symm.trans hf'), fun _ _ => .inl ⟨v, hturn, hv⟩⟩
  | idle _ _ ht => exact neither_set_nor_cleared (by rw [ht])
  | command i hturn hb hd he =>
    obtain ⟨hset, hclear⟩ := exec_fatal he
    exact ⟨fun hf hf' => ⟨hturn, hb, hset hf hf'⟩, fun hf hf' => .inr (.inr ⟨hturn, hb, hclear hf hf' ▸ hd⟩)⟩
  | rejected r hturn hb _ ht =>
    subst ht
    exact ⟨fun hf hf' => ⟨hturn, hb, Cause.errCode_of_fatal (by simpa [hf] using hf')⟩, fun hf hf' => by simp [hf] at hf'⟩

/-- Settles O19, by what a step can be. -/
theorem overrunChangesOnlyAsItsRuleSays : Obligations.OverrunChangesOnlyAsItsRuleSays := by
  intro s t h
  cases step_cases h with
  | reset hturn ht => exact ⟨fun _ ho => (by subst ht; cases ho), fun _ _ => .inr (.inl hturn)⟩
  | host op hturn _ hk =>
    rcases hk.status.overrun_eq_or with e | ⟨ho, hb, v, rfl⟩ | ⟨ho, v, rfl, hv⟩
    · exact neither_set_nor_cleared e
    · exact ⟨fun _ _ => ⟨hb, v, hturn⟩, fun _ ho' => (nomatch ho.symm.trans ho')⟩
    · exact ⟨fun _ ho' => (nomatch ho.symm.trans ho'), fun _ _ => .inl ⟨v, hturn, hv⟩⟩
  | idle _ _ ht => exact neither_set_nor_cleared (by rw [ht])
  | command i hturn hb hd he =>
    rcases exec_overrun he with e | ⟨rfl, ho⟩
    · exact neither_set_nor_cleared e
    · exact ⟨fun _ ho' => (nomatch ho.symm.trans ho'), fun _ _ => .inr (.inr ⟨hturn, hb, hd⟩)⟩
  | rejected r _ _ _ ht => exact neither_set_nor_cleared (by rw [ht]; rfl)

/-- A host action other than reset records no outcome: ERR and SUB stay, DONE is not set, BUSY is not cleared, and a write to
CMD alone sets it (R23, R24, R27). -/
theorem StatusAfter.records_nothing {p : Params} {old st : Status} {op : HostOp} (h : StatusAfter p old op st) :
    st.err = old.err ∧ st.sub = old.sub ∧ (old.done = false → st.done = false) ∧
      (old.busy = true → st.busy = true) ∧
      (old.busy = false → st.busy = true → ∃ v : Word, op = .write p.regBase 32 v) := by
  cases h with
  | accepted v _ => exact ⟨rfl, rfl, fun _ => rfl, fun _ => rfl, fun _ _ => ⟨v, rfl⟩⟩
  | cleared v => exact ⟨rfl, rfl, fun hd => by simp [hd], id, fun hb hb' => (nomatch hb.symm.trans hb')⟩
  | _ => exact ⟨rfl, rfl, id, id, fun hb hb' => (nomatch hb.symm.trans hb')⟩

/-- Settles O20: the host's turn and an idle step are two of the things a step can be. -/
theorem onlyCompletionRecordsAnOutcome : Obligations.OnlyCompletionRecordsAnOutcome := by
  intro s t h
  refine ⟨fun op hturn hop => ?_, fun hturn hb => ?_⟩
  · rw [step_of_hostTurn hturn] at h
    obtain ⟨rfl, -⟩ | ⟨-, hk⟩ := hostStep_cases h
    · exact absurd rfl hop
    · obtain ⟨herr, hsub, hdone, hbusy, hset⟩ := hk.status.records_nothing
      exact ⟨herr, hsub, hk.result, hdone, hbusy, hset⟩
  · rw [step_of_idle hturn hb] at h
    exact (Host.Outcome.next.inj h).symm

end Sys2Proof.Machine
end

section
/-! SUPPORT. Pipeline: the commands that are no decode leave the pipelines' storage (10_state.md R43, R45, R46). -/

namespace Sys2Proof.Machine

/-- The pipelines' storage once a raster position is discarded (R45). -/
abbrev Pipeline.rest (p : Pipeline) : Pipeline := { p with raster := none }

@[simp] theorem imgNew_pipe (s : State) : (imgNew s).pipe = s.pipe.rest := by
  unfold imgNew
  simp only
  repeat' split
  all_goals rfl

@[simp] theorem imgClone_pipe (s : State) : (imgClone s).pipe = s.pipe.rest := by
  unfold imgClone
  repeat' split
  all_goals rfl

@[simp] theorem imgRelease_pipe (s : State) : (imgRelease s).pipe = s.pipe.rest := by
  unfold imgRelease
  split
  all_goals rfl

@[simp] theorem imgGet_pipe (s : State) : (imgGet s).pipe = s.pipe.rest := by
  unfold imgGet
  split
  all_goals rfl

@[simp] theorem imgSet_pipe (s : State) : (imgSet s).pipe = s.pipe.rest := by
  unfold imgSet
  repeat' split
  all_goals rfl

@[simp] theorem imgClear_pipe (clrv : Bool) (s : State) : (imgClear clrv s).pipe = s.pipe.rest := by
  unfold imgClear
  split
  all_goals rfl

@[simp] theorem imgResize_pipe (s : State) : (imgResize s).pipe = s.pipe.rest := by
  unfold imgResize
  simp only
  repeat' split
  all_goals rfl

@[simp] theorem imgReadb_pipe (s : State) : (imgReadb s).pipe = s.pipe.rest := by
  unfold imgReadb
  repeat' split
  all_goals rfl

@[simp] theorem imgWriteb_pipe (s : State) : (imgWriteb s).pipe = s.pipe.rest := by
  unfold imgWriteb
  repeat' split
  all_goals rfl

@[simp] theorem compose_pipe (op : ComposeOp) (s : State) : (compose op s).pipe = s.pipe.rest := by
  rw [compose_eq]
  split
  · split
    · rfl
    · exact composeRun_pipe ..
  · rfl

@[simp] theorem genPrecheck_pipe (s : State) : (genPrecheck s).pipe = s.pipe.rest := by
  unfold genPrecheck
  simp only
  repeat' split
  all_goals rfl

/-- Settles O24: each command that is no decode, by its lemma. -/
theorem onlyDecodesTouchThePipeline : Obligations.OnlyDecodesTouchThePipeline := by
  intro i s t h hgen href
  cases i <;> obtain rfl := Host.Outcome.next.inj h
  case nop => rfl
  case imgNew => exact imgNew_pipe s
  case imgClone => exact imgClone_pipe s
  case imgRelease => exact imgRelease_pipe s
  case imgGet => exact imgGet_pipe s
  case imgSet => exact imgSet_pipe s
  case imgClear clrv => exact imgClear_pipe clrv s
  case imgResize => exact imgResize_pipe s
  case imgReadb => exact imgReadb_pipe s
  case imgWriteb => exact imgWriteb_pipe s
  case composeOr => exact compose_pipe .orOp s
  case composeAnd => exact compose_pipe .andOp s
  case composeXor => exact compose_pipe .xorOp s
  case composeXnor => exact compose_pipe .xnorOp s
  case composeReplace => exact compose_pipe .replaceOp s
  case genPrecheck => exact genPrecheck_pipe s
  case genDecodeT0 tp mmr => exact absurd rfl (hgen .t0 tp mmr)
  case genDecodeT1 tp mmr => exact absurd rfl (hgen .t1 tp mmr)
  case genDecodeT2 tp mmr => exact absurd rfl (hgen .t2 tp mmr)
  case genDecodeT3 tp mmr => exact absurd rfl (hgen .t3 tp mmr)
  case refDecodeT0 tp => exact absurd rfl (href .t0 tp)
  case refDecodeT1 tp => exact absurd rfl (href .t1 tp)
  case clrst => rfl

end Sys2Proof.Machine
end

section
/-! SUPPORT. Window: what each register of the window holds and what a host write to it does (10_state.md R20 to R38,
70_reset_and_hazards.md R280, R281), and the command a BUSY block runs (R40). -/

namespace Sys2Proof.Machine

/-! ### Offsets -/

/-- A register is at an aligned offset of the window, and at one only (R20). -/
theorem regAt_aligned {off : Nat} {r : Reg} (h : regAt off = some r) : off < 256 ∧ off % 4 = 0 := by
  rw [regAt_eq_some] at h
  cases r <;> simp at h <;> omega

theorem regAt_inj {off off' : Nat} {r : Reg} (h : regAt off = some r) (h' : regAt off' = some r) : off = off' := by
  rw [regAt_eq_some] at h h'
  cases r <;> simp at h h' <;> omega

theorem regAt_eq_iff {off off' : Nat} {r r' : Reg} (h : regAt off = some r) (h' : regAt off' = some r') :
    off = off' ↔ r = r' := by
  constructor
  · rintro rfl; exact Option.some.inj (h.symm.trans h')
  · rintro rfl; exact regAt_inj h h'

/-- The offsets from 0x40 on are reserved (R38). -/
theorem regAt_of_ge {off : Nat} (h : 0x40 ≤ off) : regAt off = none := by
  cases hr : regAt off with
  | none => rfl
  | some r =>
    rw [regAt_eq_some] at hr
    cases r <;> simp at hr <;> omega

theorem State.busRead_reg {off : Nat} {r : Reg} (h : regAt off = some r) (s : State) : s.busRead off = s.readReg r := by
  unfold State.busRead; rw [h]

theorem State.busWrite_reg {off : Nat} {r : Reg} (h : regAt off = some r) (s : State) (v : Word) :
    s.busWrite off v = s.writeReg r v := by
  unfold State.busWrite; rw [h]

theorem State.busRead_reserved {off : Nat} (h : regAt off = none) (s : State) : s.busRead off = 0 := by
  unfold State.busRead; rw [h]

theorem State.busWrite_reserved {off : Nat} (h : regAt off = none) (s : State) (v : Word) : s.busWrite off v = s := by
  unfold State.busWrite; rw [h]

/-- A host write on its turn, to a register of the window (R65). -/
theorem step_busWrite {s : State} {off : Nat} {r : Reg} {v : Word} {early : Bool} {rest : List HostEvent}
    (hh : s.host = ⟨.write (s.params.regBase + off) 32 v, early⟩ :: rest) (he : s.status.busy = true → early = true)
    (hr : regAt off = some r) : step s = .next (({ s with host := rest } : State).writeReg r v) := by
  obtain ⟨hlt, hal⟩ := regAt_aligned hr
  have hoff : busOffset? s.params (s.params.regBase + off) 32 = some off := busOffset?_eq_some.2 ⟨rfl, rfl, hlt, hal⟩
  rw [step_of_hostTurn (State.hostTurn_eq_some.2 ⟨_, _, hh, rfl, he⟩), hh]
  simp only [State.hostStep, hoff, List.tail_cons, State.busWrite_reg hr]

/-! ### The parameter registers -/

/-- The parameter registers (R30 to R35, R37). -/
def Reg.isParam : Reg → Bool
  | .ha | .hb | .ax | .ay | .av | .dlen | .gbatLo | .gbatHi | .grat | .dx | .dy => true
  | .cmd | .status | .ctrl | .result | .id => false

/-- While BUSY a write to a parameter register is ignored (R280). -/
theorem State.writeReg_param_busy {s : State} {r : Reg} (hp : r.isParam = true) (hb : s.status.busy = true) (v : Word) :
    s.writeReg r v = s := by
  cases r
  case cmd | status | ctrl | result | id => cases hp
  all_goals exact if_pos hb

/-- While IDLE it is stored, and every other register reads as before. -/
theorem State.readReg_writeReg_param {s : State} {r : Reg} (hp : r.isParam = true) (hb : s.status.busy = false) (v : Word)
    (r' : Reg) : (s.writeReg r v).readReg r' = if r' = r then v else s.readReg r' := by
  have hb : ¬s.status.busy = true := by simp [hb]
  cases r
  case cmd | status | ctrl | result | id => cases hp
  all_goals
    simp only [State.writeReg, if_neg hb]
    cases r' <;> rfl

/-- Writing a parameter register, as the host sees it. -/
theorem paramRegister_row {s t : State} {off : Nat} {r : Reg} {x v : Word} (hr : regAt off = some r)
    (hp : r.isParam = true) (hx : s.readReg r = x) (ht : s.status.busy = false → s.writeReg r v = t) :
    s.busRead off = x ∧
    (s.status.busy = false → s.busWrite off v = t ∧
      ∀ o : Nat, (s.busWrite off v).busRead o = if o = off then v else s.busRead o) ∧
    (s.status.busy = true → s.busWrite off v = s ∧
      ∀ rest : List HostEvent, s.host = ⟨.write (s.params.regBase + off) 32 v, true⟩ :: rest →
        step s = .next { s with host := rest }) := by
  rw [s.busRead_reg hr, s.busWrite_reg hr]
  refine ⟨hx, fun hb => ⟨ht hb, fun o => ?_⟩, fun hb => ⟨State.writeReg_param_busy hp hb v, fun rest hh => ?_⟩⟩
  · cases ho : regAt o with
    | none =>
      rw [State.busRead_reserved ho, State.busRead_reserved ho, if_neg]
      rintro rfl
      exact nomatch ho.symm.trans hr
    | some r' =>
      rw [State.busRead_reg ho, State.busRead_reg ho, State.readReg_writeReg_param hp hb]
      exact if_congr (regAt_eq_iff ho hr).symm rfl rfl
  · rw [step_busWrite hh (fun _ => rfl) hr]
    exact congrArg _ (State.writeReg_param_busy (s := { s with host := rest }) hp hb v)

/-- The sixteen registers after reset (R21 to R37). -/
theorem State.readReg_resetWith (n : Nat) (p : Params) (pipe : Pipeline) (host : List HostEvent) (seen : List Word) (r : Reg) :
    (State.resetWith n p pipe host seen).readReg r = if r = .id then idValue else 0 := by
  cases r <;> rfl

/-- Every offset of the window after reset: ID keeps its value (R36, R48). -/
theorem State.busRead_resetWith (n : Nat) (p : Params) (pipe : Pipeline) (host : List HostEvent) (seen : List Word)
    (off : Nat) : (State.resetWith n p pipe host seen).busRead off = if off = 0x3C then 0x4A425244 else 0 := by
  have hid : regAt 0x3C = some .id := rfl
  cases hr : regAt off with
  | none =>
    rw [State.busRead_reserved hr, if_neg]
    rintro rfl
    exact nomatch hr.symm.trans hid
  | some r =>
    rw [State.busRead_reg hr, State.readReg_resetWith]
    exact if_congr (regAt_eq_iff hr hid).symm rfl rfl

/-- No handle names an image after reset (R48). -/
theorem State.image?_resetWith (n : Nat) (p : Params) (pipe : Pipeline) (host : List HostEvent) (seen : List Word)
    (h : Word) : (State.resetWith n p pipe host seen).image? h = none := by
  cases hv : (State.resetWith n p pipe host seen).image? h with
  | none => rfl
  | some im => exact nomatch List.eq_of_mem_replicate (State.mem_descs hv)

/-- Settles O9: each of the eleven rows is a parameter register's. -/
theorem parameterRegistersHoldWritesUnlessBusy : Obligations.ParameterRegistersHoldWritesUnlessBusy := by
  refine ⟨fun off ho => ?_, fun s v row hrow => ?_⟩
  · rw [State.reset, State.busRead_resetWith, if_neg]
    rintro rfl
    simp at ho
  · simp only [List.mem_cons, List.not_mem_nil, or_false] at hrow
    rcases hrow with rfl | rfl | rfl | rfl | rfl | rfl | rfl | rfl | rfl | rfl | rfl
    all_goals exact paramRegister_row rfl rfl rfl fun hb => if_neg (by simp [hb])

/-- Settles O14: State.reset is a reset block. -/
theorem resetStateHoldsTheResetValues : Obligations.ResetStateHoldsTheResetValues :=
  ⟨rfl, rfl, State.image?_resetWith _ _ _ _ _, rfl, rfl, rfl, State.busRead_resetWith _ _ _ _ _⟩

/-! ### CMD, STATUS, CTRL and the registers that ignore writes -/

theorem State.writeCmd_idle {s : State} (hb : s.status.busy = false) (v : Word) : s.writeCmd v = s.accept v :=
  if_neg (by simp [hb])

theorem State.writeCmd_busy {s : State} (hb : s.status.busy = true) (v : Word) :
    s.writeCmd v = { s with status := s.status.setOverrun } := if_pos hb

/-- Settles O6: a host write to CMD is accepted while IDLE and sets OVERRUN while BUSY. -/
theorem cmdWriteStartsACommandOrOverruns : Obligations.CmdWriteStartsACommandOrOverruns := by
  refine ⟨rfl, fun s => rfl, fun s v early rest hh => ⟨fun hb => ?_, fun hb he => ?_⟩⟩
  · refine ⟨({ s with host := rest } : State).accept v, ?_, rfl, rfl⟩
    rw [step_busWrite (off := 0) (r := .cmd) hh (fun hb' => (nomatch hb.symm.trans hb')) rfl]
    exact congrArg _ (State.writeCmd_idle (s := { s with host := rest }) hb v)
  · rw [step_busWrite (off := 0) (r := .cmd) hh (fun _ => he) rfl]
    exact congrArg _ (State.writeCmd_busy (s := { s with host := rest }) hb v)

/-- The value of the STATUS word a host reads (R22). -/
theorem Status.toNat_word (st : Status) : st.word.toNat =
    st.busy.toNat + 2 * st.done.toNat + 4 * st.fatal.toNat + 8 * st.overrun.toNat + 0x100 * st.err.toNat
      + 0x10000 * st.sub.toNat := by
  have := st.busy.toNat_lt
  have := st.done.toNat_lt
  have := st.fatal.toNat_lt
  have := st.overrun.toNat_lt
  have := st.err.isLt
  have := st.sub.isLt
  unfold Status.word
  rw [BitVec.toNat_ofNat, Nat.mod_eq_of_lt]
  omega

/-- A bit of a word, from its value. -/
theorem Word.getLsbD_eq_iff {w : Word} {k : Nat} {b : Bool} : w.getLsbD k = b ↔ w.toNat / 2 ^ k % 2 = b.toNat := by
  rw [BitVec.getLsbD, Nat.testBit_eq_decide_div_mod_eq]
  have := Nat.mod_two_eq_zero_or_one (w.toNat / 2 ^ k)
  cases b <;> simp

/-- A field of a word, from its value. -/
theorem Word.extractLsb'_eq_iff {w : Word} {k n : Nat} {x : BitVec n} :
    w.extractLsb' k n = x ↔ w.toNat / 2 ^ k % 2 ^ n = x.toNat := by
  rw [← BitVec.toNat_inj, BitVec.extractLsb'_toNat, Nat.shiftRight_eq_div_pow]

/-- The fields of the STATUS word, and its reserved bits (R22). -/
theorem Status.word_fields (st : Status) :
    st.word.getLsbD 0 = st.busy ∧ st.word.getLsbD 1 = st.done ∧ st.word.getLsbD 2 = st.fatal ∧
      st.word.getLsbD 3 = st.overrun ∧ st.word.extractLsb' 4 4 = 0 ∧ st.word.extractLsb' 8 4 = st.err ∧
      st.word.extractLsb' 12 4 = 0 ∧ st.word.extractLsb' 16 8 = st.sub ∧ st.word.extractLsb' 24 8 = 0 := by
  have := st.busy.toNat_lt
  have := st.done.toNat_lt
  have := st.fatal.toNat_lt
  have := st.overrun.toNat_lt
  have := st.err.isLt
  have := st.sub.isLt
  simp only [Word.getLsbD_eq_iff, Word.extractLsb'_eq_iff, Status.toNat_word, BitVec.ofNat_eq_ofNat, BitVec.toNat_ofNat]
  omega

/-- Settles O7: the STATUS word, field by field; the write is `Status.w1c`. -/
theorem statusReadsItsFieldsAndWritesClearThem : Obligations.StatusReadsItsFieldsAndWritesClearThem :=
  ⟨State.busRead_resetWith _ _ _ _ _ 0x04, fun s => s.status.word_fields, fun _ _ => rfl⟩

/-- Settles O8: CTRL reads as IRQ_EN in bit 0. -/
theorem ctrlHoldsOnlyIrqEnable : Obligations.CtrlHoldsOnlyIrqEnable := by
  refine ⟨State.busRead_resetWith _ _ _ _ _ 0x08, fun s => ?_, fun s v => ⟨rfl, ?_⟩⟩
  · unfold State.irq
    cases s.irqEn <;> rfl
  · have hread : (s.busWrite 0x08 v).busRead 0x08 = BitVec.ofNat 32 (v.getLsbD 0).toNat := rfl
    rw [hread]
    cases v.getLsbD 0 <;> decide

/-- Settles O10: reserved offsets hold no register, and ID and RESULT ignore writes (R29, R36). -/
theorem idAndReservedOffsetsIgnoreWrites : Obligations.IdAndReservedOffsetsIgnoreWrites :=
  ⟨fun _ _ => ⟨rfl, rfl⟩,
    fun s _ v hge _ => ⟨s.busRead_reserved (regAt_of_ge hge), s.busWrite_reserved (regAt_of_ge hge) v⟩,
    fun _ _ => ⟨rfl, rfl⟩⟩

/-! ### The command a BUSY block runs -/

theorem decodeCompose_wf {cop : Nat} {i : Instr} (h : decodeCompose cop = .ok i) : i.wf = true := by
  unfold decodeCompose at h
  split at h
  all_goals cases h
  all_goals rfl

/-- A GEN_DECODE with MMR = 1 is rejected (R84). -/
theorem decodeGen_wf {tmpl : Nat} {tp mmr : Bool} {i : Instr} (h : decodeGen tmpl tp mmr = .ok i) : i.wf = true := by
  unfold decodeGen at h
  split at h
  · cases h
  · split at h
    all_goals cases h
    all_goals rfl

theorem decodeRef_wf {tmpl : Nat} {tp : Bool} {i : Instr} (h : decodeRef tmpl tp = .ok i) : i.wf = true := by
  unfold decodeRef at h
  split at h
  all_goals cases h
  all_goals rfl

/-- A decoded command is well-formed (R81). -/
theorem decode_wf {w : Word} {i : Instr} (h : decode w = .ok i) : i.wf = true := by
  unfold decode at h
  split at h
  · cases h
  · unfold decodeOpc at h
    split at h
    case h_11 => exact decodeCompose_wf h
    case h_13 => exact decodeGen_wf h
    case h_14 => exact decodeRef_wf h
    all_goals cases h
    all_goals rfl

/-- Settles O5: `decode` accepts well-formed commands only. -/
theorem stepRunsTheDecodedCommand : Obligations.StepRunsTheDecodedCommand := fun s i hturn hb hd =>
  ⟨decode_wf hd, by rw [step_of_busy hturn hb, hd]⟩

end Sys2Proof.Machine
end

section
/-! SUPPORT. Accesses: a host access is legal or refused (20_memory.md R65), and one coder request on the port (R70, R71). -/

namespace Sys2Proof.Machine

/-! ### A host access -/

theorem State.hostStep_read {s : State} {addr width off : Nat} (h : busOffset? s.params addr width = some off) :
    s.hostStep (.read addr width) = .next { s with seen := s.busRead off :: s.seen } := by
  simp only [State.hostStep, h]

theorem State.hostStep_read_illegal {s : State} {addr width : Nat} (h : busOffset? s.params addr width = none) :
    s.hostStep (.read addr width) = .refused .busError := by
  simp only [State.hostStep, h]

theorem State.hostStep_write {s : State} {addr width off : Nat} {data : Word}
    (h : busOffset? s.params addr width = some off) : s.hostStep (.write addr width data) = .next (s.busWrite off data) := by
  simp only [State.hostStep, h]

theorem State.hostStep_write_illegal {s : State} {addr width : Nat} {data : Word}
    (h : busOffset? s.params addr width = none) : s.hostStep (.write addr width data) = .refused .busError := by
  simp only [State.hostStep, h]

/-- Settles O11: `busOffset?` answers exactly for a legal access. -/
theorem onlyAlignedWordAccessesReachTheWindow : Obligations.OnlyAlignedWordAccessesReachTheWindow := by
  intro s addr width data legal
  have hoff (h : legal) : busOffset? s.params addr width = some (addr - s.params.regBase) := by
    obtain ⟨hw, hlo, hhi, hal⟩ := h
    exact busOffset?_eq_some.2 ⟨hw, by omega, by omega, hal⟩
  refine ⟨fun hturn => ?_, fun hturn => ?_⟩
  all_goals rw [step_of_hostTurn hturn]
  · exact ⟨fun h => State.hostStep_read (hoff h), fun h => State.hostStep_read_illegal (busOffset?_eq_none.2 h)⟩
  · exact ⟨fun h => State.hostStep_write (hoff h), fun h => State.hostStep_write_illegal (busOffset?_eq_none.2 h)⟩

/-- A host action is done, or it is an illegal access and refused (R65). -/
theorem State.hostStep_next_or_refused (s : State) (op : HostOp) :
    (∃ t, s.hostStep op = .next t) ∨ s.hostStep op = .refused .busError ∧ ∃ addr width : Nat,
      (op = .read addr width ∨ ∃ data, op = .write addr width data) ∧ busOffset? s.params addr width = none := by
  cases op with
  | read addr width =>
    cases h : busOffset? s.params addr width with
    | some off => exact .inl ⟨_, State.hostStep_read h⟩
    | none => exact .inr ⟨State.hostStep_read_illegal h, addr, width, .inl rfl, h⟩
  | write addr width data =>
    cases h : busOffset? s.params addr width with
    | some off => exact .inl ⟨_, State.hostStep_write h⟩
    | none => exact .inr ⟨State.hostStep_write_illegal h, addr, width, .inr ⟨data, rfl⟩, h⟩
  | bindCoder c after => exact .inl ⟨_, rfl⟩
  | reset => exact .inl ⟨_, rfl⟩

/-- A step that is not the host's answers a next state (60_exceptions.md R247). -/
theorem step_next_of_hostTurn_none {s : State} (h : s.hostTurn = none) : ∃ t, step s = .next t := by
  cases hb : s.status.busy with
  | false => exact ⟨s, step_of_idle h hb⟩
  | true =>
    rw [step_of_busy h hb]
    cases decode s.cmd with
    | error r => exact ⟨_, rfl⟩
    | ok i =>
      obtain ⟨t, ht, -⟩ := exec_ended i s
      exact ⟨t, ht⟩

/-- Settles O12: a step is the host's, which only an illegal access stops, or it is not, and nothing stops it. -/
theorem onlyAnIllegalHostAccessStopsTheMachine : Obligations.OnlyAnIllegalHostAccessStopsTheMachine := by
  intro s
  cases hturn : s.hostTurn with
  | none => exact .inl (step_next_of_hostTurn_none hturn)
  | some op =>
    rw [step_of_hostTurn hturn]
    rcases State.hostStep_next_or_refused { s with host := s.host.tail } op with hnext | ⟨href, addr, width, hop, hoff⟩
    · exact .inl hnext
    · refine .inr ⟨href, addr, width, ?_, busOffset?_eq_none.1 hoff⟩
      rcases hop with rfl | ⟨data, rfl⟩
      · exact .inl rfl
      · exact .inr ⟨data, rfl⟩

/-! ### One coder request -/

/-- A coder to be disturbed after `n + 1` requests answers the next one as before; then `n` are left (R283). -/
theorem CoderState.decode_rebind_succ (now c : CoderState) (n : Nat) (e : Entry) :
    (now.rebind (n + 1) c).decode e = (now.decode e).map fun r => (r.1, r.2.1, r.2.2.rebind n c) := by
  simp only [CoderState.rebind, CoderState.decode]
  cases now.decode e with
  | none => rfl
  | some r => rfl

/-- Settles O47, by what an answered request and one answered FAIL leave. -/
theorem arithDecodeWritesOnlyTheAnsweredEntry : Obligations.ArithDecodeWritesOnlyTheAnsweredEntry := by
  refine ⟨fun p cx hwf => ⟨fun hd => ?_, fun b e' c' hd => ?_⟩, fun s c n hturn => ?_, fun now c n e => ⟨rfl, ?_⟩⟩
  · exact ⟨_, arithDecode_error.2 ⟨hd, rfl⟩, rfl, rfl, rfl⟩
  · exact ⟨_, arithDecode_ok.2 ⟨e', c', hd, rfl⟩, StatsRam.read_write hwf cx e', rfl, rfl, rfl⟩
  · rw [step_of_hostTurn hturn]
    rfl
  · exact CoderState.decode_rebind_succ now c n e

end Sys2Proof.Machine
end

section
/-! SUPPORT. Destination: which slot of the descriptor table a command can change (20_memory.md R62, R78). -/

namespace Sys2Proof.Machine

/-- From `s` to `t` the table changed at most in the slot that HA names. -/
def State.OnlyHaChanged (s t : State) : Prop :=
  t.descs = s.descs ∨ s.ha ≠ 0 ∧ ∃ new, t.descs = (s.setImage s.ha new).descs

namespace State.OnlyHaChanged

variable {s t : State}

theorem same (h : t.descs = s.descs) : s.OnlyHaChanged t := .inl h

/-- A command writes the slot of a handle that it found valid. -/
theorem written {im : Image} (hv : s.image? s.ha = some im) (new : Option Image)
    (h : t.descs = (s.setImage s.ha new).descs) : s.OnlyHaChanged t :=
  .inr ⟨(State.valid_lt hv).1, new, h⟩

/-- Every other handle names the image it named before. -/
theorem image?_eq (h : s.OnlyHaChanged t) {g : Word} (hg : g ≠ s.ha) : t.image? g = s.image? g := by
  rcases h with h | ⟨h0, new, h⟩
  · exact State.image?_congr h g
  · exact (State.image?_congr h g).trans (State.image?_setImage_ne h0 hg new)

end State.OnlyHaChanged

/-- A byte that a handle names is a byte of its image. -/
theorem State.byte?_congr {s t : State} {g : Word} (h : t.image? g = s.image? g) (off : Nat) :
    t.byte? g off = s.byte? g off := by
  unfold State.byte?
  rw [h]

/-- A free slot that is filled is not one that a live image is in (R113). -/
theorem State.image?_fillSlot {s t : State} {k : Nat} {new : Option Image} (hk : s.freeSlot? = some k)
    (ht : t.descs = s.descs.set k new) {g : Word} {im : Image} (hg : s.image? g = some im) : t.image? g = some im := by
  obtain ⟨hfree, -⟩ := State.freeSlot?_eq_some.1 hk
  obtain ⟨h0, hlive⟩ := State.image?_eq_some.1 hg
  refine State.image?_eq_some.2 ⟨h0, ?_⟩
  rw [ht, List.getElem?_set_ne, hlive]
  rintro rfl
  rw [hfree] at hlive
  cases hlive

/-- IMG_NEW leaves every live image (R113). -/
theorem imgNew_image? {s : State} {g : Word} {im : Image} (hg : s.image? g = some im) : (imgNew s).image? g = some im := by
  unfold imgNew
  simp only
  split
  · exact hg
  · split
    · exact hg
    · split
      · exact hg
      · rename_i k hk
        split
        · exact hg
        · exact State.image?_fillSlot hk rfl hg

/-! ### The commands that write no image -/

theorem imgGet_descs (s : State) : (imgGet s).descs = s.descs := by
  unfold imgGet
  split
  all_goals rfl

theorem imgReadb_descs (s : State) : (imgReadb s).descs = s.descs := by
  unfold imgReadb
  split
  · rfl
  · split
    all_goals rfl

theorem genPrecheck_descs (s : State) : (genPrecheck s).descs = s.descs := by
  unfold genPrecheck
  simp only
  split
  · rfl
  · split
    all_goals rfl

/-! ### The commands that write the image HA names -/

theorem imgClone_onlyHaChanged (s : State) : s.OnlyHaChanged (imgClone s) := by
  unfold imgClone
  split
  · exact .same rfl
  · rename_i im hv
    split
    · exact .same rfl
    · exact .written hv _ rfl

theorem imgRelease_onlyHaChanged (s : State) : s.OnlyHaChanged (imgRelease s) := by
  unfold imgRelease
  split
  · exact .same rfl
  · rename_i im hv
    exact .written hv _ rfl

theorem imgSet_onlyHaChanged (s : State) : s.OnlyHaChanged (imgSet s) := by
  unfold imgSet
  split
  · exact .same rfl
  · rename_i im hv
    split
    · exact .written hv _ rfl
    · exact .same rfl

theorem imgClear_onlyHaChanged (clrv : Bool) (s : State) : s.OnlyHaChanged (imgClear clrv s) := by
  unfold imgClear
  split
  · exact .same rfl
  · rename_i im hv
    exact .written hv _ rfl

theorem imgResize_onlyHaChanged (s : State) : s.OnlyHaChanged (imgResize s) := by
  unfold imgResize
  split
  · exact .same rfl
  · rename_i im hv
    simp only
    split
    · exact .same rfl
    · split
      · exact .same rfl
      · split
        · exact .same rfl
        · split
          · exact .same rfl
          · exact .written hv _ rfl

theorem imgWriteb_onlyHaChanged (s : State) : s.OnlyHaChanged (imgWriteb s) := by
  unfold imgWriteb
  split
  · exact .same rfl
  · rename_i im hv
    split
    · exact .written hv _ rfl
    · exact .same rfl

theorem compose_onlyHaChanged (op : ComposeOp) (s : State) : s.OnlyHaChanged (compose op s) := by
  rw [compose_eq]
  split
  · rename_i dst src hv _
    split
    · exact .same rfl
    · exact .written hv _ rfl
  · exact .same rfl

theorem genDecode_onlyHaChanged (t : GenTemplate) (tp mmr : Bool) (s : State) :
    s.OnlyHaChanged (genDecode t tp mmr s) := by
  unfold genDecode
  split
  · exact .same rfl
  · split
    · exact .same rfl
    · rename_i im hv
      split
      · exact .same rfl
      · split
        all_goals exact .written hv _ rfl

theorem refDecode_onlyHaChanged (t : RefTemplate) (tp : Bool) (s : State) : s.OnlyHaChanged (refDecode t tp s) := by
  unfold refDecode
  split
  · rename_i im r hv _
    split
    · exact .same rfl
    · split
      all_goals exact .written hv _ rfl
  · exact .same rfl

/-- Every command but IMG_NEW changes at most the slot that HA names. -/
theorem exec_onlyHaChanged {i : Instr} {s t : State} (hi : i ≠ .imgNew) (h : exec i s = .next t) : s.OnlyHaChanged t := by
  cases i <;> obtain rfl := Host.Outcome.next.inj h
  case imgNew => exact absurd rfl hi
  case nop => exact .same rfl
  case imgClone => exact imgClone_onlyHaChanged s
  case imgRelease => exact imgRelease_onlyHaChanged s
  case imgGet => exact .same (imgGet_descs s)
  case imgSet => exact imgSet_onlyHaChanged s
  case imgClear clrv => exact imgClear_onlyHaChanged clrv s
  case imgResize => exact imgResize_onlyHaChanged s
  case imgReadb => exact .same (imgReadb_descs s)
  case imgWriteb => exact imgWriteb_onlyHaChanged s
  case composeOr => exact compose_onlyHaChanged .orOp s
  case composeAnd => exact compose_onlyHaChanged .andOp s
  case composeXor => exact compose_onlyHaChanged .xorOp s
  case composeXnor => exact compose_onlyHaChanged .xnorOp s
  case composeReplace => exact compose_onlyHaChanged .replaceOp s
  case genPrecheck => exact .same (genPrecheck_descs s)
  case genDecodeT0 tp mmr => exact genDecode_onlyHaChanged .t0 tp mmr s
  case genDecodeT1 tp mmr => exact genDecode_onlyHaChanged .t1 tp mmr s
  case genDecodeT2 tp mmr => exact genDecode_onlyHaChanged .t2 tp mmr s
  case genDecodeT3 tp mmr => exact genDecode_onlyHaChanged .t3 tp mmr s
  case refDecodeT0 tp => exact refDecode_onlyHaChanged .t0 tp s
  case refDecodeT1 tp => exact refDecode_onlyHaChanged .t1 tp s
  case clrst => exact .same rfl

/-- Settles O23: IMG_NEW fills a free slot, and every other command writes at most the slot that HA names. -/
theorem commandsTouchOnlyTheirDestination : Obligations.CommandsTouchOnlyTheirDestination := by
  intro i s t h
  refine ⟨fun hi g hg => ?_, fun hi g im hg => ?_, fun hi => ?_⟩
  · have hsame := (exec_onlyHaChanged hi h).image?_eq hg
    exact ⟨hsame, State.byte?_congr hsame⟩
  · subst hi
    obtain rfl := Host.Outcome.next.inj h
    have hlive := imgNew_image? hg
    exact ⟨hlive, State.byte?_congr (hlive.trans hg.symm)⟩
  · simp only [List.mem_cons, List.not_mem_nil, or_false] at hi
    rcases hi with rfl | rfl | rfl | rfl | rfl <;> obtain rfl := Host.Outcome.next.inj h
    · exact imgGet_descs s
    · exact imgReadb_descs s
    · exact genPrecheck_descs s
    · rfl
    · rfl

end Sys2Proof.Machine
end

section
/-! SUPPORT. Table of a decode: what follows from a replay of its requests, and that every decode command makes its requests
inside its zeroed table (20_memory.md R66, R67, R70, R71, 60_exceptions.md R248). -/

namespace Sys2Proof.Machine

/-! ### What a replay says of the entries -/

/-- The first request of a replay: it is answered and the rest replays from there, or it is the last one. -/
theorem Replay.cons_cases {r : CoderRequest} {rs : List CoderRequest} {E E' : Nat → Entry} {c c' : CoderState}
    (h : Replay (r :: rs) E c E' c') : r.entry = E r.cx ∧
      ((∃ e d, Replay rs (fun a => if a = r.cx then e else E a) d E' c') ∨ rs = [] ∧ ∀ a, E' a = E a) := by
  obtain ⟨he, h⟩ := h
  refine ⟨he, ?_⟩
  cases hd : c.decode r.entry with
  | none =>
    rw [hd] at h
    obtain ⟨-, hrs, hE, -⟩ := h
    exact .inr ⟨hrs, hE⟩
  | some v =>
    obtain ⟨b, e, d⟩ := v
    rw [hd] at h
    obtain ⟨-, h⟩ := h
    exact .inl ⟨e, d, h⟩

/-- An entry that no request names ends as it began. -/
theorem Replay.unnamed {l : List CoderRequest} {E E' : Nat → Entry} {c c' : CoderState} {a : Nat}
    (h : Replay l E c E' c') (ha : ∀ r ∈ l, r.cx ≠ a) : E' a = E a := by
  induction l generalizing E c with
  | nil => exact h.1 a
  | cons r l ih =>
    rw [List.forall_mem_cons] at ha
    obtain ⟨har, hal⟩ := ha
    obtain ⟨-, ⟨e, d, h⟩ | ⟨-, hE⟩⟩ := h.cons_cases
    · rw [ih h hal, if_neg (Ne.symm har)]
    · exact hE a

/-- The first request that names an entry carries it as it began. -/
theorem Replay.first_entry {l m : List CoderRequest} {r : CoderRequest} {E E' : Nat → Entry} {c c' : CoderState}
    (h : Replay (l ++ r :: m) E c E' c') (hl : ∀ r' ∈ l, r'.cx ≠ r.cx) : r.entry = E r.cx := by
  induction l generalizing E c with
  | nil => exact h.cons_cases.1
  | cons r' l ih =>
    rw [List.forall_mem_cons] at hl
    obtain ⟨hr', hl⟩ := hl
    obtain ⟨-, ⟨e, d, h⟩ | ⟨hnil, -⟩⟩ := h.cons_cases
    · rw [ih h hl, if_neg (Ne.symm hr')]
    · simp at hnil

/-! ### The requests of a decode -/

/-- The stats RAM as a decode whose table has `n` entries finds it: they are zeroed (R67). -/
def Pipeline.zeroedEntries (p : Pipeline) (n : Nat) (a : Nat) : Entry := if a < n then 0 else p.stats.read a

/-- A decode whose table has `n` entries took the pipelines from `p` to `q`: its requests name entries of the table, they
replay from the zeroed table and the coder as it was, and the stats RAM is canonical. -/
structure Decoded (n : Nat) (p q : Pipeline) (made : List CoderRequest) : Prop where
  log : q.coderLog = made ++ p.coderLog
  inTable : ∀ r ∈ made, r.cx < n
  replay : Replay made.reverse (p.zeroedEntries n) p.coder q.stats.read q.coder
  wf : q.stats.wf

namespace Decoded

variable {n : Nat} {p q : Pipeline} {made : List CoderRequest}

theorem read_unnamed (D : Decoded n p q made) {a : Nat} (ha : ∀ r ∈ made, r.cx ≠ a) :
    q.stats.read a = p.zeroedEntries n a :=
  D.replay.unnamed fun r hr => ha r (List.mem_reverse.1 hr)

/-- An entry of the table that no request names ends as 0. -/
theorem read_zero (D : Decoded n p q made) {a : Nat} (han : a < n) (ha : ∀ r ∈ made, r.cx ≠ a) : q.stats.read a = 0 :=
  (D.read_unnamed ha).trans (if_pos han)

/-- An entry above the table is kept. -/
theorem read_above (D : Decoded n p q made) {a : Nat} (ha : n ≤ a) : q.stats.read a = p.stats.read a :=
  (D.read_unnamed fun r hr => ((D.inTable r hr).trans_le ha).ne).trans (if_neg ha.not_gt)

/-- The first request for a context carries the entry 0. -/
theorem first_entry (D : Decoded n p q made) {later earlier : List CoderRequest} {r : CoderRequest}
    (hm : made = later ++ r :: earlier) (hr : ∀ r' ∈ earlier, r'.cx ≠ r.cx) : r.entry = 0 := by
  have hrev : made.reverse = earlier.reverse ++ r :: later.reverse := by simp [hm]
  have hin : r.cx < n := D.inTable r (by simp [hm])
  exact ((hrev ▸ D.replay).first_entry fun r' h => hr r' (List.mem_reverse.1 h)).trans (if_pos hin)

end Decoded

/-- Every move of a decode keeps the stats RAM canonical and names contexts of its table alone. -/
theorem jobInv_inTable {n : Nat} (hn : n ≤ statsDepth) (base : List CoderRequest) :
    let P := fun j : Job => j.pipe.stats.wf ∧ ∃ made, j.pipe.coderLog = made ++ base ∧ ∀ r ∈ made, r.cx < n
    JobInv n P P where
  goto _ _ h := h
  ltp _ h := h
  put _ _ _ h := h
  clear _ h := h
  copy _ h := h
  ask hc h ha := by
    obtain ⟨hw, made, hl, hm⟩ := h
    obtain ⟨-, -, -, hlog⟩ := Job.ask_ok_frame ha
    exact ⟨(Job.ask_ok_stats ha hw (hc.trans_le hn)).1, _ :: made, by rw [hlog, hl]; rfl,
      List.forall_mem_cons.2 ⟨hc, hm⟩⟩
  fail hc h ha := by
    obtain ⟨hw, made, hl, hm⟩ := h
    obtain ⟨-, -, -, hs, hlog⟩ := Job.ask_error_frame ha
    exact ⟨hs ▸ hw, _ :: made, by rw [hlog, hl]; rfl, List.forall_mem_cons.2 ⟨hc, hm⟩⟩

/-- A decode that starts in a zeroed table, however it ends: what one induction over its moves gives (R172, R207). -/
theorem decoded_of_run {n : Nat} (hn : n ≤ statsDepth) {p : Pipeline} (hw : p.stats.wf) (im : Image)
    {r : Except Job Job} (hrun : ∀ {P Q : Job → Prop}, JobInv n P Q → P (Job.start n im p) → JobInv.Ends P Q r) :
    JobInv.Ends (fun j => ∃ made, Decoded n p j.pipe made) (fun j => ∃ made, Decoded n p j.pipe made) r := by
  have hzero : (p.stats.zero n).wf := StatsRam.wf_zero hw n
  have hreplay := hrun (jobInv_replay hn (p.zeroedEntries n) p.coder p.coderLog)
    ⟨[], rfl, ⟨StatsRam.read_zero p.stats n, rfl⟩, hzero, nofun⟩
  have htable := hrun (jobInv_inTable hn p.coderLog) ⟨hzero, [], rfl, nofun⟩
  refine ⟨fun j hj => ?_, fun j hj => ?_⟩
  · obtain ⟨made, hl, hr, -⟩ := hreplay.1 j hj
    obtain ⟨hst, made', hl', hm⟩ := htable.1 j hj
    obtain rfl := List.append_cancel_right (hl.symm.trans hl')
    exact ⟨made, hl, hm, hr, hst⟩
  · obtain ⟨made, hl, hr⟩ := hreplay.2 j hj
    obtain ⟨hst, made', hl', hm⟩ := htable.2 j hj
    obtain rfl := List.append_cancel_right (hl.symm.trans hl')
    exact ⟨made, hl, hm, hr, hst⟩

/-! ### The decode commands -/

/-- How a decode command whose table has `n` entries took `s` to `u`: its checks ended it, with another error than the
coder's and the pipelines' storage kept, or it ran, and ended with OK or CODER_EXHAUSTION. -/
inductive DecodeEnd (n : Nat) (s u : State) : Prop
  | checked : ¬(u.status.err = 0 ∨ u.status.err = 3) → u.pipe = s.pipe.rest → DecodeEnd n s u
  | ran (made : List CoderRequest) : u.status.err = 0 ∨ u.status.err = 3 → Decoded n s.pipe u.pipe made → DecodeEnd n s u

namespace DecodeEnd

variable {n : Nat} {s : State}

theorem raised {c : Cause} (h : ¬(c.errCode = 0 ∨ c.errCode = 3)) : DecodeEnd n s (s.raise c) := .checked h rfl

/-- Discarding the raster position changes nothing of what a decode left (R45). -/
theorem completed {j : Job} (h : ∃ made, Decoded n s.pipe j.pipe made) : DecodeEnd n s ((s.putJob s.ha j).complete 0) := by
  obtain ⟨made, hl, hm, hr, hw⟩ := h
  exact .ran made (.inl rfl) ⟨hl, hm, hr, hw⟩

theorem exhausted {j : Job} (h : ∃ made, Decoded n s.pipe j.pipe made) :
    DecodeEnd n s ((s.putJob s.ha j).raise .coderExhaustion) := by
  obtain ⟨made, hl, hm, hr, hw⟩ := h
  exact .ran made (.inr rfl) ⟨hl, hm, hr, hw⟩

end DecodeEnd

theorem genDecode_end (t : GenTemplate) (tp mmr : Bool) {s : State} (hs : s.pipe.stats.wf) :
    DecodeEnd t.statsSize s (genDecode t tp mmr s) := by
  unfold genDecode
  split
  · exact .raised (by decide)
  · split
    · exact .raised (by decide)
    · rename_i im _
      split
      · exact .raised (by decide)
      · have hrun := decoded_of_run t.statsSize_le hs im fun H hj => H.genRun (tp := tp) (a := genAtOf s.gbatLo s.gbatHi) hj
        split
        · rename_i j hj
          exact .completed (hrun.1 j hj)
        · rename_i j hj
          exact .exhausted (hrun.2 j hj)

theorem refDecode_end (t : RefTemplate) (tp : Bool) {s : State} (hs : s.pipe.stats.wf) :
    DecodeEnd t.statsSize s (refDecode t tp s) := by
  unfold refDecode
  split
  · rename_i im r _ _
    split
    · exact .raised (by decide)
    · have hrun := decoded_of_run t.statsSize_le hs im fun H hj => H.refRun (tp := tp) (o := s.refOperands r) hj
      split
      · rename_i j hj
        exact .completed (hrun.1 j hj)
      · rename_i j hj
        exact .exhausted (hrun.2 j hj)
  · exact .raised (by decide)

/-- Settles O56: the checks make no request; a decode that ran has replayed its requests inside its zeroed table. -/
theorem decodesStayInsideTheirTable : Obligations.DecodesStayInsideTheirTable := by
  intro i size tp s u hs hi h
  have hend : DecodeEnd size s u := by
    simp only [List.mem_cons, List.not_mem_nil, or_false, Prod.mk.injEq] at hi
    rcases hi with ⟨rfl, rfl⟩ | ⟨rfl, rfl⟩ | ⟨rfl, rfl⟩ | ⟨rfl, rfl⟩ | ⟨rfl, rfl⟩ | ⟨rfl, rfl⟩ <;>
      obtain rfl := Host.Outcome.next.inj h
    · exact genDecode_end .t0 tp false hs
    · exact genDecode_end .t1 tp false hs
    · exact genDecode_end .t2 tp false hs
    · exact genDecode_end .t3 tp false hs
    · exact refDecode_end .t0 tp hs
    · exact refDecode_end .t1 tp hs
  cases hend with
  | checked herr hpipe =>
    rw [hpipe]
    exact ⟨⟨[], rfl, nofun, by simp, fun h => absurd h herr, fun _ => ⟨rfl, rfl, rfl⟩⟩, hs, fun _ _ => rfl⟩
  | ran made herr D =>
    exact ⟨⟨made, D.log, D.inTable, fun _ _ _ hm hr => D.first_entry hm hr,
      fun _ => ⟨fun a han ha => D.read_zero han ha, D.replay⟩, fun h => absurd herr h⟩, D.wf, fun a ha => D.read_above ha⟩

end Sys2Proof.Machine
end

section
/-! SUPPORT. Encoding: a command word and its fields, the words of each command, and the words of each rejection
(30_encoding.md R81, R83, R84). -/

namespace Sys2Proof

/-! ### The fields of a command word -/

theorem opcOf_eq (w : Word) : opcOf w = w.toNat % 0x100 := by simp [opcOf]
theorem tmplOf_eq (w : Word) : tmplOf w = w.toNat / 0x100 % 4 := by simp [tmplOf, Nat.shiftRight_eq_div_pow]
theorem tpOf_eq (w : Word) : tpOf w = decide (w.toNat / 0x400 % 2 = 1) := Nat.testBit_eq_decide_div_mod_eq
theorem mmrOf_eq (w : Word) : mmrOf w = decide (w.toNat / 0x800 % 2 = 1) := Nat.testBit_eq_decide_div_mod_eq
theorem copOf_eq (w : Word) : copOf w = w.toNat / 0x1000 % 8 := by simp [copOf, Nat.shiftRight_eq_div_pow]
theorem clrvOf_eq (w : Word) : clrvOf w = decide (w.toNat / 0x8000 % 2 = 1) := Nat.testBit_eq_decide_div_mod_eq

theorem rsvOf_eq (w : Word) : rsvOf w = w.toNat / 0x10000 := by
  have := w.isLt
  simp only [rsvOf, BitVec.extractLsb'_toNat, Nat.shiftRight_eq_div_pow]
  omega

/-- The fields make up the word (R81). -/
theorem eq_mkWord_iff {w : Word} {opc tmpl cop : Nat} {tp mmr clrv : Bool} (ho : opc < 0x100) (ht : tmpl < 4)
    (hc : cop < 8) : w = mkWord opc tmpl cop tp mmr clrv ↔
      rsvOf w = 0 ∧ opcOf w = opc ∧ tmplOf w = tmpl ∧ tpOf w = tp ∧ mmrOf w = mmr ∧ copOf w = cop ∧ clrvOf w = clrv := by
  have hw := w.isLt
  simp only [← BitVec.toNat_inj, mkWord, BitVec.toNat_ofNat, rsvOf_eq, opcOf_eq, tmplOf_eq, tpOf_eq, mmrOf_eq, copOf_eq,
    clrvOf_eq]
  cases tp <;> cases mmr <;> cases clrv <;>
    simp only [Bool.toNat_false, Bool.toNat_true, decide_eq_true_eq, decide_eq_false_iff_not] <;> omega

theorem extractLsb'_and_of_kept {w m : Word} {a n : Nat} (h : m.extractLsb' a n = .allOnes n) :
    (w &&& m).extractLsb' a n = w.extractLsb' a n := by
  rw [BitVec.extractLsb'_and, h, BitVec.and_allOnes]

theorem extractLsb'_and_of_ignored {w m : Word} {a n : Nat} (h : m.extractLsb' a n = 0#n) :
    (w &&& m).extractLsb' a n = 0#n := by
  rw [BitVec.extractLsb'_and, h, BitVec.and_zero]

/-! ### The words of a command -/

/-- What a command asks of the fields of its word besides RSV = 0: its opcode, the value of its row's selecting field, and its
operand bits (R83). -/
def Instr.readFrom (w : Word) : Instr → Prop
  | .nop => opcOf w = 0x00
  | .imgNew => opcOf w = 0x01
  | .imgClone => opcOf w = 0x02
  | .imgRelease => opcOf w = 0x03
  | .imgGet => opcOf w = 0x04
  | .imgSet => opcOf w = 0x05
  | .imgClear clrv => opcOf w = 0x06 ∧ clrvOf w = clrv
  | .imgResize => opcOf w = 0x07
  | .imgReadb => opcOf w = 0x08
  | .imgWriteb => opcOf w = 0x09
  | .composeOr => opcOf w = 0x10 ∧ copOf w = 0
  | .composeAnd => opcOf w = 0x10 ∧ copOf w = 1
  | .composeXor => opcOf w = 0x10 ∧ copOf w = 2
  | .composeXnor => opcOf w = 0x10 ∧ copOf w = 3
  | .composeReplace => opcOf w = 0x10 ∧ copOf w = 4
  | .genPrecheck => opcOf w = 0x20
  | .genDecodeT0 tp mmr => opcOf w = 0x21 ∧ tmplOf w = 0 ∧ tpOf w = tp ∧ mmrOf w = mmr
  | .genDecodeT1 tp mmr => opcOf w = 0x21 ∧ tmplOf w = 1 ∧ tpOf w = tp ∧ mmrOf w = mmr
  | .genDecodeT2 tp mmr => opcOf w = 0x21 ∧ tmplOf w = 2 ∧ tpOf w = tp ∧ mmrOf w = mmr
  | .genDecodeT3 tp mmr => opcOf w = 0x21 ∧ tmplOf w = 3 ∧ tpOf w = tp ∧ mmrOf w = mmr
  | .refDecodeT0 tp => opcOf w = 0x22 ∧ tmplOf w = 0 ∧ tpOf w = tp
  | .refDecodeT1 tp => opcOf w = 0x22 ∧ tmplOf w = 1 ∧ tpOf w = tp
  | .clrst => opcOf w = 0x3F

/-- Agreeing with the encoder on the bits that matter is a condition on the fields: each field of the word is masked as a whole,
kept or ignored. -/
theorem and_usedBits_eq_encode_iff {w : Word} {i : Instr} :
    w &&& usedBits i = encode i ↔ rsvOf w = 0 ∧ i.readFrom w := by
  cases i
  all_goals
    rw [encode, eq_mkWord_iff (by decide) (by decide) (by decide)]
    simp (disch := decide) [usedBits, Instr.readFrom, extractLsb'_and_of_kept, extractLsb'_and_of_ignored, rsvOf, opcOf,
      tmplOf, tpOf, mmrOf, copOf, clrvOf]

theorem encode_and_usedBits (i : Instr) : encode i &&& usedBits i = encode i := by
  cases i <;> decide +revert

theorem readFrom_of_decodeCompose {w : Word} {i : Instr} (hopc : opcOf w = 0x10) (h : decodeCompose (copOf w) = .ok i) :
    i.readFrom w := by
  unfold decodeCompose at h
  split at h
  all_goals cases h
  all_goals exact ⟨hopc, ‹_›⟩

theorem readFrom_of_decodeGen {w : Word} {i : Instr} (hopc : opcOf w = 0x21)
    (h : decodeGen (tmplOf w) (tpOf w) (mmrOf w) = .ok i) : i.readFrom w := by
  cases hmmr : mmrOf w with
  | true => rw [hmmr] at h; cases h
  | false =>
    have htmpl : tmplOf w < 4 := BitVec.isLt _
    rw [hmmr] at h
    interval_cases ht : tmplOf w
    all_goals cases h
    all_goals exact ⟨hopc, ht, rfl, hmmr⟩

theorem readFrom_of_decodeRef {w : Word} {i : Instr} (hopc : opcOf w = 0x22)
    (h : decodeRef (tmplOf w) (tpOf w) = .ok i) : i.readFrom w := by
  unfold decodeRef at h
  split at h
  all_goals cases h
  all_goals exact ⟨hopc, ‹_›, rfl⟩

theorem readFrom_of_decodeOpc {w : Word} {i : Instr} (h : decodeOpc w = .ok i) : i.readFrom w := by
  unfold decodeOpc at h
  split at h
  case h_7 hopc => cases h; exact ⟨hopc, rfl⟩
  case h_11 hopc => exact readFrom_of_decodeCompose hopc h
  case h_13 hopc => exact readFrom_of_decodeGen hopc h
  case h_14 hopc => exact readFrom_of_decodeRef hopc h
  all_goals cases h
  all_goals assumption

theorem decodeOpc_of_readFrom {w : Word} {i : Instr} (hwf : i.wf = true) (h : i.readFrom w) : decodeOpc w = .ok i := by
  cases i
  all_goals
    simp only [Instr.readFrom] at h
    simp_all [decodeOpc, decodeCompose, decodeGen, decodeRef, Instr.wf]

theorem decode_of_rsv {w : Word} (h : rsvOf w = 0) : decode w = decodeOpc w := if_neg (not_not_intro h)

theorem decode_of_rsv_ne {w : Word} (h : rsvOf w ≠ 0) : decode w = .error .reservedBits := if_pos h

/-- The words a command is decoded from (R83, R84). -/
theorem decode_eq_ok_iff {w : Word} {i : Instr} : decode w = .ok i ↔ rsvOf w = 0 ∧ i.wf = true ∧ i.readFrom w := by
  by_cases hrsv : rsvOf w = 0
  · refine ⟨fun h => ⟨hrsv, Machine.decode_wf h, ?_⟩, fun ⟨_, hwf, h⟩ => ?_⟩
    · exact readFrom_of_decodeOpc (decode_of_rsv hrsv ▸ h)
    · exact (decode_of_rsv hrsv).trans (decodeOpc_of_readFrom hwf h)
  · simp [decode_of_rsv_ne hrsv, hrsv]

/-- Settles O3: decoding to `i` and agreeing with `encode i` are the same condition on the fields of the word. -/
theorem decodeReadsExactlyTheTableWords : Obligations.DecodeReadsExactlyTheTableWords := fun w i => by
  rw [decode_eq_ok_iff, and_usedBits_eq_encode_iff, and_left_comm]

/-- Settles O2: the word of a command agrees with itself on the bits that matter. -/
theorem encodedInstructionsDecodeBack : Obligations.EncodedInstructionsDecodeBack := fun i h =>
  (decodeReadsExactlyTheTableWords _ i).2 ⟨h, encode_and_usedBits i⟩

/-- Settles O1: the decoder runs on each word. -/
theorem writtenOutWordsDecode : Obligations.WrittenOutWordsDecode := by
  unfold Obligations.WrittenOutWordsDecode
  decide

/-! ### The words of a rejection -/

/-- The words that the decode procedure rejects with each error (R84). -/
def Reject.raisedBy (w : Word) : Reject → Prop
  | .reservedBits => rsvOf w ≠ 0
  | .unknownOpcode => rsvOf w = 0 ∧
      opcOf w ∉ [0x00, 0x01, 0x02, 0x03, 0x04, 0x05, 0x06, 0x07, 0x08, 0x09, 0x10, 0x20, 0x21, 0x22, 0x3F]
  | .badOp => rsvOf w = 0 ∧ opcOf w = 0x10 ∧ 4 < copOf w
  | .badTemplate => rsvOf w = 0 ∧ opcOf w = 0x22 ∧ 1 < tmplOf w
  | .mmrUnsupported => rsvOf w = 0 ∧ opcOf w = 0x21 ∧ mmrOf w = true

theorem decodeCompose_eq_error_iff {cop : Nat} {r : Reject} : decodeCompose cop = .error r ↔ 4 < cop ∧ .badOp = r := by
  rcases cop with _ | _ | _ | _ | _ | cop <;> simp [decodeCompose]

theorem decodeGen_eq_error_iff {tmpl : Nat} {tp mmr : Bool} {r : Reject} :
    decodeGen tmpl tp mmr = .error r ↔ mmr = true ∧ .mmrUnsupported = r := by
  cases mmr with
  | false => rcases tmpl with _ | _ | _ | tmpl <;> simp [decodeGen]
  | true => simp [decodeGen]

theorem decodeRef_eq_error_iff {tmpl : Nat} {tp : Bool} {r : Reject} :
    decodeRef tmpl tp = .error r ↔ 1 < tmpl ∧ .badTemplate = r := by
  rcases tmpl with _ | _ | tmpl <;> simp [decodeRef]

theorem decodeOpc_eq_error_iff {w : Word} {r : Reject} (hrsv : rsvOf w = 0) : decodeOpc w = .error r ↔ r.raisedBy w := by
  unfold decodeOpc
  split
  case h_11 hopc => rw [decodeCompose_eq_error_iff]; cases r <;> simp [Reject.raisedBy, hrsv, hopc]
  case h_13 hopc => rw [decodeGen_eq_error_iff]; cases r <;> simp [Reject.raisedBy, hrsv, hopc]
  case h_14 hopc => rw [decodeRef_eq_error_iff]; cases r <;> simp [Reject.raisedBy, hrsv, hopc]
  case h_16 => cases r <;> simp_all [Reject.raisedBy]
  all_goals cases r <;> simp [Reject.raisedBy, *]

/-- The words a rejection comes from (R84). -/
theorem decode_eq_error_iff {w : Word} {r : Reject} : decode w = .error r ↔ r.raisedBy w := by
  by_cases hrsv : rsvOf w = 0
  · rw [decode_of_rsv hrsv, decodeOpc_eq_error_iff hrsv]
  · rw [decode_of_rsv_ne hrsv]
    cases r <;> simp [Reject.raisedBy, hrsv]

end Sys2Proof

namespace Sys2Proof.Machine

theorem State.busy_of_latched {s : State} {w : Word} (h : s.latched = some w) : s.status.busy = true ∧ s.cmd = w := by
  simpa [State.latched] using h

/-- RESULT is 1 for RANGE only, the one error that is not fatal (R29, R244). -/
theorem Cause.result_of_fatal {c : Cause} (h : c.fatal = true) : c.result = 0 := by
  cases c
  case range => cases h
  all_goals rfl

/-- The state after a fatal error (R243, R246). -/
theorem State.raise_of_fatal (s : State) {c : Cause} (h : c.fatal = true) :
    s.raise c = { s with
      result := 0
      status := { s.status with busy := false, done := true, fatal := true, err := c.errCode, sub := c.subCode }
      pipe := { s.pipe with raster := none } } := by
  simp [State.raise, Status.raise, State.discardRaster, h, Cause.result_of_fatal h]

/-- Settles O4: each rejection ends where `decode_eq_error_iff` places its words, all of them in a fatal error
(`State.raise_of_fatal`); a word in none of these places decodes to a command. -/
theorem rejectedCommandWordReportsItsError : Obligations.RejectedCommandWordReportsItsError := by
  intro s w hturn hlatched v ends known badOp badTemplate mmr
  obtain ⟨hb, rfl⟩ := State.busy_of_latched hlatched
  have hend (r : Reject) (h : r.raisedBy s.cmd) :
      step s = .next (ends (causeOfReject r).errCode (causeOfReject r).subCode) := by
    rw [step_of_busy hturn hb, decode_eq_error_iff.2 h]
    exact congrArg _ (s.raise_of_fatal (by cases r <;> rfl))
  have hbadOp : badOp ↔ opcOf s.cmd = 0x10 ∧ 4 < copOf s.cmd := by rw [opcOf_eq, copOf_eq]
  have hbadTemplate : badTemplate ↔ opcOf s.cmd = 0x22 ∧ 1 < tmplOf s.cmd := by rw [opcOf_eq, tmplOf_eq]
  have hmmr : mmr ↔ opcOf s.cmd = 0x21 ∧ mmrOf s.cmd = true := by rw [opcOf_eq, mmrOf_eq, decide_eq_true_iff]
  rw [← rsvOf_eq, ← opcOf_eq, hbadOp, hbadTemplate, hmmr]
  refine ⟨hend .reservedBits, fun h hk => hend .unknownOpcode ⟨h, hk⟩, fun h hop => hend .badOp ⟨h, hop⟩,
    fun h ht => hend .badTemplate ⟨h, ht⟩, fun h hm => hend .mmrUnsupported ⟨h, hm⟩, fun h hk hop ht hm => ?_⟩
  cases hd : decode s.cmd with
  | ok i => exact ⟨i, rfl, stepRunsTheDecodedCommand s i hturn hb hd⟩
  | error r =>
    have hr := decode_eq_error_iff.1 hd
    cases r with
    | reservedBits => exact absurd h hr
    | unknownOpcode => exact absurd hk hr.2
    | badOp => exact absurd hr.2 hop
    | badTemplate => exact absurd hr.2 ht
    | mmrUnsupported => exact absurd hr.2 hm

end Sys2Proof.Machine
end

section
/-! SUPPORT. Bitmap: what each bitmap buffer command does on a live image, branch by branch (40_bitmap.md R112 to R122). -/

namespace Sys2Proof.Machine

/-! ### Valid handles -/

/-- A nonzero handle names the slot at its index (R112). -/
theorem State.image?_eq_some_iff_live {s : State} {h : Word} {im : Image} : s.image? h = some im ↔
    1 ≤ h.toNat ∧ h.toNat ≤ s.nHandles ∧ s.descs[h.toNat - 1]? = some (some im) := by
  rw [State.image?_eq_some]
  constructor
  · rintro ⟨h0, hd⟩
    have hpos := Word.toNat_pos h0
    have hlt : h.toNat - 1 < s.descs.length := (List.getElem?_eq_some_iff.1 hd).1
    exact ⟨hpos, by unfold State.nHandles; omega, hd⟩
  · rintro ⟨hpos, -, hd⟩
    exact ⟨by rintro rfl; exact absurd hpos (by decide), hd⟩

theorem compose_of_ha_invalid {s : State} (h : s.image? s.ha = none) (op : ComposeOp) :
    compose op s = s.raise .badHandle := by simp [compose, h]

theorem compose_of_hb_invalid {s : State} (h : s.image? s.hb = none) (op : ComposeOp) :
    compose op s = s.raise .badHandle := by simp [compose, h]

theorem genDecode_of_ha_invalid {s : State} (h : s.image? s.ha = none) (t : GenTemplate) (tp : Bool) :
    genDecode t tp false s = s.raise .badHandle := by simp [genDecode, h]

theorem refDecode_of_ha_invalid {s : State} (h : s.image? s.ha = none) (t : RefTemplate) (tp : Bool) :
    refDecode t tp s = s.raise .badHandle := by simp [refDecode, h]

theorem refDecode_of_hb_invalid {s : State} (h : s.image? s.hb = none) (t : RefTemplate) (tp : Bool) :
    refDecode t tp s = s.raise .badHandle := by simp [refDecode, h]

/-- Settles O32: each command that takes a handle looks its image up before it does anything else. -/
theorem invalidHandlesAreRejected : Obligations.InvalidHandlesAreRejected := by
  refine ⟨fun s h im => State.image?_eq_some_iff_live, fun s i clrv tp h hi => ?_, fun s i tp h hi => ?_⟩
  · simp only [List.mem_cons, List.not_mem_nil, or_false] at hi
    rcases hi with rfl | rfl | rfl | rfl | rfl | rfl | rfl | rfl | rfl | rfl | rfl | rfl | rfl | rfl | rfl | rfl | rfl |
      rfl | rfl <;> refine congrArg Host.Outcome.next ?_
    · simp [imgClone, h]
    · simp [imgRelease, h]
    · simp [imgGet, h]
    · simp [imgSet, h]
    · simp [imgClear, h]
    · simp [imgResize, h]
    · simp [imgReadb, h]
    · simp [imgWriteb, h]
    · exact compose_of_ha_invalid h .orOp
    · exact compose_of_ha_invalid h .andOp
    · exact compose_of_ha_invalid h .xorOp
    · exact compose_of_ha_invalid h .xnorOp
    · exact compose_of_ha_invalid h .replaceOp
    · exact genDecode_of_ha_invalid h .t0 tp
    · exact genDecode_of_ha_invalid h .t1 tp
    · exact genDecode_of_ha_invalid h .t2 tp
    · exact genDecode_of_ha_invalid h .t3 tp
    · exact refDecode_of_ha_invalid h .t0 tp
    · exact refDecode_of_ha_invalid h .t1 tp
  · simp only [List.mem_cons, List.not_mem_nil, or_false] at hi
    rcases hi with rfl | rfl | rfl | rfl | rfl | rfl | rfl <;> refine congrArg Host.Outcome.next ?_
    · exact compose_of_hb_invalid h .orOp
    · exact compose_of_hb_invalid h .andOp
    · exact compose_of_hb_invalid h .xorOp
    · exact compose_of_hb_invalid h .xnorOp
    · exact compose_of_hb_invalid h .replaceOp
    · exact refDecode_of_hb_invalid h .t0 tp
    · exact refDecode_of_hb_invalid h .t1 tp

/-- A command that ended with OK raised no error (R240). -/
theorem State.raise_err_ne_zero (s : State) (c : Cause) : (s.raise c).status.err ≠ 0 := by
  rw [State.raise_status, Status.raise_err]
  cases c <;> decide

/-! ### IMG_NEW -/

/-- The image IMG_NEW is asked for: AX × AY pixels, one reference, every byte 0 (R113). -/
def State.askedImage (s : State) : Image := { w := s.ax.toInt.toNat, h := s.ay.toInt.toNat, refcnt := 1, mem := [] }

/-- The block with `im` in the free slot `k`, its handle returned (R113). -/
def State.completeNew (s : State) (k : Nat) (im : Image) : State :=
  State.complete (BitVec.ofNat 32 (k + 1)) { s with descs := s.descs.set k (some im) }

/-- The bitmap memory of the image asked for, as R113 writes it. -/
theorem State.askedImage_need {s : State} (hw : 0 < s.ax.toInt) (hh : 0 < s.ay.toInt) :
    (s.askedImage.need : Int) = (s.ax.toInt + 7) / 8 * s.ay.toInt + 1 := by
  simp [State.askedImage, Image.need, Image.size, Image.stride, Int.toNat_of_nonneg hw.le, Int.toNat_of_nonneg hh.le]

theorem imgNew_nonpositive {s : State} (h : s.ax.toInt ≤ 0 ∨ s.ay.toInt ≤ 0) : imgNew s = s.raise .nonpositiveDims :=
  if_pos h

/-- IMG_NEW after its first check (R113). -/
theorem imgNew_of_pos {s : State} (hw : 0 < s.ax.toInt) (hh : 0 < s.ay.toInt) : imgNew s =
    if s.askedImage.need > sizeLimit then s.raise .sizeOverflow
    else s.freeSlot?.elim (s.raise .noHandle) fun k =>
      if s.usedBytes + s.askedImage.need > s.params.bufCapacity then s.raise .noCapacity
      else s.completeNew k s.askedImage := by
  refine (if_neg (by omega)).trans ?_
  cases s.freeSlot? <;> rfl

/-- Settles O33: the conditions of the rule are those of the checks that IMG_NEW makes after the first (`imgNew_of_pos`). -/
theorem imgNewFollowsItsRule : Obligations.ImgNewFollowsItsRule := by
  intro s w h need
  refine ⟨fun hneg => congrArg _ (imgNew_nonpositive hneg), fun hw hh hsize => congrArg Host.Outcome.next ?_,
    fun hw hh hsize => ?_⟩
  · have hneed : (s.askedImage.need : Int) = need := State.askedImage_need hw hh
    rw [imgNew_of_pos hw hh, if_pos (by unfold sizeLimit; omega)]
  · have hneed : (s.askedImage.need : Int) = need := State.askedImage_need hw hh
    have hfits : ¬ s.askedImage.need > sizeLimit := by unfold sizeLimit; omega
    refine ⟨fun hfull => congrArg Host.Outcome.next ?_, fun k hk hleast => ?_⟩
    · rw [imgNew_of_pos hw hh, if_neg hfits, State.freeSlot?_eq_none.2 hfull]
      rfl
    · have hnew := imgNew_of_pos hw hh
      rw [if_neg hfits, State.freeSlot?_eq_some.2 ⟨hk, hleast⟩, Option.elim_some] at hnew
      exact ⟨fun hcap => congrArg _ (hnew.trans (if_pos (by omega))),
        fun hcap => congrArg _ (hnew.trans (if_neg (by omega)))⟩

/-- An IMG_NEW that ends with OK placed the image asked for in the least free slot (R113). -/
theorem imgNew_ok {s : State} (h : (imgNew s).status.err = 0) : 0 < s.ax.toInt ∧ 0 < s.ay.toInt ∧
    ∃ k, s.freeSlot? = some k ∧ imgNew s = s.completeNew k s.askedImage := by
  by_cases hneg : s.ax.toInt ≤ 0 ∨ s.ay.toInt ≤ 0
  · rw [imgNew_nonpositive hneg] at h
    exact absurd h (s.raise_err_ne_zero _)
  · have hw : 0 < s.ax.toInt := by omega
    have hh : 0 < s.ay.toInt := by omega
    refine ⟨hw, hh, ?_⟩
    rw [imgNew_of_pos hw hh] at h ⊢
    split at h
    · exact absurd h (s.raise_err_ne_zero _)
    · rename_i hfits
      cases hk : s.freeSlot? with
      | none => rw [hk] at h; exact absurd h (s.raise_err_ne_zero _)
      | some k =>
        rw [hk, Option.elim_some] at h
        split at h
        · exact absurd h (s.raise_err_ne_zero _)
        · rename_i hcap
          exact ⟨k, rfl, by rw [if_neg hfits, Option.elim_some, if_neg hcap]⟩

/-- A handle names no image when its slot is free. -/
theorem State.image?_of_free {s : State} {h : Word} (hfree : s.descs[h.toNat - 1]? = some none) : s.image? h = none := by
  simp [State.image?, hfree]

/-- Every handle below the least free one is valid (R113). -/
theorem State.image?_of_lt_freeSlot {s : State} {k : Nat} (hk : s.freeSlot? = some k) {g : Word} (h1 : 1 ≤ g.toNat)
    (hg : g.toNat < k + 1) : s.image? g ≠ none := by
  obtain ⟨hfree, hleast⟩ := State.freeSlot?_eq_some.1 hk
  have hkl : k < s.descs.length := (List.getElem?_eq_some_iff.1 hfree).1
  have hgl : g.toNat - 1 < s.descs.length := by omega
  have hne := hleast (g.toNat - 1) (by omega)
  rw [List.getElem?_eq_getElem hgl] at hne
  obtain ⟨im, him⟩ := Option.ne_none_iff_exists'.1 fun e => hne (congrArg some e)
  have hlive := State.image?_eq_some_iff_live.2
    ⟨h1, by unfold State.nHandles; omega, (List.getElem?_eq_getElem hgl).trans (congrArg some him)⟩
  simp [hlive]

/-- Settles O34: the least free slot fits in a handle, for the invariant bounds the table; the new buffer lists no byte. -/
theorem newImagesAreZero : Obligations.NewImagesAreZero := by
  intro s t hs h hok
  obtain rfl := Host.Outcome.next.inj h
  obtain ⟨hw, hh, k, hk, hnew⟩ := imgNew_ok hok
  obtain ⟨hfree, -⟩ := State.freeSlot?_eq_some.1 hk
  have hkl : k < s.descs.length := (List.getElem?_eq_some_iff.1 hfree).1
  have hhandle : (imgNew s).result.toNat = k + 1 := by
    have hn : s.descs.length < 2 ^ 32 := hs.handles.2
    rw [hnew]
    exact (BitVec.toNat_ofNat _ _).trans (Nat.mod_eq_of_lt (by omega))
  have himage : (imgNew s).image? (imgNew s).result = some s.askedImage := by
    refine State.image?_eq_some_iff_live.2 ⟨by omega, ?_, ?_⟩
    · rw [hhandle, hnew]
      simpa [State.completeNew, State.nHandles] using hkl
    · rw [hhandle, hnew]
      simp [State.completeNew, hkl]
  refine ⟨State.image?_of_free (by rw [hhandle]; exact hfree),
    fun g h1 hg => State.image?_of_lt_freeSlot hk h1 (hhandle ▸ hg), s.askedImage, himage,
    Int.toNat_of_nonneg hw.le, Int.toNat_of_nonneg hh.le, rfl, fun p y => ?_, fun off hoff => ?_⟩
  · simp [Image.bit, State.askedImage]
  · simp only [State.byte?, himage, if_pos hoff]
    rfl

/-! ### IMG_CLONE and IMG_RELEASE -/

section Live

variable {s : State} {im : Image} (hv : s.image? s.ha = some im)
include hv

theorem imgClone_of_max (hmax : im.refcnt = 2 ^ 32 - 1) : imgClone s = s.raise .refcountOverflow := by
  simp [imgClone, hv, refcountMax, hmax]

theorem imgClone_of_ne_max (hmax : im.refcnt ≠ 2 ^ 32 - 1) :
    imgClone s = (s.setImage s.ha (some { im with refcnt := im.refcnt + 1 })).complete s.ha := by
  have hmax : ¬ im.refcnt = refcountMax := hmax
  simp [imgClone, hv, hmax]

theorem imgRelease_of_shared (hn : im.refcnt - 1 ≠ 0) : imgRelease s =
    (s.setImage s.ha (some { im with refcnt := im.refcnt - 1 })).complete (BitVec.ofNat 32 (im.refcnt - 1)) := by
  simp [imgRelease, hv, hn]

theorem imgRelease_of_last (hn : im.refcnt = 1) : imgRelease s = (s.setImage s.ha none).complete 0 := by
  simp [imgRelease, hv, hn]

/-! ### IMG_GET and IMG_SET -/

theorem imgGet_live : imgGet s = s.complete (if im.pix s.ax.toInt s.ay.toInt then 1 else 0) := by
  simp [imgGet, hv]

theorem imgSet_of_inRange (hin : im.inRange s.ax.toInt s.ay.toInt = true) : imgSet s =
    (s.setImage s.ha (some (im.put s.ax.toInt s.ay.toInt (s.av.getLsbD 0)))).complete 0 := by
  simp [imgSet, hv, Image.putPix_eq, hin]

theorem imgSet_of_out (hout : im.inRange s.ax.toInt s.ay.toInt = false) : imgSet s = s.raise .range := by
  simp [imgSet, hv, Image.putPix_eq, hout]

/-- An IMG_SET that ended with OK wrote a pixel of the image (R117). -/
theorem imgSet_ok (hok : (imgSet s).status.err = 0) : im.inRange s.ax.toInt s.ay.toInt = true ∧ imgSet s =
    (s.setImage s.ha (some (im.put s.ax.toInt s.ay.toInt (s.av.getLsbD 0)))).complete 0 := by
  by_cases hin : im.inRange s.ax.toInt s.ay.toInt = true
  · exact ⟨hin, imgSet_of_inRange hv hin⟩
  · rw [imgSet_of_out hv (by simpa using hin)] at hok
    exact absurd hok (s.raise_err_ne_zero _)

/-! ### IMG_CLEAR, IMG_READB and IMG_WRITEB -/

theorem imgClear_live (clrv : Bool) : imgClear clrv s =
    (s.setImage s.ha (some { im with mem := Memory.fill im.size (if clrv then 0xFF else 0x00) })).complete 0 := by
  simp [imgClear, hv]

theorem imgReadb_of_offset {off : Nat} (ho : byteOffset? im s.ax = some off) :
    imgReadb s = s.complete ((im.mem.read off).setWidth 32) := by simp [imgReadb, hv, ho]

theorem imgReadb_of_out (ho : byteOffset? im s.ax = none) : imgReadb s = s.complete 0 := by simp [imgReadb, hv, ho]

theorem imgWriteb_of_offset {off : Nat} (ho : byteOffset? im s.ax = some off) : imgWriteb s =
    (s.setImage s.ha (some { im with mem := im.mem.write off (s.av.setWidth 8) })).complete 0 := by
  simp [imgWriteb, hv, ho]

theorem imgWriteb_of_out (ho : byteOffset? im s.ax = none) : imgWriteb s = s.raise .range := by simp [imgWriteb, hv, ho]

end Live

/-- Settles O35: each branch by its lemma; a freed slot gives back what it used (`State.usedBytes_setImage`). -/
theorem cloneAndReleaseCountReferences : Obligations.CloneAndReleaseCountReferences := by
  intro s im hv hpos
  refine ⟨fun hmax => congrArg _ (imgClone_of_ne_max hv hmax), fun hmax => congrArg _ (imgClone_of_max hv hmax),
    fun hn => congrArg _ (imgRelease_of_shared hv (by omega)),
    fun hn => ⟨_, rfl, imgRelease_of_last hv hn, ?_, ?_⟩⟩
  · rw [imgRelease_of_last hv hn, State.image?_complete]
    exact State.image?_setImage_self hv none
  · rw [imgRelease_of_last hv hn]
    exact State.usedBytes_setImage hv none

/-- Settles O36: R110's pixel is the bit that R60 addresses. -/
theorem imgGetReturnsThePixel : Obligations.ImgGetReturnsThePixel := by
  intro s im hv x y
  refine ⟨fun hx0 hxw hy0 hyh => congrArg Host.Outcome.next ?_, fun hout => congrArg Host.Outcome.next ?_⟩
  · have hin : im.inRange x y = true := (im.inRange_iff x y).2 ⟨hx0, hxw, hy0, hyh⟩
    have hpix : im.pix x y = (im.mem.read (y.toNat * ((im.w + 7) / 8) + x.toNat / 8)).getLsbD (7 - x.toNat % 8) :=
      if_pos hin
    rw [imgGet_live hv, hpix]
  · have hpix : im.pix x y = false := Image.pix_out (by simpa [Image.inRange] using hout)
    rw [imgGet_live hv, hpix]
    rfl

/-- Every stored bit after a PutPix at a signed position inside the image (R111). -/
theorem Image.bit_put_int {im : Image} (h : im.mem.wf) {x y : Int} (hin : im.inRange x y = true) (v : Bool) {p q : Nat}
    (hp : p < 8 * im.stride) :
    (im.put x y v).bit p q = if p = x.toNat ∧ q = y.toNat then v else im.bit p q := by
  obtain ⟨hx0, hxw, hy0, hyh⟩ := (im.inRange_iff x y).1 hin
  have hbit := Image.bit_put h (x := x.toNat) (y := y.toNat) ⟨by omega, by omega⟩ v (q := q) hp
  rwa [Int.toNat_of_nonneg hx0, Int.toNat_of_nonneg hy0] at hbit

/-- Settles O37: PutPix writes one stored bit, in the byte of its pixel. -/
theorem imgSetWritesOnePixel : Obligations.ImgSetWritesOnePixel := by
  intro s im hv hwf x y
  refine ⟨fun hx0 hxw hy0 hyh => ?_, fun hout => congrArg Host.Outcome.next ?_⟩
  · have hin : im.inRange x y = true := (im.inRange_iff x y).2 ⟨hx0, hxw, hy0, hyh⟩
    exact ⟨im.put x y (s.av.getLsbD 0), congrArg _ (imgSet_of_inRange hv hin), Image.put_w .., Image.put_h ..,
      Image.put_refcnt .., fun a ha => Image.read_put_of_ne hwf ha, fun p q hp => Image.bit_put_int hwf hin _ hp⟩
  · exact imgSet_of_out hv (by simpa [Image.inRange] using hout)

/-- Settles O38: an IMG_SET that ended with OK wrote its pixel, and IMG_GET reads the image it left. -/
theorem getAfterSetReturnsTheValue : Obligations.GetAfterSetReturnsTheValue := by
  intro s t im ax ay hv hwf h hok
  obtain rfl := Host.Outcome.next.inj h
  obtain ⟨hin, hset⟩ := imgSet_ok hv hok
  rw [hset]
  have hnow := State.image?_setImage_self hv (some (im.put s.ax.toInt s.ay.toInt (s.av.getLsbD 0)))
  refine ⟨_, _, hnow, Image.put_w .., Image.put_h .., fun p q ⟨hpad, hrow, _⟩ => ?_,
    congrArg Host.Outcome.next (imgGet_live hnow), fun hout => ?_, fun _ => ?_⟩
  · obtain ⟨hx0, hxw, -⟩ := (im.inRange_iff ..).1 hin
    rw [Image.bit_put_int hwf hin _ hrow, if_neg (by omega)]
  · rw [State.complete_result, Image.pix_out (by simpa [Image.inRange] using hout)]
    rfl
  · have hpix := Image.pix_put hwf hin (s.av.getLsbD 0) ax.toInt ay.toInt
    simp only [BitVec.toInt_inj] at hpix
    rw [State.complete_result, hpix]

/-- Settles O39: the fill reaches each byte of the buffer. -/
theorem imgClearFillsEveryByte : Obligations.ImgClearFillsEveryByte := by
  intro s im clrv hv
  refine ⟨_, congrArg _ (imgClear_live hv clrv), rfl, rfl, rfl, fun off hoff => ?_⟩
  rw [Memory.read_fill, if_pos hoff]

/-! ### IMG_RESIZE -/

/-- An image with `h` rows in place of its own: the rows it keeps as they were, the others 0 (R119). -/
def Image.resized (im : Image) (h : Nat) : Image := { im with h := h, mem := im.mem.take (im.stride * min im.h h) }

/-- The bitmap memory of a resized image, as R119 writes it. -/
theorem Image.resized_need (im : Image) {h : Int} (hh : 0 < h) :
    ((im.resized h.toNat).need : Int) = im.stride * h + 1 := by
  simp [Image.resized, Image.need, Image.size, Image.stride, Int.toNat_of_nonneg hh.le]

/-- IMG_RESIZE on a live image: its checks in R119's order. -/
theorem imgResize_live {s : State} {im : Image} (hv : s.image? s.ha = some im) : imgResize s =
    if s.ax.toInt ≠ im.w then s.raise .resizeWidthUnsupported
    else if s.ay.toInt ≤ 0 then s.raise .nonpositiveDims
    else if (im.resized s.ay.toInt.toNat).need > sizeLimit then s.raise .sizeOverflow
    else if s.usedBytes - im.need + (im.resized s.ay.toInt.toNat).need > s.params.bufCapacity then s.raise .noCapacity
    else (s.setImage s.ha (some (im.resized s.ay.toInt.toNat))).complete 0 := by
  unfold imgResize
  rw [hv]
  rfl

/-- A live image's bytes are among those in use (R68). -/
theorem State.need_le_usedBytes {s : State} {h : Word} {im : Image} (hv : s.image? h = some im) :
    im.need ≤ s.usedBytes := by
  have hfreed : (s.setImage h none).usedBytes + im.need = s.usedBytes + 0 := State.usedBytes_setImage hv none
  omega

/-- Settles O40: the rule's integers are the model's naturals, for the image's own bytes are in use. -/
theorem imgResizeKeepsTheKeptRows : Obligations.ImgResizeKeepsTheKeptRows := by
  intro s im _ hv w h need total
  have hlive := imgResize_live hv
  have hused := State.need_le_usedBytes hv
  have hown : (im.need : Int) = im.stride * im.h + 1 := by simp [Image.need, Image.size]
  have hneed (hh : 0 < h) : ((im.resized s.ay.toInt.toNat).need : Int) = need := im.resized_need hh
  refine ⟨fun hw => congrArg Host.Outcome.next ?_, fun hw hh => congrArg Host.Outcome.next ?_,
    fun hw hh hsize => congrArg Host.Outcome.next ?_, fun hw hh hsize hcap => congrArg Host.Outcome.next ?_,
    fun hw hh hsize hcap => ⟨im.resized h.toNat, congrArg Host.Outcome.next ?_, rfl, Int.toNat_of_nonneg hh.le, rfl,
      fun off _ => Memory.read_take ..⟩⟩
  · rw [hlive, if_pos hw]
  · rw [hlive, if_neg (not_not_intro hw), if_pos hh]
  all_goals
    have hneed := hneed hh
    rw [hlive, if_neg (not_not_intro hw), if_neg (by omega)]
  · rw [if_pos (by unfold sizeLimit; omega)]
  · rw [if_neg (by unfold sizeLimit; omega), if_pos (by omega)]
  · rw [if_neg (by unfold sizeLimit; omega), if_neg (by omega)]

/-- Settles O41: AX is an offset of the buffer exactly in the first case. -/
theorem bytePortReadsAndWritesOneByte : Obligations.BytePortReadsAndWritesOneByte := by
  intro s im hv hwf
  refine ⟨fun h0 hlt => ?_, fun hout => ?_⟩
  · have ho : byteOffset? im s.ax = some s.ax.toInt.toNat := if_pos ⟨h0, hlt⟩
    refine ⟨congrArg Host.Outcome.next ?_, _, congrArg _ (imgWriteb_of_offset hv ho), rfl, rfl, rfl,
      fun a => Memory.read_write hwf ..⟩
    rw [imgReadb_of_offset hv ho, BitVec.ofNat_toNat]
  · have ho : byteOffset? im s.ax = none := if_neg (by omega)
    exact ⟨congrArg _ (imgReadb_of_out hv ho), congrArg _ (imgWriteb_of_out hv ho)⟩

end Sys2Proof.Machine
end

section
/-! SUPPORT. Composites: what a COMPOSE of two valid operands leaves, pixel by pixel, and composites one after the other
(41_compose.md R140 to R149). -/

namespace Sys2Proof.Machine

/-! ### The ends of a COMPOSE -/

theorem compose_of_aliased {s : State} {im : Image} (hv : s.image? s.ha = some im) (heq : s.ha = s.hb) (op : ComposeOp) :
    compose op s = s.raise .aliased := by
  have hb : s.image? s.hb = some im := heq ▸ hv
  simp [compose, hb, heq]

theorem refDecode_of_aliased {s : State} {im : Image} (hv : s.image? s.ha = some im) (heq : s.ha = s.hb) (t : RefTemplate)
    (tp : Bool) : refDecode t tp s = s.raise .aliased := by
  have hb : s.image? s.hb = some im := heq ▸ hv
  simp [refDecode, hb, heq]

/-- Settles O44: COMPOSE and REF_DECODE compare their two valid handles before they do anything else. -/
theorem aliasedOperandsAreRejected : Obligations.AliasedOperandsAreRejected := by
  intro s im i tp hv heq hi
  simp only [List.mem_cons, List.not_mem_nil, or_false] at hi
  rcases hi with rfl | rfl | rfl | rfl | rfl | rfl | rfl <;> refine congrArg Host.Outcome.next ?_
  · exact compose_of_aliased hv heq .orOp
  · exact compose_of_aliased hv heq .andOp
  · exact compose_of_aliased hv heq .xorOp
  · exact compose_of_aliased hv heq .xnorOp
  · exact compose_of_aliased hv heq .replaceOp
  · exact refDecode_of_aliased hv heq .t0 tp
  · exact refDecode_of_aliased hv heq .t1 tp

/-- The image that COMPOSE makes of the destination `dst` and the source `src`, placed at (AX, AY) (R140). -/
def State.composite (s : State) (op : ComposeOp) (dst src : Image) : Image :=
  (composeRun op src s.ax.toInt s.ay.toInt (clip s.ax.toInt s.ay.toInt src.w src.h dst.w dst.h)
    { img := dst, pipe := s.pipe }).img

/-- COMPOSE on a valid destination and another valid source: the raster position is discarded, so that the composite in HA's
slot is all its loops leave (R140, R45). -/
theorem exec_compose_live {s : State} {dst src : Image} (hd : s.image? s.ha = some dst) (hs : s.image? s.hb = some src)
    (hne : s.ha ≠ s.hb) (op : ComposeOp) :
    exec (composeInstr op) s = .next ((s.setImage s.ha (some (s.composite op dst src))).complete 0) := by
  have hpipe := composeRun_pipe op src s.ax.toInt s.ay.toInt (clip s.ax.toInt s.ay.toInt src.w src.h dst.w dst.h)
    { img := dst, pipe := s.pipe }
  rw [exec_composeInstr, compose_eq, hd, hs]
  simp only [if_neg hne, State.complete, State.discardRaster, State.putJob, hpipe]
  rfl

/-! ### The composite -/

section Composite

variable {dst : Image} (s : State) (op : ComposeOp) (src : Image)

theorem State.composited (hwf : dst.mem.wf) : Composited op src dst s.ax.toInt s.ay.toInt
    (fun p q => dst.inRange p q = true ∧ src.inRange (p - s.ax.toInt) (q - s.ay.toInt) = true) (s.composite op dst src) :=
  composeRun_composited op src dst s.ax.toInt s.ay.toInt s.pipe hwf

theorem State.memOk_composite (hok : dst.memOk) : (s.composite op dst src).memOk := memOk_composeRun op src _ _ _ hok

/-- Every pixel of a composite (R140, R141). -/
theorem State.pix_composite (hwf : dst.mem.wf) (p q : Int) : (s.composite op dst src).pix p q =
    if dst.inRange p q && src.inRange (p - s.ax.toInt) (q - s.ay.toInt)
    then op.apply (src.pix (p - s.ax.toInt) (q - s.ay.toInt)) (dst.pix p q) else dst.pix p q := by
  have C := s.composited op src hwf
  simp only [Bool.and_eq_true]
  split
  · exact C.inside p q ‹_›
  · exact C.outside p q ‹_›

end Composite

/-- Each row of R142 to R146 is an operator's command and its function. -/
theorem exists_composeOp_of_mem {row : Instr × (Bool → Bool → Bool)}
    (h : row ∈ [(.composeOr, fun s d => s || d), (.composeAnd, fun s d => s && d), (.composeXor, fun s d => s ^^ d),
      (.composeXnor, fun s d => !(s ^^ d)), (.composeReplace, fun s _ => s)]) :
    ∃ op : ComposeOp, row = (composeInstr op, op.apply) := by
  simp only [List.mem_cons, List.not_mem_nil, or_false] at h
  rcases h with h | h | h | h | h
  · exact ⟨.orOp, h⟩
  · exact ⟨.andOp, h⟩
  · exact ⟨.xorOp, h⟩
  · exact ⟨.xnorOp, h⟩
  · exact ⟨.replaceOp, h⟩

/-- Settles O42: HA's slot holds the composite, whose pixels are those of the rule (`State.pix_composite`). -/
theorem composeCombinesThePixels : Obligations.ComposeCombinesThePixels := by
  refine ⟨by decide, fun row hrow s dst src hd hs hne hwf => ?_⟩
  obtain ⟨op, rfl⟩ := exists_composeOp_of_mem hrow
  have C := s.composited op src hwf
  exact ⟨_, exec_compose_live hd hs hne op, C.w, C.h, C.refcnt, s.pix_composite op src hwf⟩

/-- Settles O43: the composite writes pixels of the clipped rectangle, and HB names another slot than HA. -/
theorem composeWritesOnlyTheClippedPixels : Obligations.ComposeWritesOnlyTheClippedPixels := by
  intro op s dst src hd hs hne ⟨_, _, _, _, hwf, _⟩
  have C := s.composited op src hwf
  refine ⟨_, _, exec_compose_live hd hs hne op, State.image?_setImage_self hd _, ?_,
    fun p q ⟨hp, hp', _⟩ => C.padding p q hp hp', fun a ha => C.bytes a fun x y ⟨hx, hy⟩ => ha x y hx hy⟩
  exact (State.image?_setImage_ne (State.valid_lt hd).1 hne.symm _).trans hs

/-! ### Images of one size -/

theorem Image.inRange_of_sameSize {a b : Image} (hw : a.w = b.w) (hh : a.h = b.h) (x y : Int) :
    a.inRange x y = b.inRange x y := by simp [Image.inRange, hw, hh]

theorem Image.isPadding_of_sameSize {a b : Image} (hw : a.w = b.w) (hh : a.h = b.h) (p q : Nat) :
    a.isPadding p q ↔ b.isPadding p q := by simp [Image.isPadding, Image.stride, hw, hh]

/-- Images of one size with the same pixels and the same padding bits have the same buffer. -/
theorem Image.mem_eq_of_pix_padding {a b : Image} (hw : a.w = b.w) (hh : a.h = b.h) (ha : a.memOk) (hb : b.memOk)
    (hw1 : 1 ≤ a.w) (hpix : ∀ x y : Int, a.pix x y = b.pix x y)
    (hpad : ∀ p q : Nat, a.isPadding p q → a.bit p q = b.bit p q) : a.mem = b.mem := by
  refine Image.mem_ext hw hh ha hb hw1 fun p q hp hq => ?_
  by_cases hpw : p < a.w
  · rw [← Image.pix_nat ⟨hpw, hq⟩, ← Image.pix_nat ⟨hw ▸ hpw, hh ▸ hq⟩]
    exact hpix p q
  · exact hpad p q ⟨Nat.le_of_not_lt hpw, hp, hq⟩

/-! ### REPLACE of equal sizes -/

/-- Settles O45: at (0, 0) every pixel of the destination has the source's pixel of its own place land on it. -/
theorem replaceOfEqualSizesCopiesTheSource : Obligations.ReplaceOfEqualSizesCopiesTheSource := by
  intro s dst src hd hs hne ⟨⟨hw1, _⟩, _, _, _, hok⟩ ⟨_, _, _, _, hsrc⟩ hw hh hx hy
  have C := s.composited .replaceOp src hok.1
  have hpix (x y : Int) : (s.composite .replaceOp dst src).pix x y = src.pix x y := by
    have hsize := Image.inRange_of_sameSize hw hh x y
    have hax : s.ax.toInt = 0 := by rw [hx]; rfl
    have hay : s.ay.toInt = 0 := by rw [hy]; rfl
    rw [s.pix_composite .replaceOp src hok.1, hax, hay, Int.sub_zero, Int.sub_zero, hsize, Bool.and_self]
    split
    · rfl
    · rename_i hout
      have hout : src.inRange x y = false := by simpa using hout
      rw [Image.pix_out hout, Image.pix_out (hsize.trans hout)]
  refine ⟨_, _, exec_compose_live hd hs hne .replaceOp,
    State.image?_setImage_self hd _, hpix, fun hpad => ?_⟩
  refine Image.mem_eq_of_pix_padding (C.w.trans hw) (C.h.trans hh) (s.memOk_composite _ src hok) hsrc (C.w ▸ hw1) hpix
    fun p q hp => ?_
  obtain ⟨hleft, hright, hrow⟩ := (Image.isPadding_of_sameSize C.w C.h p q).1 hp
  exact (C.padding p q hleft hright).trans (hpad p q ⟨hleft, hright, hrow⟩)

/-! ### OR-composites -/

/-- `im` is `dst` with the pixels of `f` that lie inside it ORed in. -/
structure OredOnto (dst : Image) (f : Int → Int → Bool) (im : Image) : Prop where
  w : im.w = dst.w
  h : im.h = dst.h
  refcnt : im.refcnt = dst.refcnt
  memOk : im.memOk
  pix : ∀ p q, im.pix p q = (dst.inRange p q && f p q || dst.pix p q)
  padding : ∀ p q : Nat, dst.w ≤ p → p < 8 * dst.stride → im.bit p q = dst.bit p q

namespace OredOnto

variable {dst im im' : Image} {f g : Int → Int → Bool}

theorem inRange (O : OredOnto dst f im) (p q : Int) : im.inRange p q = dst.inRange p q :=
  Image.inRange_of_sameSize O.w O.h p q

/-- One after the other is both at once. -/
theorem trans (O : OredOnto dst f im) (O' : OredOnto im g im') : OredOnto dst (fun p q => g p q || f p q) im' where
  w := O'.w.trans O.w
  h := O'.h.trans O.h
  refcnt := O'.refcnt.trans O.refcnt
  memOk := O'.memOk
  pix p q := by rw [O'.pix, O.pix, O.inRange, Bool.and_or_distrib_left, Bool.or_assoc]
  padding p q hp hp' := by
    have hst : im.stride = dst.stride := by unfold Image.stride; rw [O.w]
    exact (O'.padding p q (O.w ▸ hp) (hst ▸ hp')).trans (O.padding p q hp hp')

/-- What is ORed onto an image determines the result. -/
theorem unique (O : OredOnto dst f im) (O' : OredOnto dst f im') (hw1 : 1 ≤ dst.w) : im = im' := by
  have hw := O.w.trans O'.w.symm
  have hh := O.h.trans O'.h.symm
  have hmem := Image.mem_eq_of_pix_padding hw hh O.memOk O'.memOk (O.w ▸ hw1)
    (fun x y => (O.pix x y).trans (O'.pix x y).symm) fun p q hp => by
      obtain ⟨hleft, hright, -⟩ := (Image.isPadding_of_sameSize O.w O.h p q).1 hp
      exact (O.padding p q hleft hright).trans (O'.padding p q hleft hright).symm
  exact (Image.mk.injEq ..).mpr ⟨hw, hh, O.refcnt.trans O'.refcnt.symm, hmem⟩

end OredOnto

/-- `src` placed at the offset that the words `x` and `y` hold; 0 outside it (R110). -/
def Image.placedAt (src : Image) (x y : Word) (p q : Int) : Bool := src.pix (p - x.toInt) (q - y.toInt)

/-- COMPOSE.OR ORs its placed source onto the destination: a source pixel that is not there reads 0 (R142). -/
theorem State.oredOnto_composite (s : State) {dst : Image} (src : Image) (hok : dst.memOk) :
    OredOnto dst (src.placedAt s.ax s.ay) (s.composite .orOp dst src) := by
  have C := s.composited .orOp src hok.1
  refine ⟨C.w, C.h, C.refcnt, s.memOk_composite .orOp src hok, fun p q => ?_, C.padding⟩
  rw [s.pix_composite .orOp src hok.1]
  unfold Image.placedAt
  cases hd : dst.inRange p q
  · simp
  · cases hs : src.inRange (p - s.ax.toInt) (q - s.ay.toInt)
    · simp [Image.pix_out hs]
    · simp [ComposeOp.apply]

/-- COMPOSE.OR from the source handle `h`, placed at (`x`, `y`): every handle but HA keeps its image. -/
theorem exec_composeOr_from {s : State} {dst src : Image} {h : Word} (x y : Word) (hd : s.image? s.ha = some dst)
    (hs : s.image? h = some src) (hne : s.ha ≠ h) (hok : dst.memOk) :
    ∃ (t : State) (im : Image), exec .composeOr (s.composeFrom h x y) = .next t ∧ t.ha = s.ha ∧
      t.image? s.ha = some im ∧ (∀ g, s.ha ≠ g → t.image? g = s.image? g) ∧ OredOnto dst (src.placedAt x y) im := by
  have hd' : (s.composeFrom h x y).image? (s.composeFrom h x y).ha = some dst := hd
  exact ⟨_, _, exec_compose_live hd' hs hne .orOp, rfl, State.image?_setImage_self hd' _,
    fun g hg => State.image?_setImage_ne (State.valid_lt hd).1 hg.symm _, (s.composeFrom h x y).oredOnto_composite src hok⟩

/-- COMPOSE.OR from `h₁` and then from `h₂`. -/
theorem exec_composeOr_twice {s : State} {dst src₁ src₂ : Image} {h₁ h₂ : Word} (x₁ y₁ x₂ y₂ : Word)
    (hd : s.image? s.ha = some dst) (hs₁ : s.image? h₁ = some src₁) (hs₂ : s.image? h₂ = some src₂) (hne₁ : s.ha ≠ h₁)
    (hne₂ : s.ha ≠ h₂) (hok : dst.memOk) :
    ∃ (a b : State) (im : Image), exec .composeOr (s.composeFrom h₁ x₁ y₁) = .next a ∧
      exec .composeOr (a.composeFrom h₂ x₂ y₂) = .next b ∧ b.image? s.ha = some im ∧
      OredOnto dst (fun p q => src₂.placedAt x₂ y₂ p q || src₁.placedAt x₁ y₁ p q) im := by
  obtain ⟨a, mid, hexec₁, hha, hmid, hkeep, O₁⟩ := exec_composeOr_from x₁ y₁ hd hs₁ hne₁ hok
  rw [← hha] at hmid hne₂
  obtain ⟨b, im, hexec₂, -, him, -, O₂⟩ :=
    exec_composeOr_from x₂ y₂ hmid ((hkeep h₂ (hha ▸ hne₂)).trans hs₂) hne₂ O₁.memOk
  exact ⟨a, b, im, hexec₁, hexec₂, hha ▸ him, O₁.trans O₂⟩

/-- Settles O46: both orders OR the same pixels onto the destination. -/
theorem orCompositesCommute : Obligations.OrCompositesCommute := by
  intro s dst src₁ src₂ h₁ h₂ x₁ y₁ x₂ y₂ hd hs₁ hs₂ hne₁ hne₂ ⟨⟨hw1, _⟩, _, _, _, hok⟩
  obtain ⟨a, b, im, ha, hb, him, O⟩ := exec_composeOr_twice x₁ y₁ x₂ y₂ hd hs₁ hs₂ hne₁ hne₂ hok
  obtain ⟨a', b', im', ha', hb', him', O'⟩ := exec_composeOr_twice x₂ y₂ x₁ y₁ hd hs₂ hs₁ hne₂ hne₁ hok
  have hcomm : im = im' := O.unique (by simpa only [Bool.or_comm] using O') hw1
  exact ⟨a, b, a', b', im, ha, hb, ha', hb', him, hcomm ▸ him'⟩

end Sys2Proof.Machine
end

section
/-! SUPPORT. GenericEnds: how GEN_PRECHECK and the GEN_DECODE and REF_DECODE commands end (42_generic.md R160, R161, R171, R176,
43_refinement.md R208). -/

namespace Sys2Proof.Machine

/-! ### GEN_PRECHECK -/

/-- The DOS guard over the integers of R161. -/
theorem dosReject_toNat_iff {w h : Int} (hw : 0 < w) (hh : 0 < h) (dlen : Nat) :
    dosReject w.toNat h.toNat dlen = true ↔ (w + 7) / 8 * h > 2 ^ 24 ∧ (dlen : Int) < (w + 7) / 8 * h / 256 := by
  obtain ⟨w, rfl⟩ := Int.eq_ofNat_of_zero_le hw.le
  obtain ⟨h, rfl⟩ := Int.eq_ofNat_of_zero_le hh.le
  rw [dosReject_iff, Int.toNat_natCast, Int.toNat_natCast]
  norm_cast

theorem genPrecheck_nonpositive {s : State} (h : s.ax.toInt ≤ 0 ∨ s.ay.toInt ≤ 0) : genPrecheck s = s.raise .badDims :=
  if_pos h

/-- GEN_PRECHECK after its first check (R160). -/
theorem genPrecheck_of_pos {s : State} (hw : 0 < s.ax.toInt) (hh : 0 < s.ay.toInt) : genPrecheck s =
    if dosReject s.ax.toInt.toNat s.ay.toInt.toNat s.dlen.toNat then s.raise .dosGuard else s.complete 0 :=
  if_neg (by omega)

/-- Settles O48: after the sizes GEN_PRECHECK asks the DOS guard alone. -/
theorem precheckRunsTheDosGuard : Obligations.PrecheckRunsTheDosGuard := by
  intro s
  refine ⟨fun h => congrArg Host.Outcome.next (genPrecheck_nonpositive h), fun hw hh ha hd => ?_, fun hw hh hn => ?_⟩ <;>
    refine congrArg Host.Outcome.next ((genPrecheck_of_pos hw hh).trans ?_)
  · exact if_pos ((dosReject_toNat_iff hw hh _).2 ⟨ha, hd⟩)
  · exact if_neg fun h => hn ((dosReject_toNat_iff hw hh _).1 h)

/-! ### GEN_DECODE -/

/-- A command that completed did not record CODER_EXHAUSTION (R242). -/
theorem State.complete_err_ne_three (s : State) (v : Word) : (s.complete v).status.err ≠ 3 :=
  (by decide : (0 : BitVec 4) ≠ 3)

/-- An error with another code is not CODER_EXHAUSTION (R240). -/
theorem State.raise_err_ne_three (s : State) {c : Cause} (hc : c.errCode ≠ 3) : (s.raise c).status.err ≠ 3 := hc

/-- The rows of a GEN_DECODE of `im` (R172). -/
def State.genRows (s : State) (t : GenTemplate) (tp : Bool) (im : Image) : Except Job Job :=
  genRun t tp (genAtOf s.gbatLo s.gbatHi) (Job.start t.statsSize im s.pipe)

theorem dosReject_image_iff {im : Image} {dlen : Nat} :
    dosReject im.w im.h dlen = true ↔ im.size > 2 ^ 24 ∧ dlen < im.size / 256 := dosReject_iff

theorem dosReject_image_eq_false {im : Image} {dlen : Nat} (h : ¬(im.size > 2 ^ 24 ∧ dlen < im.size / 256)) :
    dosReject im.w im.h dlen = false := Bool.eq_false_iff.2 (mt dosReject_image_iff.1 h)

section GenEnds

variable {s : State} {im : Image} {t : GenTemplate} {tp : Bool}

theorem genDecode_of_dosReject (hv : s.image? s.ha = some im) (hd : dosReject im.w im.h s.dlen.toNat = true) :
    genDecode t tp false s = s.raise .dosGuard := by simp [genDecode, hv, hd]

theorem genDecode_of_ok (hv : s.image? s.ha = some im) (hd : dosReject im.w im.h s.dlen.toNat = false) {j : Job}
    (hj : s.genRows t tp im = .ok j) : genDecode t tp false s = (s.putJob s.ha j).complete 0 := by
  unfold State.genRows at hj
  simp [genDecode, hv, hd, hj]

theorem exec_genInstr_of_ok (hv : s.image? s.ha = some im) (hd : dosReject im.w im.h s.dlen.toNat = false) {j : Job}
    (hj : s.genRows t tp im = .ok j) : exec (genInstr t tp false) s = .next ((s.putJob s.ha j).complete 0) :=
  (exec_genInstr ..).trans (congrArg Host.Outcome.next (genDecode_of_ok hv hd hj))

theorem genDecode_of_error (hv : s.image? s.ha = some im) (hd : dosReject im.w im.h s.dlen.toNat = false) {j : Job}
    (hj : s.genRows t tp im = .error j) : genDecode t tp false s = (s.putJob s.ha j).raise .coderExhaustion := by
  unfold State.genRows at hj
  simp [genDecode, hv, hd, hj]

/-- A GEN_DECODE that ended with OK passed the DOS guard and ran its rows (R176). -/
theorem genDecode_err_zero (hv : s.image? s.ha = some im) (he : (genDecode t tp false s).status.err = 0) :
    dosReject im.w im.h s.dlen.toNat = false ∧ ∃ j, s.genRows t tp im = .ok j := by
  cases hd : dosReject im.w im.h s.dlen.toNat with
  | true => exact absurd (genDecode_of_dosReject hv hd ▸ he) (State.raise_err_ne_zero _ _)
  | false =>
    cases hj : s.genRows t tp im with
    | ok j => exact ⟨rfl, j, rfl⟩
    | error j => exact absurd (genDecode_of_error hv hd hj ▸ he) (State.raise_err_ne_zero _ _)

/-- A GEN_DECODE that ended with CODER_EXHAUSTION was failed by the coder in its rows (R176). -/
theorem genDecode_err_three (hv : s.image? s.ha = some im) (he : (genDecode t tp false s).status.err = 3) :
    dosReject im.w im.h s.dlen.toNat = false ∧ ∃ j, s.genRows t tp im = .error j := by
  cases hd : dosReject im.w im.h s.dlen.toNat with
  | true =>
    exact absurd (genDecode_of_dosReject hv hd ▸ he) (State.raise_err_ne_three _ (by decide))
  | false =>
    cases hj : s.genRows t tp im with
    | ok j => exact absurd (genDecode_of_ok hv hd hj ▸ he) (State.complete_err_ne_three _ _)
    | error j => exact ⟨rfl, j, rfl⟩

end GenEnds

/-- Settles O49: the checks come before anything else, in this order. -/
theorem genDecodeChecksInOrder : Obligations.GenDecodeChecksInOrder := by
  intro t tp s
  simp only [exec_genInstr, Host.Outcome.next.injEq]
  exact ⟨if_pos rfl, fun h => genDecode_of_ha_invalid h t tp,
    fun im hv hs hd => genDecode_of_dosReject hv (dosReject_image_iff.2 ⟨hs, hd⟩)⟩

/-! ### REF_DECODE -/

/-- The rows of a REF_DECODE of `im` against the reference `r` (R207). -/
def State.refRows (s : State) (t : RefTemplate) (tp : Bool) (im r : Image) : Except Job Job :=
  refRun t tp (s.refOperands r) (Job.start t.statsSize im s.pipe)

section RefEnds

variable {s : State} {im r : Image} {t : RefTemplate} {tp : Bool}

theorem refDecode_of_ok (hv : s.image? s.ha = some im) (hr : s.image? s.hb = some r) (hne : s.ha ≠ s.hb) {j : Job}
    (hj : s.refRows t tp im r = .ok j) : refDecode t tp s = (s.putJob s.ha j).complete 0 := by
  unfold State.refRows at hj
  simp [refDecode, hv, hr, hne, hj]

theorem refDecode_of_error (hv : s.image? s.ha = some im) (hr : s.image? s.hb = some r) (hne : s.ha ≠ s.hb) {j : Job}
    (hj : s.refRows t tp im r = .error j) : refDecode t tp s = (s.putJob s.ha j).raise .coderExhaustion := by
  unfold State.refRows at hj
  simp [refDecode, hv, hr, hne, hj]

/-- A REF_DECODE that ended with CODER_EXHAUSTION was failed by the coder in its rows (R208). -/
theorem refDecode_err_three (hv : s.image? s.ha = some im) (hr : s.image? s.hb = some r) (hne : s.ha ≠ s.hb)
    (he : (refDecode t tp s).status.err = 3) : ∃ j, s.refRows t tp im r = .error j := by
  cases hj : s.refRows t tp im r with
  | ok j => exact absurd (refDecode_of_ok hv hr hne hj ▸ he) (State.complete_err_ne_three _ _)
  | error j => exact ⟨j, rfl⟩

end RefEnds

end Sys2Proof.Machine
end

section
/-! SUPPORT. GenericRequests: the contexts of the generic templates, how many requests a GEN_DECODE makes, and what one that
succeeds leaves (42_generic.md R163 to R175, R181, 30_encoding.md R86, 70_reset_and_hazards.md R286). -/

namespace Sys2Proof.Machine

/-! ### Context bits -/

/-- A byte of a register as the spec reads it and from the register's value (R9, R86, R87). -/
theorem atByte_eq_signedByte (w : Word) (k : Nat) : atByte w k = signedByte w k := by
  unfold atByte signedByte
  rw [BitVec.toInt_eq_toNat_cond, BitVec.extractLsb'_toNat, Nat.shiftRight_eq_div_pow, Nat.pow_mul]
  norm_num
  split <;> split <;> omega

/-- Bit `b` of a generic context is the pixel of the tap listed at place `b` (R164 to R167). -/
theorem genContextOf_testBit (t : GenTemplate) (a : GenAt) (P : Int → Int → Bool) (x y : Int) (b : Nat) :
    (genContextOf t a P x y).testBit b =
      (t.taps.map fun tap => P (x + (tap.offset a).1) (y + (tap.offset a).2)).getD b false :=
  contextOf_testBit _ b

/-! ### The number of requests -/

/-- The requests a row of `w` pixels needs at most (R286). -/
def rowBound (tp : Bool) (w : Nat) : Nat := (if tp then 1 else 0) + w

theorem requestBound_eq (tp : Bool) (im : Image) : requestBound tp im = im.h * rowBound tp im.w := by
  cases tp <;> simp [requestBound, rowBound, Nat.mul_add, Nat.mul_comm]

theorem genRowLog_length_le (t : GenTemplate) (tp : Bool) (a : GenAt) (old new : Image) (sltp : List Bool) (n y : Nat) :
    (genRowLog t tp a old new sltp n y).length ≤ rowBound tp n := by
  unfold genRowLog rowBound
  rw [List.length_append]
  refine Nat.add_le_add ?_ ?_
  · cases tp <;> simp
  · split <;> simp

/-- Rows of at most `k` requests each. -/
theorem flatMap_range_length_le {f : Nat → List (Nat × Option Bool)} {k : Nat} (hf : ∀ q, (f q).length ≤ k) (y : Nat) :
    ((List.range y).flatMap f).length ≤ y * k := by
  induction y with
  | zero => simp
  | succ y ih =>
    rw [List.range_succ, List.flatMap_append, List.flatMap_singleton, List.length_append, Nat.succ_mul]
    exact Nat.add_le_add ih (hf y)

/-- A GEN_DECODE that the coder fails has made no more requests than the bound, the failed one included (R286). -/
theorem GenFailed.views_length_le {t : GenTemplate} {tp : Bool} {a : GenAt} {im : Image} {base : List (Nat × Option Bool)}
    {c b : Job} {y : Nat} {n : Option Nat} {l : List Bool} {s : Bool} (F : GenFailed t tp a im base c y n b l s) :
    c.views.length ≤ requestBound tp im + base.length := by
  have hrows := flatMap_range_length_le (genRowLog_length_le t tp a im c.img (l ++ [s]) im.w) y
  have hbound : (y + 1) * rowBound tp im.w ≤ requestBound tp im := by
    rw [requestBound_eq]; exact Nat.mul_le_mul_right _ F.lt
  rw [Nat.succ_mul] at hbound
  rw [F.views, List.length_append, List.length_reverse, List.length_append]
  cases n with
  | none =>
    obtain rfl := F.sltp rfl
    have hone : 1 ≤ rowBound true im.w := by unfold rowBound; simp
    simp only [List.length_singleton]
    omega
  | some x =>
    have hx : x < im.w := F.before.w ▸ F.row.lt x rfl
    have hrow := genRowLog_length_le t tp a im c.img (l ++ [s]) x y
    have hlt : rowBound tp x + 1 ≤ rowBound tp im.w := by unfold rowBound; omega
    simp only [List.length_append, List.length_singleton]
    omega

/-! ### A GEN_DECODE that ends with OK -/

/-- A decode adds its requests to the record of the coder port (log entry 17). -/
theorem jobInv_log (n : Nat) (base : List CoderRequest) :
    let P := fun j : Job => ∃ made, j.pipe.coderLog = made ++ base
    JobInv n P P where
  goto _ _ h := h
  ltp _ h := h
  put _ _ _ h := h
  clear _ h := h
  copy _ h := h
  ask _ h ha := by
    obtain ⟨made, hl⟩ := h
    obtain ⟨-, -, -, hlog⟩ := Job.ask_ok_frame ha
    exact ⟨_ :: made, by rw [hlog, hl]; rfl⟩
  fail _ h ha := by
    obtain ⟨made, hl⟩ := h
    obtain ⟨-, -, -, -, hlog⟩ := Job.ask_error_frame ha
    exact ⟨_ :: made, by rw [hlog, hl]; rfl⟩

/-- Every row done has its padding 0, for a copied row has that of the row above (R173, R174). -/
theorem GenSoFar.padding_zero {t : GenTemplate} {tp : Bool} {a : GenAt} {im : Image} {base : List (Nat × Option Bool)}
    {y : Nat} {b : Job} {l : List Bool} (G : GenSoFar t tp a im base y b l) {p q : Nat} (hp : im.w ≤ p)
    (hp' : p < 8 * im.stride) (hq : q < y) : b.img.bit p q = false := by
  induction q with
  | zero =>
    cases hl : tp && rowLtp l 0 with
    | true => exact G.copied p 0 hp' hq hl
    | false => exact G.padding p 0 hp hp' hq hl
  | succ q ih =>
    cases hl : tp && rowLtp l (q + 1) with
    | true => exact (G.copied p (q + 1) hp' hq hl).trans (ih (by omega))
    | false => exact G.padding p (q + 1) hp hp' hq hl

section GenDone

variable {s : State} {im : Image} {t : GenTemplate} {tp : Bool} {j : Job}

/-- What the rows of a GEN_DECODE that ends with OK leave (R172 to R174). -/
theorem genRows_ok (hwf : im.wf) (hj : s.genRows t tp im = .ok j) :
    ∃ l, GenSoFar t tp (genAtOf s.gbatLo s.gbatHi) im (s.pipe.coderLog.map CoderRequest.view) im.h j l := by
  obtain ⟨⟨hw, -⟩, -, -, -, hm⟩ := hwf
  exact (genRun_ends (j := Job.start t.statsSize im s.pipe) hw hm rfl).1 j hj

/-- What the rows of a GEN_DECODE that the coder fails leave (R176). -/
theorem genRows_error (hwf : im.wf) (hj : s.genRows t tp im = .error j) :
    ∃ y n b l v, GenFailed t tp (genAtOf s.gbatLo s.gbatHi) im (s.pipe.coderLog.map CoderRequest.view) j y n b l v := by
  obtain ⟨⟨hw, -⟩, -, -, -, hm⟩ := hwf
  exact (genRun_ends (j := Job.start t.statsSize im s.pipe) hw hm rfl).2 j hj

/-- A script with an answer for every request there can be is not exhausted (R181 (d)). -/
theorem genRows_ok_of_script (hwf : im.wf) {bits : List Bool} (hc : s.pipe.coder = .script bits)
    (hb : requestBound tp im ≤ bits.length) : ∃ j, s.genRows t tp im = .ok j := by
  cases hj : s.genRows t tp im with
  | ok j => exact ⟨j, rfl⟩
  | error j =>
    obtain ⟨y, n, b, l, v, F⟩ := genRows_error hwf hj
    have hlen := F.views_length_le
    obtain ⟨last, made, hlog, -, hans, -⟩ := ((jobInv_script t.statsSize bits s.pipe.coderLog).genRun
      ⟨[], rfl, rfl, Nat.zero_le _, hc⟩).2 j hj
    have hmade := congrArg List.length hans
    simp only [List.length_map, List.length_reverse] at hmade
    rw [Job.views, hlog] at hlen
    simp only [List.length_map, List.length_append, List.length_cons] at hlen
    omega

end GenDone

/-- Settles O50: a long enough script answers every request, and the rows that ended well leave the image. -/
theorem genDecodeCompletes : Obligations.GenDecodeCompletes := by
  intro t tp s im bits hv hwf hdos hc hb
  obtain ⟨j, hj⟩ := genRows_ok_of_script (t := t) hwf hc hb
  obtain ⟨l, G⟩ := genRows_ok hwf hj
  refine ⟨_, j.img, exec_genInstr_of_ok hv (dosReject_image_eq_false hdos) hj, State.image?_setImage_self hv _, rfl, rfl,
    G.w, G.h, G.refcnt, fun p q hp => ?_⟩
  obtain ⟨hp, hp', hq⟩ := (Image.isPadding_of_sameSize G.w G.h p q).1 hp
  exact G.padding_zero hp hp' hq

/-- Settles O51: the layouts are those of the templates, and the rows of the decode carry the log (`GenSoFar`). -/
theorem genDecodeAgreesWithItsRequests : Obligations.GenDecodeAgreesWithItsRequests := by
  refine ⟨?_, by decide, fun t tp s u im hv hwf he herr => ?_⟩
  · intro lo hi P x y g pixels t b
    rw [genContextOf_testBit]
    congr 1
    cases t <;>
      simp [g, pixels, GenTemplate.taps, GenTap.offset, genAtOf, atByte_eq_signedByte, ← Int.sub_eq_add_neg]
  · obtain rfl := Host.Outcome.next.inj ((exec_genInstr ..).symm.trans he)
    obtain ⟨hd, j, hj⟩ := genDecode_err_zero hv herr
    obtain ⟨l, G⟩ := genRows_ok hwf hj
    obtain ⟨made, hlog⟩ := ((jobInv_log t.statsSize s.pipe.coderLog).genRun ⟨[], rfl⟩).1 j hj
    rw [genDecode_of_ok hv hd hj]
    refine ⟨j.img, l, made, State.image?_setImage_self hv _, G.w, G.h, G.refcnt, G.len, hlog, ?_, fun bits hc => ?_,
      fun htp q p hq hp hl => G.copied p q hp hq (by rw [htp, hl]; rfl), fun p q hp => ?_⟩
    · have hviews := G.views
      rw [Job.views, hlog, List.map_append] at hviews
      exact List.append_cancel_right hviews
    · obtain ⟨made', hlog', hans⟩ := ((jobInv_script t.statsSize bits s.pipe.coderLog).genRun
        ⟨[], rfl, rfl, Nat.zero_le _, hc⟩).1 j hj
      obtain rfl := List.append_cancel_right (hlog'.symm.trans hlog)
      exact hans
    · obtain ⟨hp, hp', hq⟩ := (Image.isPadding_of_sameSize G.w G.h p q).1 hp
      exact G.padding_zero hp hp' hq

end Sys2Proof.Machine
end

section
/-! SUPPORT. Partial: the image and the requests of a decode that the coder fails, read off the rows before the failed one and
the failed row (42_generic.md R173, R174, R176, 43_refinement.md R207, R208). -/

namespace Sys2Proof.Machine

/-! ### Stored bits -/

section Bits

variable {im : Image} {y : Nat} {n : Option Nat} {b c : Job}

/-- The failed row leaves the rows above it (R176). -/
theorem RowFailed.bit_other (F : RowFailed y n b c) (D : RowsDone im y b) {p q : Nat} (hp : p < 8 * im.stride)
    (hq : q ≠ y) : c.img.bit p q = b.img.bit p q := F.rest p q (D.stride ▸ hp) hq

/-- The rows after the failed one are as the command found them (R176). -/
theorem RowFailed.bit_below (F : RowFailed y n b c) (D : RowsDone im y b) {p q : Nat} (hp : p < 8 * im.stride)
    (hq : y < q) : c.img.bit p q = im.bit p q := (F.bit_other D hp hq.ne').trans (D.rest p q hp hq.le)

/-- So is the failed row from its failed pixel on, or the whole of it (R176). -/
theorem RowFailed.bit_after (F : RowFailed y n b c) (D : RowsDone im y b) {p : Nat} (hp : p < 8 * im.stride)
    (hx : ∀ x ∈ n, x ≤ p ∧ p < im.w) : c.img.bit p y = im.bit p y :=
  (F.after p (D.stride ▸ hp) (D.w ▸ hx)).trans (D.rest p y hp (Nat.le_refl y))

/-- The failed row's padding is cleared before its first pixel (R174). -/
theorem RowFailed.bit_padding (F : RowFailed y n b c) (D : RowsDone im y b) (hn : n ≠ none) {p : Nat} (hp : im.w ≤ p)
    (hp' : p < 8 * im.stride) : c.img.bit p y = false := F.padding hn p (D.w ▸ hp) (D.stride ▸ hp')

end Bits

namespace GenFailed

variable {t : GenTemplate} {tp : Bool} {a : GenAt} {im : Image} {base : List (Nat × Option Bool)} {c b : Job} {y : Nat}
  {n : Option Nat} {l : List Bool} {v : Bool}

/-- The LTP of a row before the failed one. -/
theorem rowLtp_before (F : GenFailed t tp a im base c y n b l v) {q : Nat} (hq : q < y) :
    rowLtp (l ++ [v]) q = rowLtp l q := rowLtp_snoc (F.before.len.symm ▸ hq)

/-- A copied row before the failed one (R173). -/
theorem bit_copied (F : GenFailed t tp a im base c y n b l v) {p q : Nat} (hp : p < 8 * im.stride) (hq : q < y)
    (hl : (tp && rowLtp (l ++ [v]) q) = true) : c.img.bit p q = if q = 0 then false else c.img.bit p (q - 1) := by
  have D := F.before.toRowsDone
  rw [F.rowLtp_before hq] at hl
  rw [F.row.bit_other D hp hq.ne, F.row.bit_other D hp (by omega), F.before.copied p q hp hq hl]

/-- The padding of a decoded row before the failed one (R174). -/
theorem bit_decoded_padding (F : GenFailed t tp a im base c y n b l v) {p q : Nat} (hp : im.w ≤ p)
    (hp' : p < 8 * im.stride) (hq : q < y) (hl : (tp && rowLtp (l ++ [v]) q) = false) : c.img.bit p q = false := by
  rw [F.rowLtp_before hq] at hl
  exact (F.row.bit_other F.before.toRowsDone hp' hq.ne).trans (F.before.padding p q hp hp' hq hl)

end GenFailed

namespace RefFailed

variable {t : RefTemplate} {tp : Bool} {o : RefOperands} {im : Image} {base : List (Nat × Option Bool)} {c b : Job} {y : Nat}
  {n : Option Nat} {l : List Bool} {v : Bool}

/-- The padding of a row before the failed one (R174). -/
theorem bit_decoded_padding (F : RefFailed t tp o im base c y n b l v) {p q : Nat} (hp : im.w ≤ p)
    (hp' : p < 8 * im.stride) (hq : q < y) : c.img.bit p q = false :=
  (F.row.bit_other F.before.toRowsDone hp' hq.ne).trans (F.before.padding p q hp hp' hq)

/-- A pixel decoded before the failure that takes an implicit value holds it (R207). -/
theorem pix_implied (F : RefFailed t tp o im base c y n b l v) {p q : Nat} {m : Bool} (hp : p < im.w)
    (hpq : q < y ∨ q = y ∧ ∃ x ∈ n, p < x) (hi : implied tp o (l ++ [v]) p q = true) (hm : implicitValue o p q = some m) :
    c.img.pix p q = m := by
  rcases hpq with hq | ⟨rfl, x, hx, hpx⟩
  · have hl : (tp && rowLtp l q) = true := by
      rw [← rowLtp_snoc (b := v) (F.before.len.symm ▸ hq)]
      exact (Bool.and_eq_true_iff.1 hi).1
    exact (F.row.pix_before (by omega)).trans (F.before.implied p q m hp hq hl hm)
  · exact F.held x hx p m hpx hi hm

end RefFailed

/-! ### The decode commands -/

/-- What the rows of a REF_DECODE that the coder fails leave (R208). -/
theorem refRows_error {s : State} {im r : Image} {t : RefTemplate} {tp : Bool} {j : Job} (hwf : im.wf)
    (hj : s.refRows t tp im r = .error j) : ∃ y n b l v, RefFailed t tp (s.refOperands r) im (s.pipe.coderLog.map CoderRequest.view) j y n b l v := by
  obtain ⟨⟨hw, -⟩, -, -, -, hm⟩ := hwf
  exact (refRun_ends (j := Job.start t.statsSize im s.pipe) hw hm rfl).2 j hj

/-- A GEN_DECODE that ended with CODER_EXHAUSTION, as its failed rows say. -/
theorem genDecode_exhausted {t : GenTemplate} {tp : Bool} {s u : State} {im : Image} (hv : s.image? s.ha = some im)
    (hwf : im.wf) (he : exec (genInstr t tp false) s = .next u) (herr : u.status.err = 3) :
    ∃ j y n b l v, u = (s.putJob s.ha j).raise .coderExhaustion ∧
      GenFailed t tp (genAtOf s.gbatLo s.gbatHi) im (s.pipe.coderLog.map CoderRequest.view) j y n b l v := by
  obtain rfl := Host.Outcome.next.inj ((exec_genInstr ..).symm.trans he)
  obtain ⟨hd, j, hj⟩ := genDecode_err_three hv herr
  obtain ⟨y, n, b, l, v, F⟩ := genRows_error hwf hj
  exact ⟨j, y, n, b, l, v, genDecode_of_error hv hd hj, F⟩

/-- A REF_DECODE that ended with CODER_EXHAUSTION, as its failed rows say. -/
theorem refDecode_exhausted {t : RefTemplate} {tp : Bool} {s u : State} {im r : Image} (hv : s.image? s.ha = some im)
    (hr : s.image? s.hb = some r) (hne : s.ha ≠ s.hb) (hwf : im.wf) (he : exec (refInstr t tp) s = .next u)
    (herr : u.status.err = 3) : ∃ j y n b l v, u = (s.putJob s.ha j).raise .coderExhaustion ∧
      RefFailed t tp (s.refOperands r) im (s.pipe.coderLog.map CoderRequest.view) j y n b l v := by
  obtain rfl := Host.Outcome.next.inj ((exec_refInstr ..).symm.trans he)
  obtain ⟨j, hj⟩ := refDecode_err_three hv hr hne herr
  obtain ⟨y, n, b, l, v, F⟩ := refRows_error hwf hj
  exact ⟨j, y, n, b, l, v, refDecode_of_error hv hr hne hj, F⟩

/-- Settles O54: what the rows before the failed one and the failed row leave (`GenFailed`, `RefFailed`). -/
theorem failedDecodesLeaveThePartialImage : Obligations.FailedDecodesLeaveThePartialImage := by
  refine ⟨?_, ?_⟩
  · intro t tp s u im hv hwf he herr a
    obtain ⟨j, y, n, b, l, v, rfl, F⟩ := genDecode_exhausted hv hwf he herr
    have D := F.before.toRowsDone
    refine ⟨j.img, l ++ [v], y, n, State.image?_setImage_self hv _, F.row.w.trans D.w, F.row.h.trans D.h,
      F.row.refcnt.trans D.refcnt, F.lt, F.sltp, D.w ▸ F.row.lt, F.decoded, F.views, fun p q hp _ =>
        ⟨fun hq hl => ?_, fun hq hl hw => ?_, ?_, ?_, fun hq => ?_⟩⟩
    · exact F.bit_copied hp hq hl
    · exact F.bit_decoded_padding hw hp hq hl
    · rintro rfl hn hw
      exact F.row.bit_padding D hn hw hp
    · rintro rfl hx
      exact F.row.bit_after D hp hx
    · exact F.row.bit_below D hp hq
  · intro t tp s u im r hv hr hne hwf he herr o
    obtain ⟨j, y, n, b, l, v, rfl, F⟩ := refDecode_exhausted hv hr hne hwf he herr
    have D := F.before.toRowsDone
    refine ⟨j.img, l ++ [v], y, n, State.image?_setImage_self hv _,
      (State.image?_setImage_ne (State.valid_lt hv).1 hne.symm _).trans hr, F.row.w.trans D.w, F.row.h.trans D.h,
      F.row.refcnt.trans D.refcnt, F.lt, F.sltp, fun x hx => ⟨D.w ▸ F.row.lt x hx, F.asked x hx⟩, F.views,
      fun p q m hp hpq hi hm => F.pix_implied hp hpq hi hm, fun p q hp _ => ⟨fun hq hw => ?_, ?_, fun hq => ?_⟩⟩
    · rcases hq with hq | ⟨rfl, hn⟩
      · exact F.bit_decoded_padding hw hp hq
      · exact F.row.bit_padding D hn hw hp
    · rintro rfl hx
      exact F.row.bit_after D hp hx
    · exact F.row.bit_below D hp hq

end Sys2Proof.Machine
end

section
/-! SUPPORT. Forced: the decode of the same rows without and with typical prediction, every SLTP request answered 0
(42_generic.md R172, R181). -/

namespace Sys2Proof.Machine

/-! ### One row against a script -/

/-- The LTP step against a script (R172, R207). -/
theorem Job.ltpStep_script {j : Job} {cx : Nat} {b : Bool} {bs : List Bool} (h : j.pipe.coder = .script (b :: bs)) :
    ∃ j', j.ltpStep cx = .ok j' ∧ j'.pipe.coder = .script bs ∧ j'.img = j.img ∧ j'.pipe.ltp = (j.pipe.ltp ^^ b) ∧
      j'.views = (cx, some b) :: j.views := by
  obtain ⟨j₁, ha, hc, hi, hl, hv⟩ := Job.ask_script (cx := cx) h
  exact ⟨_, Job.ltpStep_ok.2 ⟨b, j₁, ha, rfl⟩, hc, hi, congrArg (· ^^ b) hl, hv⟩

/-- While LTP is 0, `pixels` asks the answers `r` of a script, with the requests `chunk`, and takes the image from `im` to
`im'`, whatever else the pipelines hold (R172). -/
def AsksRow (pixels : Job → Except Job Job) (r : List Bool) (im im' : Image) (chunk : List (Nat × Option Bool)) : Prop :=
  ∀ (j : Job) (rest : List Bool), j.img = im → j.pipe.ltp = false → j.pipe.coder = .script (r ++ rest) →
    ∃ j', pixels j = .ok j' ∧ j'.img = im' ∧ j'.pipe.ltp = false ∧ j'.pipe.coder = .script rest ∧
      j'.views = chunk.reverse ++ j.views

/-- The pixels of a generic row (R172). -/
theorem genPixels_asksRow (t : GenTemplate) (a : GenAt) (y : Nat) (im : Image) {r : List Bool} (hr : r.length = im.w) :
    ∃ (im' : Image) (chunk : List (Nat × Option Bool)), chunk.length = im.w ∧ im'.w = im.w ∧
      AsksRow (genPixels t a y) r im im' chunk := by
  obtain ⟨im', chunk, hlen, hw, -, hrun⟩ := pixelLoop_script (fun x j => genPixel t a (j.goto x y)) y
    (fun im x => genContext t a im x y) (fun _ _ _ => genPixel_ok) im.w (im.clearPadding y) r hr.ge
  refine ⟨im', chunk, hlen, hw, fun j rest hi hl hc => ?_⟩
  obtain ⟨p, hloop, hltp, hcoder, hlog⟩ := hrun j.pipe rest hc
  refine ⟨⟨im', p⟩, ?_, rfl, hltp.trans hl, ?_, hlog⟩
  · unfold genPixels
    rw [hi]
    exact hloop
  · rw [← hr, List.drop_length] at hcoder
    exact hcoder

/-! ### Two decodes in step -/

/-- After `y` rows a decode without typical prediction stands at `b` and one with it at `c`: the same image, the same requests,
`chunks`, a row at a time, but for the SLTP request of each row, and the same rows of answers still to come (R181). -/
structure InStep (cx w : Nat) (rows : List (List Bool)) (base : List (Nat × Option Bool)) (y : Nat) (b c : Job)
    (chunks : List (List (Nat × Option Bool))) : Prop where
  img : c.img = b.img
  width : b.img.w = w
  ltp : b.pipe.ltp = false
  ltpTp : c.pipe.ltp = false
  coder : b.pipe.coder = .script (rows.drop y).flatten
  coderTp : c.pipe.coder = .script ((rows.drop y).flatMap fun r => false :: r)
  len : chunks.length = y
  widths : ∀ k ∈ chunks, k.length = w
  views : b.views = chunks.flatten.reverse ++ base
  viewsTp : c.views = (chunks.flatMap fun k => (cx, some false) :: k).reverse ++ base

/-- Where both decodes start: the answers are rows of a script, and with typical prediction each follows a 0 (R181). -/
theorem InStep.start (n cx : Nat) (im : Image) (s : State) (rows : List (List Bool)) :
    InStep cx im.w rows (s.pipe.coderLog.map CoderRequest.view) 0
      (Job.start n im (s.withCoder (.script rows.flatten)).pipe)
      (Job.start n im (s.withCoder (.script (rows.flatMap fun r => false :: r))).pipe) [] :=
  ⟨rfl, rfl, rfl, rfl, rfl, rfl, rfl, nofun, rfl, rfl⟩

/-- One more row, whose pixels the two decodes ask for alike. -/
theorem InStep.succ {cx w y : Nat} {rows : List (List Bool)} {base : List (Nat × Option Bool)} {b c : Job}
    {chunks : List (List (Nat × Option Bool))} (I : InStep cx w rows base y b c chunks) (hy : y < rows.length)
    {pixels pixelsTp : Job → Except Job Job} {im' : Image} {chunk : List (Nat × Option Bool)} (hlen : chunk.length = w)
    (hw : im'.w = w) (hp : AsksRow pixels rows[y] b.img im' chunk) (hpTp : AsksRow pixelsTp rows[y] b.img im' chunk) :
    ∃ b' k c', pixels (b.goto 0 y) = .ok b' ∧ (c.goto 0 y).ltpStep cx = .ok k ∧ k.pipe.ltp = false ∧
      pixelsTp k = .ok c' ∧ InStep cx w rows base (y + 1) b' c' (chunks ++ [chunk]) := by
  have hdrop : rows.drop y = rows[y] :: rows.drop (y + 1) := List.drop_eq_getElem_cons hy
  have hcoder := I.coder
  have hcoderTp := I.coderTp
  rw [hdrop, List.flatten_cons] at hcoder
  rw [hdrop, List.flatMap_cons, List.cons_append] at hcoderTp
  obtain ⟨b', hb, hbi, hbl, hbc, hbv⟩ := hp (b.goto 0 y) _ rfl I.ltp hcoder
  obtain ⟨k, hk, hkc, hki, hkl, hkv⟩ := Job.ltpStep_script (j := c.goto 0 y) (cx := cx) hcoderTp
  have hkl : k.pipe.ltp = false := hkl.trans (congrArg (· ^^ false) I.ltpTp)
  obtain ⟨c', hc, hci, hcl, hcc, hcv⟩ := hpTp k _ (hki.trans I.img) hkl hkc
  refine ⟨b', k, c', hb, hk, hkl, hc, ⟨hci.trans hbi.symm, hbi ▸ hw, hbl, hcl, hbc, hcc, by simp [I.len], fun r hr => ?_, ?_,
    ?_⟩⟩
  · rcases List.mem_append.1 hr with hr | hr
    · exact I.widths r hr
    · exact List.mem_singleton.1 hr ▸ hlen
  · rw [hbv, Job.views_goto, I.views]
    simp
  · rw [hcv, hkv, Job.views_goto, I.viewsTp]
    simp

/-- The rows of a generic decode without and with typical prediction (R181). -/
theorem genRows_inStep {t : GenTemplate} {a : GenAt} {w : Nat} {rows : List (List Bool)} {base : List (Nat × Option Bool)}
    {b c : Job} (I : InStep t.tpCx w rows base 0 b c []) (hrows : ∀ r ∈ rows, r.length = w) {n : Nat} (hn : n ≤ rows.length) :
    ∃ b' c' chunks, loopE n (genRow t false a) b = .ok b' ∧ loopE n (genRow t true a) c = .ok c' ∧
      InStep t.tpCx w rows base n b' c' chunks := by
  induction n with
  | zero => exact ⟨b, c, [], rfl, rfl, I⟩
  | succ n ih =>
    obtain ⟨b₁, c₁, chunks, hb, hc, I₁⟩ := ih (by omega)
    have hr : rows[n].length = b₁.img.w := (hrows _ (List.getElem_mem _)).trans I₁.width.symm
    obtain ⟨im', chunk, hlen, hw, hp⟩ := genPixels_asksRow t a n b₁.img hr
    obtain ⟨b', k, c', hb', hk, hkl, hc', I'⟩ := I₁.succ hn (hlen.trans I₁.width) (hw.trans I₁.width) hp hp
    refine ⟨b', c', _, (loopE_succ_of_ok hb).trans hb', (loopE_succ_of_ok hc).trans ?_, I'⟩
    rw [genRow_tp, hk]
    exact (if_neg (by simp [hkl])).trans hc'

/-- Settles O52: the two decodes go in step, a row at a time (`InStep.succ`). -/
theorem forcedTpGivesThePlainGenericDecode : Obligations.ForcedTpGivesThePlainGenericDecode := by
  intro t s im rows hv _ hdos hlen hrows
  obtain ⟨b, c, chunks, hb, hc, I⟩ := genRows_inStep (a := genAtOf s.gbatLo s.gbatHi)
    (InStep.start t.statsSize t.tpCx im s rows) hrows hlen.ge
  have hd := dosReject_image_eq_false hdos
  have hvC (k : CoderState) : (s.withCoder k).image? (s.withCoder k).ha = some im := hv
  refine ⟨_, _, chunks, exec_genInstr_of_ok (hvC (.script (rows.flatMap fun r => false :: r))) hd hc,
    exec_genInstr_of_ok (hvC (.script rows.flatten)) hd hb, rfl, rfl, ?_, I.ltpTp, I.len, I.widths, I.views, I.viewsTp⟩
  have hput (k : CoderState) (j : Job) : (((s.withCoder k).putJob s.ha j).complete 0).image? s.ha = some j.img :=
    State.image?_setImage_self (hvC k) _
  exact (hput _ c).trans ((congrArg some I.img).trans (hput _ b).symm)

end Sys2Proof.Machine
end

section
/-! SUPPORT. PriorContents: two generic decodes in lockstep over images that hold the same decoded pixels and may differ
elsewhere (42_generic.md R172 to R175, R181). -/

namespace Sys2Proof.Machine

/-- Two loops in lockstep: what relates their states is kept while the first one does not fail, and then the second does not
either. -/
theorem loopE_simulates {α β : Type} {R : Nat → α → β → Prop} {f : Nat → α → Except α α} {g : Nat → β → Except β β} {a : α}
    {b : β} (n : Nat) (h0 : R 0 a b)
    (hf : ∀ k a b, k < n → R k a b → ∀ a', f k a = .ok a' → ∃ b', g k b = .ok b' ∧ R (k + 1) a' b') :
    ∀ a', loopE n f a = .ok a' → ∃ b', loopE n g b = .ok b' ∧ R n a' b' := by
  induction n with
  | zero => exact fun a' ha => ⟨b, rfl, by cases ha; exact h0⟩
  | succ n ih =>
    intro a' ha
    cases hr : loopE n f a with
    | error e => rw [loopE_succ_of_error hr] at ha; cases ha
    | ok a₁ =>
      obtain ⟨b₁, hb, hR⟩ := ih (fun k a b hk => hf k a b (by omega)) a₁ hr
      obtain ⟨b', hb', hR'⟩ := hf n a₁ b₁ (by omega) hR a' ((loopE_succ_of_ok hr).symm.trans ha)
      exact ⟨b', (loopE_succ_of_ok hb).trans hb', hR'⟩

/-! ### Images that agree on some of their bits -/

/-- An image with the sizes and references of `base` and a canonical buffer. -/
structure Image.Like (base im : Image) : Prop where
  w : im.w = base.w
  h : im.h = base.h
  refcnt : im.refcnt = base.refcnt
  ok : im.memOk

namespace Image.Like

variable {base im : Image}

theorem stride (L : base.Like im) : im.stride = base.stride := by unfold Image.stride; rw [L.w]

theorem put (L : base.Like im) (x y : Int) (v : Bool) : base.Like (im.put x y v) :=
  ⟨by simp [L.w], by simp [L.h], by simp [L.refcnt], Image.memOk_put L.ok x y v⟩

theorem clearPadding (L : base.Like im) (hw : 1 ≤ base.w) {y : Nat} (hy : y < base.h) : base.Like (im.clearPadding y) :=
  ⟨L.w, L.h, L.refcnt, Image.memOk_clearPadding L.ok (L.w ▸ hw) (L.h ▸ hy)⟩

theorem copyRow (L : base.Like im) {y : Nat} (hy : y < base.h) : base.Like (im.copyRow y) :=
  ⟨L.w, L.h, L.refcnt, Image.memOk_copyRow L.ok (L.h ▸ hy)⟩

end Image.Like

/-- Two images like `base` that hold the same stored bits at the positions of `R`. -/
structure Image.AgreeOn (base : Image) (R : Nat → Nat → Prop) (im im' : Image) : Prop where
  left : base.Like im
  right : base.Like im'
  bits : ∀ p q : Nat, p < 8 * base.stride → R p q → im.bit p q = im'.bit p q

/-- The positions of the rows before row `y`. -/
def above (y _p q : Nat) : Prop := q < y

/-- The positions decided when row `y`'s first `n` pixels are decoded: the rows above, those pixels, and the padding (R174). -/
def Image.decided (base : Image) (y n p q : Nat) : Prop := q < y ∨ q = y ∧ (p < n ∨ base.w ≤ p)

namespace Image.AgreeOn

variable {base im im' : Image} {R : Nat → Nat → Prop} {y n : Nat}

theorem mono (A : base.AgreeOn R im im') {R' : Nat → Nat → Prop} (h : ∀ p q, R' p q → R p q) : base.AgreeOn R' im im' :=
  ⟨A.left, A.right, fun p q hp hq => A.bits p q hp (h p q hq)⟩

/-- Agreement on every row is equality. -/
theorem eq (A : base.AgreeOn (above base.h) im im') (hw : 1 ≤ base.w) : im = im' := by
  have hww := A.left.w.trans A.right.w.symm
  have hhh := A.left.h.trans A.right.h.symm
  have hmem := Image.mem_ext hww hhh A.left.ok A.right.ok (A.left.w ▸ hw) fun p q hp hq =>
    A.bits p q (A.left.stride ▸ hp) (A.left.h ▸ hq)
  exact (Image.mk.injEq ..).mpr ⟨hww, hhh, A.left.refcnt.trans A.right.refcnt.symm, hmem⟩

/-- The start of a decoded row (R174). -/
theorem clearPadding (A : base.AgreeOn (above y) im im') (hw : 1 ≤ base.w) (hy : y < base.h) :
    base.AgreeOn (base.decided y 0) (im.clearPadding y) (im'.clearPadding y) where
  left := A.left.clearPadding hw hy
  right := A.right.clearPadding hw hy
  bits p q hp hpq := by
    rw [Image.bit_clearPadding A.left.ok.1 (A.left.w ▸ hw) y (A.left.stride ▸ hp),
      Image.bit_clearPadding A.right.ok.1 (A.right.w ▸ hw) y (A.right.stride ▸ hp), A.left.w, A.right.w]
    split
    · rfl
    · exact A.bits p q hp (by unfold above; unfold Image.decided at hpq; omega)

/-- One more decoded pixel (R172). -/
theorem put (A : base.AgreeOn (base.decided y n) im im') (hn : n < base.w) (hy : y < base.h) (v : Bool) :
    base.AgreeOn (base.decided y (n + 1)) (im.put n y v) (im'.put n y v) where
  left := A.left.put n y v
  right := A.right.put n y v
  bits p q hp hpq := by
    rw [Image.bit_put A.left.ok.1 ⟨A.left.w ▸ hn, A.left.h ▸ hy⟩ v (A.left.stride ▸ hp),
      Image.bit_put A.right.ok.1 ⟨A.right.w ▸ hn, A.right.h ▸ hy⟩ v (A.right.stride ▸ hp)]
    split
    · rfl
    · exact A.bits p q hp (by unfold Image.decided at hpq ⊢; omega)

/-- A copied row is the row above, or zeros (R173). -/
theorem copyRow (A : base.AgreeOn (above y) im im') (hy : y < base.h) :
    base.AgreeOn (above (y + 1)) (im.copyRow y) (im'.copyRow y) where
  left := A.left.copyRow hy
  right := A.right.copyRow hy
  bits p q hp hpq := by
    unfold above at hpq
    rw [Image.bit_copyRow A.left.ok.1 y (A.left.stride ▸ hp), Image.bit_copyRow A.right.ok.1 y (A.right.stride ▸ hp)]
    split
    · split
      · rfl
      · exact A.bits p (y - 1) hp (by unfold above; omega)
    · exact A.bits p q hp (by unfold above; omega)

/-- The pixels before the one to decode (R175). -/
theorem pix_before (A : base.AgreeOn (base.decided y n) im im') {p q : Int} (hpq : before n y p q) :
    im.pix p q = im'.pix p q := by
  have hsize := Image.inRange_of_sameSize (A.left.w.trans A.right.w.symm) (A.left.h.trans A.right.h.symm) p q
  cases hin : im.inRange p q with
  | false => rw [Image.pix_out hin, Image.pix_out (hsize ▸ hin)]
  | true =>
    have hin' := (Image.inRange_iff im p q).1 hin
    obtain ⟨p, rfl⟩ := Int.eq_ofNat_of_zero_le hin'.1
    obtain ⟨q, rfl⟩ := Int.eq_ofNat_of_zero_le hin'.2.2.1
    have hp := (im.inRange_nat p q).1 hin
    have hstride := base.w_le_stride
    rw [Image.pix_nat hp, Image.pix_nat ((im'.inRange_nat p q).1 (hsize ▸ hin))]
    rw [A.left.w] at hp
    exact A.bits p q (by omega) (by unfold before at hpq; unfold Image.decided; omega)

end Image.AgreeOn

/-! ### Decodes in lockstep -/

/-- Two decodes whose pipelines are the same and whose images agree on `R`. -/
structure Job.AgreeOn (base : Image) (R : Nat → Nat → Prop) (j j' : Job) : Prop where
  pipe : j'.pipe = j.pipe
  img : base.AgreeOn R j.img j'.img

/-- A request depends on the pipelines alone (R71). -/
theorem Job.AgreeOn.ask {base : Image} {R : Nat → Nat → Prop} {j j' k : Job} (A : Job.AgreeOn base R j j') {cx : Nat}
    {v : Bool} (h : j.ask cx = .ok (v, k)) : ∃ k', j'.ask cx = .ok (v, k') ∧ Job.AgreeOn base R k k' := by
  obtain ⟨p, hp, rfl⟩ := Job.ask_ok.1 h
  exact ⟨_, Job.ask_ok.2 ⟨p, A.pipe.symm ▸ hp, rfl⟩, rfl, A.img⟩

theorem Job.AgreeOn.ltpStep {base : Image} {R : Nat → Nat → Prop} {j j' k : Job} (A : Job.AgreeOn base R j j') {cx : Nat}
    (h : j.ltpStep cx = .ok k) : ∃ k', j'.ltpStep cx = .ok k' ∧ Job.AgreeOn base R k k' := by
  obtain ⟨v, k₁, ha, rfl⟩ := Job.ltpStep_ok.1 h
  obtain ⟨k₁', ha', B⟩ := A.ask ha
  exact ⟨_, Job.ltpStep_ok.2 ⟨v, k₁', ha', rfl⟩, by rw [B.pipe], B.img⟩

theorem Job.AgreeOn.goto {base : Image} {R : Nat → Nat → Prop} {j j' : Job} (A : Job.AgreeOn base R j j') (x y : Nat) :
    Job.AgreeOn base R (j.goto x y) (j'.goto x y) := ⟨by rw [Job.goto_pipe, Job.goto_pipe, A.pipe], A.img⟩

section Lockstep

variable {t : GenTemplate} {a : GenAt} {base : Image} {y : Nat}

/-- The pixels of a row at causal AT offsets (R175). -/
theorem genPixels_lockstep (hc : a.causalFor t) (hw : 1 ≤ base.w) (hy : y < base.h) {j j' k : Job}
    (A : Job.AgreeOn base (above y) j j') (h : genPixels t a y j = .ok k) :
    ∃ k', genPixels t a y j' = .ok k' ∧ Job.AgreeOn base (above (y + 1)) k k' := by
  have hloop := loopE_simulates (R := fun n b b' => Job.AgreeOn base (base.decided y n) b b')
    (f := fun x j => genPixel t a (j.goto x y)) (g := fun x j => genPixel t a (j.goto x y)) base.w
    (⟨A.pipe, A.img.clearPadding hw hy⟩ : Job.AgreeOn base (base.decided y 0) { j with img := j.img.clearPadding y }
      { j' with img := j'.img.clearPadding y })
    fun n b b' hn B c hb => by
      obtain ⟨v, b₁, hask, rfl⟩ := genPixel_ok.1 hb
      rw [genContext_congr hc fun p q hpq => B.img.pix_before hpq] at hask
      obtain ⟨b₁', hask', B'⟩ := (B.goto n y).ask hask
      exact ⟨_, genPixel_ok.2 ⟨v, b₁', hask', rfl⟩, B'.pipe, B'.img.put hn hy v⟩
  unfold genPixels at h ⊢
  rw [A.img.left.w] at h
  rw [A.img.right.w]
  obtain ⟨k', hk', B⟩ := hloop k h
  exact ⟨k', hk', B.pipe, B.img.mono fun p q hq => by unfold above at hq; unfold Image.decided; omega⟩

/-- A row (R172, R173). -/
theorem genRow_lockstep (hc : a.causalFor t) (hw : 1 ≤ base.w) (hy : y < base.h) {tp : Bool} {j j' k : Job}
    (A : Job.AgreeOn base (above y) j j') (h : genRow t tp a y j = .ok k) :
    ∃ k', genRow t tp a y j' = .ok k' ∧ Job.AgreeOn base (above (y + 1)) k k' := by
  cases tp with
  | false => exact genPixels_lockstep hc hw hy (A.goto 0 y) h
  | true =>
    rw [genRow_tp] at h
    cases hl : (j.goto 0 y).ltpStep t.tpCx with
    | error e => rw [hl] at h; cases h
    | ok m =>
      obtain ⟨m', hl', B⟩ := (A.goto 0 y).ltpStep hl
      rw [hl] at h
      rw [genRow_tp, hl']
      simp only at h ⊢
      split at h
      · rename_i hltp
        cases h
        exact ⟨_, if_pos (B.pipe.symm ▸ hltp), B.pipe, B.img.copyRow hy⟩
      · rename_i hltp
        rw [if_neg (B.pipe.symm ▸ hltp)]
        exact genPixels_lockstep hc hw hy B h

/-- A generic decode at causal AT offsets: one image for both (R181). -/
theorem genRun_lockstep (hc : a.causalFor t) (hw : 1 ≤ base.w) {tp : Bool} {j j' k : Job}
    (A : Job.AgreeOn base (above 0) j j') (h : genRun t tp a j = .ok k) : genRun t tp a j' = .ok k := by
  unfold genRun at h ⊢
  rw [A.img.left.h] at h
  rw [A.img.right.h]
  obtain ⟨k', hk', B⟩ := loopE_simulates (R := fun y b b' => Job.AgreeOn base (above y) b b') base.h A
    (fun y b b' hy B c hb => genRow_lockstep hc hw hy B hb) k h
  have himg := B.img.eq hw
  have hpipe := B.pipe
  obtain ⟨ki, kp⟩ := k
  obtain ⟨ki', kp'⟩ := k'
  cases himg
  cases hpipe
  exact hk'

end Lockstep

/-- A write to a slot does away with the one before it. -/
theorem State.putJob_setImage (s : State) (h : Word) (new : Option Image) (j : Job) :
    (s.setImage h new).putJob h j = s.putJob h j := by
  simp [State.putJob, State.setImage]

/-- Settles O53: the two decodes go in lockstep from images that agree on no row to images that agree on all of them. -/
theorem genDecodeIgnoresPriorContents : Obligations.GenDecodeIgnoresPriorContents := by
  intro t tp s u im m hv hwf hm hlt hc he herr
  obtain rfl := Host.Outcome.next.inj ((exec_genInstr ..).symm.trans he)
  obtain ⟨hd, j, hj⟩ := genDecode_err_zero hv herr
  obtain ⟨⟨hw, -⟩, -, -, -, hok⟩ := hwf
  have A : Job.AgreeOn im (above 0) (Job.start t.statsSize im s.pipe) (Job.start t.statsSize { im with mem := m } s.pipe) :=
    ⟨rfl, ⟨rfl, rfl, rfl, hok⟩, ⟨rfl, rfl, rfl, hm, hlt⟩, fun _ q _ hq => absurd hq (Nat.not_lt_zero q)⟩
  have hj' : (s.setImage s.ha (some { im with mem := m })).genRows t tp { im with mem := m } = .ok j :=
    genRun_lockstep hc hw A hj
  rw [exec_genInstr_of_ok (State.image?_setImage_self hv (some { im with mem := m })) hd hj', genDecode_of_ok hv hd hj,
    State.setImage_ha, State.putJob_setImage]

end Sys2Proof.Machine
end

section
/-! SUPPORT. RefinementRequests: the implicit value, the contexts of the refinement templates, how many requests a REF_DECODE
makes, and what one that succeeds leaves (43_refinement.md R201 to R208, R212, 70_reset_and_hazards.md R286). -/

namespace Sys2Proof.Machine

/-! ### The implicit value -/

/-- A 3 × 3 block, position by position (R206). -/
theorem forall_block_iff {p : Int → Int → Prop} :
    (∀ a b : Int, -1 ≤ a → a ≤ 1 → -1 ≤ b → b ≤ 1 → p a b) ↔
      (p (-1) (-1) ∧ p 0 (-1) ∧ p 1 (-1)) ∧ (p (-1) 0 ∧ p 0 0 ∧ p 1 0) ∧ p (-1) 1 ∧ p 0 1 ∧ p 1 1 := by
  constructor
  · intro h
    refine ⟨⟨?_, ?_, ?_⟩, ⟨?_, ?_, ?_⟩, ?_, ?_, ?_⟩
    all_goals exact h _ _ (by decide) (by decide) (by decide) (by decide)
  · rintro ⟨⟨h₁, h₂, h₃⟩, ⟨h₄, h₅, h₆⟩, h₇, h₈, h₉⟩ a b ha ha' hb hb'
    obtain rfl | rfl | rfl : a = -1 ∨ a = 0 ∨ a = 1 := by omega
    all_goals
      obtain rfl | rfl | rfl : b = -1 ∨ b = 0 ∨ b = 1 := by omega
      all_goals assumption

/-- Settles O57: the model compares the eight neighbours with the pixel in the middle, and the answer is that pixel. -/
theorem implicitValueIsAUniformBlock : Obligations.ImplicitValueIsAUniformBlock := by
  intro o x y m
  rw [forall_block_iff]
  unfold implicitValue
  simp only [Int.add_zero, Option.ite_none_right_eq_some, Bool.and_eq_true, beq_iff_eq, Option.some.injEq]
  constructor
  · rintro ⟨⟨⟨⟨⟨⟨⟨⟨h₁, h₂⟩, h₃⟩, h₄⟩, h₆⟩, h₇⟩, h₈⟩, h₉⟩, rfl⟩
    exact ⟨⟨h₁, h₂, h₃⟩, ⟨h₄, rfl, h₆⟩, h₇, h₈, h₉⟩
  · rintro ⟨⟨h₁, h₂, h₃⟩, ⟨h₄, rfl, h₆⟩, h₇, h₈, h₉⟩
    exact ⟨⟨⟨⟨⟨⟨⟨⟨h₁, h₂⟩, h₃⟩, h₄⟩, h₆⟩, h₇⟩, h₈⟩, h₉⟩, rfl⟩

/-! ### Context bits -/

/-- Bit `b` of a refinement context is the pixel of the tap listed at place `b` (R203, R204). -/
theorem refContextOf_testBit (t : RefTemplate) (o : RefOperands) (P : Int → Int → Bool) (x y : Int) (b : Nat) :
    (refContextOf t o P x y).testBit b = (t.taps.map fun tap => tap.pixel o P x y).getD b false :=
  contextOf_testBit _ b

/-! ### The number of requests -/

theorem refRowLog_length_le (t : RefTemplate) (tp : Bool) (o : RefOperands) (old new : Image) (sltp : List Bool) (n y : Nat) :
    (refRowLog t tp o old new sltp n y).length ≤ rowBound tp n := by
  unfold refRowLog rowBound
  rw [List.length_append]
  refine Nat.add_le_add ?_ ?_
  · cases tp <;> simp
  · exact (flatMap_range_length_le (k := 1) (fun x => by split <;> simp) n).trans (Nat.mul_one n).le

/-- A REF_DECODE that the coder fails has made no more requests than the bound, the failed one included (R286). -/
theorem RefFailed.views_length_le {t : RefTemplate} {tp : Bool} {o : RefOperands} {im : Image}
    {base : List (Nat × Option Bool)} {c b : Job} {y : Nat} {n : Option Nat} {l : List Bool} {v : Bool}
    (F : RefFailed t tp o im base c y n b l v) : c.views.length ≤ requestBound tp im + base.length := by
  have hrows := flatMap_range_length_le (refRowLog_length_le t tp o im c.img (l ++ [v]) im.w) y
  have hbound : (y + 1) * rowBound tp im.w ≤ requestBound tp im := by
    rw [requestBound_eq]; exact Nat.mul_le_mul_right _ F.lt
  rw [Nat.succ_mul] at hbound
  rw [F.views, List.length_append, List.length_reverse, List.length_append]
  cases n with
  | none =>
    obtain rfl := F.sltp rfl
    have hone : 1 ≤ rowBound true im.w := Nat.le_add_right _ _
    simp only [List.length_singleton]
    omega
  | some x =>
    have hx : x < im.w := F.before.w ▸ F.row.lt x rfl
    have hrow := refRowLog_length_le t tp o im c.img (l ++ [v]) x y
    have hlt : rowBound tp x < rowBound tp im.w := Nat.add_lt_add_left hx _
    simp only [List.length_append, List.length_singleton]
    omega

/-! ### The requests of a decode, by the induction over its moves -/

section Runs

variable {n : Nat} {im : Image} {p : Pipeline} {run : Except Job Job} {j : Job}
  (hrun : ∀ {P Q : Job → Prop}, JobInv n P Q → P (Job.start n im p) → JobInv.Ends P Q run)
include hrun

/-- The requests of a decode that ended well; a script has answered them in order (R70, 95_test_vectors.md §2). -/
theorem requests_of_run (hj : run = .ok j) : ∃ made, j.pipe.coderLog = made ++ p.coderLog ∧
    ∀ bits : List Bool, p.coder = .script bits →
      made.reverse.map CoderRequest.answer = (bits.take made.length).map some ∧ made.length ≤ bits.length ∧
      j.pipe.coder = .script (bits.drop made.length) := by
  obtain ⟨made, hlog⟩ := (hrun (jobInv_log n p.coderLog) ⟨[], rfl⟩).1 j hj
  refine ⟨made, hlog, fun bits hc => ?_⟩
  obtain ⟨made', hlog', hans⟩ := (hrun (jobInv_script n bits p.coderLog) ⟨[], rfl, rfl, Nat.zero_le _, hc⟩).1 j hj
  obtain rfl := List.append_cancel_right (hlog'.symm.trans hlog)
  exact hans

/-- A decode that a script fails has made a request for every bit of the script, and the failed one. -/
theorem coderLog_length_of_run_error (hj : run = .error j) {bits : List Bool} (hc : p.coder = .script bits) :
    j.pipe.coderLog.length = bits.length + 1 + p.coderLog.length := by
  obtain ⟨last, made, hlog, -, hans, -⟩ :=
    (hrun (jobInv_script n bits p.coderLog) ⟨[], rfl, rfl, Nat.zero_le _, hc⟩).2 j hj
  have hmade : made.length = bits.length := by simpa using congrArg List.length hans
  rw [hlog, List.length_append, List.length_cons, hmade]

end Runs

/-! ### A REF_DECODE that ends with OK -/

section RefDone

variable {s : State} {im r : Image} {t : RefTemplate} {tp : Bool} {j : Job}

theorem exec_refInstr_of_ok (hv : s.image? s.ha = some im) (hr : s.image? s.hb = some r) (hne : s.ha ≠ s.hb)
    (hj : s.refRows t tp im r = .ok j) : exec (refInstr t tp) s = .next ((s.putJob s.ha j).complete 0) :=
  (exec_refInstr ..).trans (congrArg Host.Outcome.next (refDecode_of_ok hv hr hne hj))

/-- A REF_DECODE of valid operands that ended with OK ran its rows (R208). -/
theorem refDecode_err_zero (hv : s.image? s.ha = some im) (hr : s.image? s.hb = some r) (hne : s.ha ≠ s.hb)
    (he : (refDecode t tp s).status.err = 0) : ∃ j, s.refRows t tp im r = .ok j := by
  cases hj : s.refRows t tp im r with
  | ok j => exact ⟨j, rfl⟩
  | error j => exact absurd (refDecode_of_error hv hr hne hj ▸ he) (State.raise_err_ne_zero _ _)

/-- What the rows of a REF_DECODE that ends with OK leave (R207). -/
theorem refRows_ok (hwf : im.wf) (hj : s.refRows t tp im r = .ok j) :
    ∃ l, RefSoFar t tp (s.refOperands r) im (s.pipe.coderLog.map CoderRequest.view) im.h j l := by
  obtain ⟨⟨hw, -⟩, -, -, -, hm⟩ := hwf
  exact (refRun_ends (j := Job.start t.statsSize im s.pipe) hw hm rfl).1 j hj

/-- A script with an answer for every request there can be is not exhausted (R212 (d)). -/
theorem refRows_ok_of_script (hwf : im.wf) {bits : List Bool} (hc : s.pipe.coder = .script bits)
    (hb : requestBound tp im ≤ bits.length) : ∃ j, s.refRows t tp im r = .ok j := by
  cases hj : s.refRows t tp im r with
  | ok j => exact ⟨j, rfl⟩
  | error j =>
    obtain ⟨y, n, b, l, v, F⟩ := refRows_error hwf hj
    have hmade := coderLog_length_of_run_error (fun H h => H.refRun h) hj hc
    have hmost := F.views_length_le
    simp only [List.length_map] at hmost
    omega

end RefDone

/-- Every padding bit is 0 after the last row (R174). -/
theorem RefSoFar.padding_zero {t : RefTemplate} {tp : Bool} {o : RefOperands} {im : Image}
    {base : List (Nat × Option Bool)} {j : Job} {l : List Bool} (G : RefSoFar t tp o im base im.h j l) {p q : Nat}
    (hp : j.img.isPadding p q) : j.img.bit p q = false := by
  obtain ⟨hw, hs, hh⟩ := (Image.isPadding_of_sameSize G.w G.h p q).1 hp
  exact G.padding p q hw hs hh

/-- Settles O58: a long enough script answers every request, and the rows that ended well leave the image. -/
theorem refDecodeCompletes : Obligations.RefDecodeCompletes := by
  intro t tp s im r bits hv hr hne hwf hc hb
  obtain ⟨j, hj⟩ := refRows_ok_of_script (t := t) hwf hc hb
  obtain ⟨l, G⟩ := refRows_ok hwf hj
  exact ⟨_, j.img, exec_refInstr_of_ok hv hr hne hj, State.image?_setImage_self hv _,
    (State.image?_setImage_ne (State.valid_lt hv).1 hne.symm _).trans hr, rfl, rfl, G.w, G.h, G.refcnt,
    fun p q hp => G.padding_zero hp⟩

/-- Settles O59: the layouts are those of the templates, and the rows of the decode carry the log (`RefSoFar`). -/
theorem refDecodeAgreesWithItsRequests : Obligations.RefDecodeAgreesWithItsRequests := by
  refine ⟨?_, by decide, fun t tp s u im r hv hr hne hwf he herr => ?_⟩
  · intro s r P x y g R pixels t b
    rw [refContextOf_testBit]
    congr 1
    cases t <;>
      simp [g, R, pixels, RefTemplate.taps, RefTap.pixel, State.refOperands, refAtOf, atByte_eq_signedByte,
        ← Int.sub_eq_add_neg]
  · obtain rfl := Host.Outcome.next.inj ((exec_refInstr ..).symm.trans he)
    obtain ⟨j, hj⟩ := refDecode_err_zero hv hr hne herr
    obtain ⟨l, G⟩ := refRows_ok hwf hj
    obtain ⟨made, hlog, hscript⟩ := requests_of_run (fun H h => H.refRun h) hj
    rw [refDecode_of_ok hv hr hne hj]
    refine ⟨j.img, l, made, State.image?_setImage_self hv _, G.w, G.h, G.refcnt, G.len, hlog, ?_, hscript,
      fun htp x y m hx hy hl hm => G.implied x y m hx hy (by rw [htp, hl]; rfl) hm, fun p q hp => G.padding_zero hp⟩
    have hviews := G.views
    rw [Job.views, hlog, List.map_append] at hviews
    exact List.append_cancel_right hviews

end Sys2Proof.Machine
end

section
/-! SUPPORT. ForcedRefinement: the refinement decode of the same rows without and with typical prediction, every SLTP request
answered 0 (43_refinement.md R207, R212). -/

namespace Sys2Proof.Machine

/-! ### One row against a script -/

/-- Without typical prediction every pixel is decoded (R207). -/
theorem refPixel_plain {t : RefTemplate} {o : RefOperands} {x y : Nat} {j : Job} :
    refPixel t false o (j.goto x y) = refAsk t o (j.goto x y) := refPixel_eq

/-- While LTP is 0 every pixel is decoded, typical prediction or not (R207). -/
theorem refPixel_of_ltp_false {t : RefTemplate} {tp : Bool} {o : RefOperands} {x y : Nat} {j : Job}
    (hl : j.pipe.ltp = false) : refPixel t tp o (j.goto x y) = refAsk t o (j.goto x y) := by
  rw [refPixel_eq, hl, Bool.and_false]
  rfl

/-- A row with typical prediction whose LTP is 0 decodes its pixels as one without (R207). -/
theorem refPixels_tp_of_plain {t : RefTemplate} {o : RefOperands} {y : Nat} {j j' : Job} (hl : j.pipe.ltp = false)
    (h : refPixels t false o y j = .ok j') : refPixels t true o y j = .ok j' := by
  have hsim : ∃ k, refPixels t true o y j = .ok k ∧ j' = k ∧ j'.pipe.ltp = false := by
    refine loopE_simulates (R := fun _ (b c : Job) => b = c ∧ b.pipe.ltp = false) _ ?_ ?_ j' h
    · exact ⟨rfl, hl⟩
    rintro x b _ - ⟨rfl, hb⟩ c hc
    rw [refPixel_plain] at hc
    obtain ⟨v, b₁, ha, rfl⟩ := refAsk_ok.1 hc
    obtain ⟨-, hkept, -⟩ := Job.ask_ok_frame ha
    exact ⟨_, (refPixel_of_ltp_false hb).trans hc, rfl, hkept.trans hb⟩
  obtain ⟨_, hk, rfl, -⟩ := hsim
  exact hk

/-- The pixels of a refinement row without typical prediction (R207). -/
theorem refPixels_asksRow (t : RefTemplate) (o : RefOperands) (y : Nat) (im : Image) {r : List Bool} (hr : r.length = im.w) :
    ∃ (im' : Image) (chunk : List (Nat × Option Bool)), chunk.length = im.w ∧ im'.w = im.w ∧
      AsksRow (refPixels t false o y) r im im' chunk := by
  obtain ⟨im', chunk, hlen, hw, -, hrun⟩ := pixelLoop_script (fun x j => refPixel t false o (j.goto x y)) y
    (fun im x => refContext t o im x y) (fun _ _ _ => refPixel_plain ▸ refAsk_ok) im.w (im.clearPadding y) r hr.ge
  refine ⟨im', chunk, hlen, hw, fun j rest hi hl hc => ?_⟩
  obtain ⟨p, hloop, hltp, hcoder, hlog⟩ := hrun j.pipe rest hc
  rw [← hr, List.drop_length] at hcoder
  refine ⟨⟨im', p⟩, ?_, rfl, hltp.trans hl, hcoder, hlog⟩
  unfold refPixels
  rw [hi]
  exact hloop

/-- The pixels of a refinement row with typical prediction ask for the same (R207). -/
theorem AsksRow.refPixels_tp {t : RefTemplate} {o : RefOperands} {y : Nat} {r : List Bool} {im im' : Image}
    {chunk : List (Nat × Option Bool)} (h : AsksRow (refPixels t false o y) r im im' chunk) :
    AsksRow (refPixels t true o y) r im im' chunk := fun j rest hi hl hc => by
  obtain ⟨j', hj, hrest⟩ := h j rest hi hl hc
  exact ⟨j', refPixels_tp_of_plain hl hj, hrest⟩

/-! ### Two decodes in step -/

/-- The rows of a refinement decode without and with typical prediction (R212). -/
theorem refRows_inStep {t : RefTemplate} {o : RefOperands} {w : Nat} {rows : List (List Bool)} {base : List (Nat × Option Bool)}
    {b c : Job} (I : InStep t.tpCx w rows base 0 b c []) (hrows : ∀ r ∈ rows, r.length = w) {n : Nat} (hn : n ≤ rows.length) :
    ∃ b' c' chunks, loopE n (refRow t false o) b = .ok b' ∧ loopE n (refRow t true o) c = .ok c' ∧
      InStep t.tpCx w rows base n b' c' chunks := by
  induction n with
  | zero => exact ⟨b, c, [], rfl, rfl, I⟩
  | succ n ih =>
    obtain ⟨b₁, c₁, chunks, hb, hc, I₁⟩ := ih (by omega)
    have hr : rows[n].length = b₁.img.w := (hrows _ (List.getElem_mem _)).trans I₁.width.symm
    obtain ⟨im', chunk, hlen, hw, hp⟩ := refPixels_asksRow t o n b₁.img hr
    obtain ⟨b', k, c', hb', hk, -, hc', I'⟩ := I₁.succ hn (hlen.trans I₁.width) (hw.trans I₁.width) hp hp.refPixels_tp
    refine ⟨b', c', _, (loopE_succ_of_ok hb).trans hb', (loopE_succ_of_ok hc).trans ?_, I'⟩
    rw [refRow_tp, hk]
    exact hc'

/-- Settles O60: the two decodes go in step, a row at a time (`InStep.succ`). -/
theorem forcedTpGivesThePlainRefinementDecode : Obligations.ForcedTpGivesThePlainRefinementDecode := by
  intro t s im r rows hv hr hne _ hlen hrows
  obtain ⟨b, c, chunks, hb, hc, I⟩ := refRows_inStep (o := s.refOperands r)
    (InStep.start t.statsSize t.tpCx im s rows) hrows hlen.ge
  have hvC (k : CoderState) : (s.withCoder k).image? (s.withCoder k).ha = some im := hv
  have hrC (k : CoderState) : (s.withCoder k).image? (s.withCoder k).hb = some r := hr
  have hput (k : CoderState) (j : Job) : (((s.withCoder k).putJob s.ha j).complete 0).image? s.ha = some j.img :=
    State.image?_setImage_self (hvC k) _
  exact ⟨_, _, chunks, exec_refInstr_of_ok (hvC _) (hrC _) hne hc, exec_refInstr_of_ok (hvC _) (hrC _) hne hb, rfl, rfl,
    (hput _ c).trans ((congrArg some I.img).trans (hput _ b).symm), I.ltpTp, I.len, I.widths, I.views, I.viewsTp⟩

end Sys2Proof.Machine
end

section
/-! SUPPORT. Control: what NOP and CLRST leave (44_control.md R230, R231). -/

namespace Sys2Proof.Machine

/-- NOP is a completion and nothing else (R230). -/
theorem exec_nop (s : State) : exec .nop s = .next (s.complete 0) := rfl

/-- CLRST is a completion after the sticky bits were cleared (R231). -/
theorem exec_clrst (s : State) : exec .clrst s = .next (State.complete 0 { s with status := s.status.clearSticky }) := rfl

/-- A completion writes RESULT and STATUS and discards the raster position (R45, R242). -/
theorem State.complete_eq (s : State) (v : Word) :
    s.complete v = { s with result := v, status := s.status.complete, pipe := { s.pipe with raster := none } } := rfl

/-- Of the six fields of STATUS a completion after `clearSticky` leaves DONE alone set (R231, R242). -/
theorem Status.complete_clearSticky (st : Status) :
    st.clearSticky.complete =
      { busy := false, done := true, fatal := false, overrun := false, err := 0, sub := 0 } := rfl

/-- Settles O30: NOP is `complete(0)`, which keeps FATAL and OVERRUN. -/
theorem nopOnlyCompletes : Obligations.NopOnlyCompletes := by
  intro s
  rw [exec_nop, State.complete_eq, Status.complete]

/-- Settles O31: CLRST is `complete(0)` of the state without its sticky bits, whose STATUS is a constant. -/
theorem clrstClearsTheStickyBits : Obligations.ClrstClearsTheStickyBits := by
  intro s
  rw [exec_clrst, State.complete_eq, Status.complete_clearSticky]

end Sys2Proof.Machine
end

section
/-! SUPPORT. Completion: what the end of a command records and keeps, and how IRQ follows it (60_exceptions.md R240 to R245,
R249, R250, R259). -/

namespace Sys2Proof.Machine

/-! ### The two ways a command ends -/

/-- Settles O28: `State.complete_eq`, with STATUS written out. -/
theorem completionRecordsItsResult : Obligations.CompletionRecordsItsResult := by
  intro s v
  rw [State.complete_eq, Status.complete]

/-- An error writes RESULT and STATUS and discards the raster position (R45, R243). -/
theorem State.raise_eq (s : State) (c : Cause) :
    s.raise c = { s with result := c.result, status := s.status.raise c, pipe := { s.pipe with raster := none } } := rfl

/-- Only RANGE is outside the fatal class (R244). -/
theorem Cause.fatal_eq_decide (c : Cause) : c.fatal = decide (c ≠ .range) := by cases c <;> rfl

/-- RESULT is 1 for RANGE alone (R29, R243). -/
theorem Cause.result_eq_ite (c : Cause) : c.result = if c = .range then 1 else 0 := by cases c <;> rfl

/-- Settles O29: each row holds the code and the subcause of its error. -/
theorem errorsRecordTheirCodes : Obligations.ErrorsRecordTheirCodes := by
  intro s row hrow
  obtain ⟨herr, hsub⟩ : row.1.errCode = row.2.1 ∧ row.1.subCode = row.2.2 := by
    revert row
    decide
  rw [State.raise_eq, Status.raise, Cause.result_eq_ite, Cause.fatal_eq_decide, herr, hsub]

/-! ### The step that ends a command word -/

/-- The step of a BUSY block that is not the host's ends the command word as a command ends, be it a rejected one (R84). -/
theorem ended_of_step {s t : State} (hturn : s.hostTurn = none) (hb : s.status.busy = true) (h : step s = .next t) :
    ∃ st, Ended s st t := by
  cases step_cases h with
  | reset hturn' _ => exact nomatch hturn.symm.trans hturn'
  | host op hturn' _ _ => exact nomatch hturn.symm.trans hturn'
  | idle _ hb' _ => exact nomatch hb.symm.trans hb'
  | command i _ _ _ he => exact ⟨_, ended_of_exec he⟩
  | rejected r _ _ _ ht =>
    obtain ⟨hc, hc'⟩ := causeOfReject_raised r
    exact ⟨s.status, ht ▸ Ended.raise hc hc'⟩

/-- Settles O25: no command word ends in another error (`Ended.raster_and_status`). -/
theorem neverRaisedCodesAreNeverRecorded : Obligations.NeverRaisedCodesAreNeverRecorded := by
  intro s t hturn hb h
  obtain ⟨st, he⟩ := ended_of_step hturn hb h
  obtain ⟨-, hcode, -⟩ := he.raster_and_status
  exact hcode

/-! ### The interrupt -/

/-- While DONE is 1, IRQ is IRQ_EN (R249). -/
theorem State.irq_of_done {s : State} (h : s.status.done = true) : s.irq = s.irqEn :=
  (congrArg (s.irqEn && ·) h).trans (Bool.and_true _)

/-- While DONE is 0, IRQ is 0 (R249). -/
theorem State.irq_of_not_done {s : State} (h : s.status.done = false) : s.irq = false :=
  (congrArg (s.irqEn && ·) h).trans (Bool.and_false _)

/-- A command that ended has set DONE and left IRQ_EN (R242, R243, R245). -/
theorem Ended.irq_eq {s t : State} {st : Status} (h : Ended s st t) : t.irq = s.irqEn := by
  obtain ⟨ds, p, ⟨v, rfl⟩ | ⟨c, -, -, rfl⟩⟩ := h
  · exact State.irq_of_done rfl
  · exact State.irq_of_done rfl

/-- Settles O15: the step ends the command word, and with it sets DONE. -/
theorem commandCompletionAssertsTheInterrupt : Obligations.CommandCompletionAssertsTheInterrupt := by
  refine ⟨fun s => rfl, fun s t hturn hb h => ?_⟩
  obtain ⟨st, he⟩ := ended_of_step hturn hb h
  exact he.irq_eq

/-- Settles O16: each of the four clears DONE or IRQ_EN; CLRST completes, so it sets DONE. -/
theorem hostDeassertsTheInterrupt : Obligations.HostDeassertsTheInterrupt := by
  refine fun s v => ⟨fun hv => ?_, fun hv => ?_, fun hb => ?_, rfl, _, exec_clrst s, State.irq_of_done rfl⟩
  · have hdone : (s.busWrite 0x04 v).status.done = (s.status.done && !v.getLsbD 1) := rfl
    exact State.irq_of_not_done (by rw [hdone, hv, Bool.not_true, Bool.and_false])
  · have hirq : (s.busWrite 0x08 v).irq = (v.getLsbD 0 && s.status.done) := rfl
    rw [hirq, hv, Bool.false_and]
  · have haccept : s.busWrite 0x00 v = s.accept v := State.writeCmd_idle hb v
    exact State.irq_of_not_done (by rw [haccept, State.accept_status, Status.accept_done])

/-! ### What every command keeps -/

/-- IMG_NEW fills a slot of the table and adds none (R113). -/
theorem imgNew_nHandles (s : State) : (imgNew s).nHandles = s.nHandles := by
  by_cases hneg : s.ax.toInt ≤ 0 ∨ s.ay.toInt ≤ 0
  · rw [imgNew_nonpositive hneg, State.nHandles_raise]
  · rw [imgNew_of_pos (by omega) (by omega)]
    split
    · rfl
    · cases s.freeSlot? with
      | none => rfl
      | some k =>
        rw [Option.elim_some]
        split
        · rfl
        · exact List.length_set

theorem State.OnlyHaChanged.nHandles_eq {s t : State} (h : s.OnlyHaChanged t) : t.nHandles = s.nHandles := by
  rcases h with h | ⟨-, new, h⟩
  · exact congrArg List.length h
  · exact (congrArg List.length h).trans (s.nHandles_setImage s.ha new)

/-- No command changes the number of slots (R41). -/
theorem exec_nHandles {i : Instr} {s t : State} (h : exec i s = .next t) : t.nHandles = s.nHandles := by
  by_cases hi : i = .imgNew
  · subst hi
    obtain rfl := Host.Outcome.next.inj h
    exact imgNew_nHandles s
  · exact (exec_onlyHaChanged hi h).nHandles_eq

/-- Settles O22: up to its end a command changes the table and the pipelines alone (`Ended`), and the end writes RESULT and
STATUS. -/
theorem commandsKeepTheHostRegisters : Obligations.CommandsKeepTheHostRegisters := by
  intro i s t h
  have hslots := exec_nHandles h
  have hoverrun : i ≠ .clrst → t.status.overrun = s.status.overrun := fun hi =>
    (exec_overrun h).resolve_right fun hclrst => hi hclrst.1
  obtain ⟨ds, p, ⟨v, rfl⟩ | ⟨c, -, -, rfl⟩⟩ := ended_of_exec h
  all_goals
    exact ⟨rfl, rfl, rfl, rfl, rfl, rfl, rfl, rfl, rfl, rfl, rfl, rfl, rfl, rfl, hslots, rfl, rfl, hoverrun⟩

end Sys2Proof.Machine
end

section
/-! SUPPORT. Exhaustion: how many requests a decode past its checks makes, and that the first FAIL ends it (42_generic.md R172,
R176, 43_refinement.md R207, R208, 60_exceptions.md R258, 70_reset_and_hazards.md R286). -/

namespace Sys2Proof.Machine

/-! ### Answered and failed requests -/

/-- A decode goes on while its requests are answered, and the coder's FAIL is the last one (R71, R258). -/
theorem jobInv_answered (n : Nat) (base : List CoderRequest) :
    JobInv n
      (fun j => ∃ made, j.pipe.coderLog = made ++ base ∧ ∀ r ∈ made, r.answer ≠ none)
      (fun j => ∃ last answered, j.pipe.coderLog = last :: answered ++ base ∧ last.answer = none ∧
        ∀ r ∈ answered, r.answer ≠ none) where
  goto _ _ h := h
  ltp _ h := h
  put _ _ _ h := h
  clear _ h := h
  copy _ h := h
  ask _ h ha := by
    obtain ⟨made, hl, hm⟩ := h
    obtain ⟨-, -, -, hlog⟩ := Job.ask_ok_frame ha
    exact ⟨_ :: made, by rw [hlog, hl]; rfl, List.forall_mem_cons.2 ⟨Option.some_ne_none _, hm⟩⟩
  fail _ h ha := by
    obtain ⟨made, hl, hm⟩ := h
    obtain ⟨-, -, -, -, hlog⟩ := Job.ask_error_frame ha
    exact ⟨_, made, by rw [hlog, hl]; rfl, rfl, hm⟩

/-! ### The number of requests of a decode that ends with OK -/

/-- Rows of at most as many requests as a row of the image needs (R286). -/
theorem rows_length_le {f : Nat → List (Nat × Option Bool)} {tp : Bool} {im : Image}
    (hf : ∀ q, (f q).length ≤ rowBound tp im.w) (base : List (Nat × Option Bool)) :
    (((List.range im.h).flatMap f).reverse ++ base).length ≤ requestBound tp im + base.length := by
  rw [List.length_append, List.length_reverse, requestBound_eq]
  exact Nat.add_le_add_right (flatMap_range_length_le hf im.h) _

theorem GenSoFar.views_length_le {t : GenTemplate} {tp : Bool} {a : GenAt} {im : Image} {base : List (Nat × Option Bool)}
    {j : Job} {l : List Bool} (G : GenSoFar t tp a im base im.h j l) :
    j.views.length ≤ requestBound tp im + base.length := by
  rw [G.views]
  exact rows_length_le (genRowLog_length_le t tp a im j.img l im.w) base

theorem RefSoFar.views_length_le {t : RefTemplate} {tp : Bool} {o : RefOperands} {im : Image}
    {base : List (Nat × Option Bool)} {j : Job} {l : List Bool} (G : RefSoFar t tp o im base im.h j l) :
    j.views.length ≤ requestBound tp im + base.length := by
  rw [G.views]
  exact rows_length_le (refRowLog_length_le t tp o im j.img l im.w) base

/-! ### The rows of a decode -/

/-- The record of the coder port has grown by at most `bound` requests since `p` (R286). -/
def Job.AsksAtMost (bound : Nat) (p : Pipeline) (j : Job) : Prop :=
  j.views.length ≤ bound + (p.coderLog.map CoderRequest.view).length

theorem Job.AsksAtMost.made_length_le {bound : Nat} {p : Pipeline} {j : Job} (h : j.AsksAtMost bound p)
    {made : List CoderRequest} (hlog : j.pipe.coderLog = made ++ p.coderLog) : made.length ≤ bound := by
  unfold Job.AsksAtMost at h
  rw [Job.views, hlog, List.map_append, List.length_append, List.length_map] at h
  exact Nat.le_of_add_le_add_right h

/-- `rows` is how the rows of a decode of `im` end that finds the pipelines as `p` and has a table of `n` entries: the decode
goes by its moves (`JobInv`), and makes at most `bound` requests. -/
structure DecodeRows (n : Nat) (im : Image) (p : Pipeline) (bound : Nat) (rows : Except Job Job) : Prop where
  moves : ∀ {P Q : Job → Prop}, JobInv n P Q → P (Job.start n im p) → JobInv.Ends P Q rows
  most : JobInv.Ends (Job.AsksAtMost bound p) (Job.AsksAtMost bound p) rows

namespace DecodeRows

variable {n bound : Nat} {im : Image} {p : Pipeline} {j : Job}

/-- The requests of rows that ended well: each was answered. -/
theorem answered (D : DecodeRows n im p bound (.ok j)) : ∃ made, j.pipe.coderLog = made ++ p.coderLog ∧
    made.length ≤ bound ∧ ∀ r ∈ made, r.answer ≠ none := by
  obtain ⟨made, hlog, hans⟩ := (D.moves (jobInv_answered n p.coderLog) ⟨[], rfl, nofun⟩).1 j rfl
  exact ⟨made, hlog, (D.most.1 j rfl).made_length_le hlog, hans⟩

/-- The requests of rows that the coder failed: the last one alone was answered FAIL, and a script has answered the others with
all its bits, in order (R258, 95_test_vectors.md §2). -/
theorem failed (D : DecodeRows n im p bound (.error j)) : ∃ last answered,
    j.pipe.coderLog = last :: answered ++ p.coderLog ∧ (last :: answered).length ≤ bound ∧ last.answer = none ∧
      (∀ r ∈ answered, r.answer ≠ none) ∧ ∀ bits : List Bool, p.coder = .script bits →
        answered.reverse.map CoderRequest.answer = bits.map some ∧ j.pipe.coder = .script [] := by
  obtain ⟨last, answered, hlog, hlast, hans⟩ := (D.moves (jobInv_answered n p.coderLog) ⟨[], rfl, nofun⟩).2 j rfl
  refine ⟨last, answered, hlog, (D.most.2 j rfl).made_length_le hlog, hlast, hans, fun bits hc => ?_⟩
  obtain ⟨last', made, hlog', -, hbits⟩ :=
    (D.moves (jobInv_script n bits p.coderLog) ⟨[], rfl, rfl, Nat.zero_le _, hc⟩).2 j rfl
  obtain ⟨rfl, rfl⟩ := List.cons.inj (List.append_cancel_right (hlog'.symm.trans hlog))
  exact hbits

end DecodeRows

theorem genRows_decodeRows (t : GenTemplate) (tp : Bool) (s : State) {im : Image} (hwf : im.wf) :
    DecodeRows t.statsSize im s.pipe (requestBound tp im) (s.genRows t tp im) where
  moves H h := H.genRun h
  most := by
    refine ⟨fun j hj => ?_, fun j hj => ?_⟩
    · obtain ⟨l, G⟩ := genRows_ok hwf hj
      exact G.views_length_le
    · obtain ⟨y, n, b, l, v, F⟩ := genRows_error hwf hj
      exact F.views_length_le

theorem refRows_decodeRows (t : RefTemplate) (tp : Bool) (s : State) {im : Image} (r : Image) (hwf : im.wf) :
    DecodeRows t.statsSize im s.pipe (requestBound tp im) (s.refRows t tp im r) where
  moves H h := H.refRun h
  most := by
    refine ⟨fun j hj => ?_, fun j hj => ?_⟩
    · obtain ⟨l, G⟩ := refRows_ok hwf hj
      exact G.views_length_le
    · obtain ⟨y, n, b, l, v, F⟩ := refRows_error hwf hj
      exact F.views_length_le

/-! ### The decode commands -/

/-- The block at the end of a decode whose rows ended so (R176, R208). -/
def State.afterRows (s : State) : Except Job Job → State
  | .ok j => (s.putJob s.ha j).complete 0
  | .error j => (s.putJob s.ha j).raise .coderExhaustion

/-- A GEN_DECODE that passes its checks ends as its rows do (R171, R176). -/
theorem genDecode_eq_afterRows {s : State} {im : Image} (t : GenTemplate) (tp : Bool) (hv : s.image? s.ha = some im)
    (hd : dosReject im.w im.h s.dlen.toNat = false) : genDecode t tp false s = s.afterRows (s.genRows t tp im) := by
  cases hj : s.genRows t tp im with
  | ok j => exact genDecode_of_ok hv hd hj
  | error j => exact genDecode_of_error hv hd hj

/-- A REF_DECODE that passes its checks ends as its rows do (R200, R208). -/
theorem refDecode_eq_afterRows {s : State} {im r : Image} (t : RefTemplate) (tp : Bool) (hv : s.image? s.ha = some im)
    (hr : s.image? s.hb = some r) (hne : s.ha ≠ s.hb) : refDecode t tp s = s.afterRows (s.refRows t tp im r) := by
  cases hj : s.refRows t tp im r with
  | ok j => exact refDecode_of_ok hv hr hne hj
  | error j => exact refDecode_of_error hv hr hne hj

/-- A decode command whose checks pass runs its rows and ends as they do. -/
theorem exec_decode_rows {i : Instr} {tp : Bool} {s u : State} {im : Image} (hv : s.image? s.ha = some im) (hwf : im.wf)
    (hi : (∃ g, i = genInstr g tp false) ∧ ¬(im.size > 2 ^ 24 ∧ s.dlen.toNat < im.size / 256) ∨
      (∃ r, i = refInstr r tp) ∧ s.image? s.hb ≠ none ∧ s.ha ≠ s.hb) (h : exec i s = .next u) :
    ∃ n rows, DecodeRows n im s.pipe (requestBound tp im) rows ∧ u = s.afterRows rows := by
  rcases hi with ⟨⟨t, rfl⟩, hdos⟩ | ⟨⟨t, rfl⟩, hb, hne⟩
  · obtain rfl := Host.Outcome.next.inj ((exec_genInstr ..).symm.trans h)
    exact ⟨_, _, genRows_decodeRows t tp s hwf, genDecode_eq_afterRows t tp hv (dosReject_image_eq_false hdos)⟩
  · obtain ⟨r, hr⟩ := Option.ne_none_iff_exists'.1 hb
    obtain rfl := Host.Outcome.next.inj ((exec_refInstr ..).symm.trans h)
    exact ⟨_, _, refRows_decodeRows t tp s r hwf, refDecode_eq_afterRows t tp hv hr hne⟩

/-- Settles O55: the rows ended well, every request answered, or at the one that the coder failed. -/
theorem decodesEndAtTheFirstFail : Obligations.DecodesEndAtTheFirstFail := by
  intro i tp s u im hv hwf hi h
  obtain ⟨n, rows, D, rfl⟩ := exec_decode_rows hv hwf hi h
  cases rows with
  | ok j =>
    obtain ⟨made, hlog, hmost, hans⟩ := D.answered
    exact ⟨made, hlog, hmost, rfl, rfl, .inl ⟨rfl, rfl, hans⟩⟩
  | error j =>
    obtain ⟨last, answered, hlog, hmost, hlast, hans, hscript⟩ := D.failed
    exact ⟨last :: answered, hlog, hmost, rfl, rfl,
      .inr ⟨rfl, Bool.or_true _, last, answered, rfl, hlast, hans, hscript⟩⟩

end Sys2Proof.Machine
end

section
/-! SUPPORT. Hazards: the state the reset input leaves, the end of every command, and two CMD writes with no WAIT
(70_reset_and_hazards.md R270, R272, R286, R289). -/

namespace Sys2Proof.Machine

/-! ### The end of a command -/

/-- A command that ended, normally or with an error, has left BUSY and set DONE, and its raster position is discarded (R45,
R242, R243). -/
theorem Ended.completed {s t : State} {st : Status} (h : Ended s st t) :
    t.status.busy = false ∧ t.status.done = true ∧ t.latched = none ∧ t.pipe.raster = none := by
  obtain ⟨ds, p, ⟨v, rfl⟩ | ⟨c, -, -, rfl⟩⟩ := h
  · exact ⟨rfl, rfl, rfl, rfl⟩
  · exact ⟨rfl, rfl, rfl, rfl⟩

/-- Settles O21: every command ends (`exec_ended`), and either way to end completes. -/
theorem everyCommandCompletes : Obligations.EveryCommandCompletes := by
  intro i s
  obtain ⟨t, ht, hend⟩ := exec_ended i s
  exact ⟨t, ht, hend.completed⟩

/-! ### The reset input -/

/-- The reset input on its turn, a command running or not (R272). -/
theorem step_reset {s : State} {rest : List HostEvent} {early : Bool} (hh : s.host = ⟨.reset, early⟩ :: rest)
    (he : s.status.busy = true → early = true) : step s = .next ({ s with host := rest } : State).assertReset := by
  rw [step_of_hostTurn (State.hostTurn_eq_some.2 ⟨_, _, hh, rfl, he⟩), hh]
  rfl

/-- The table keeps its number of slots (R41). -/
theorem State.nHandles_assertReset (s : State) : s.assertReset.nHandles = s.nHandles := List.length_replicate

/-- No bitmap memory is in use after reset (R48). -/
theorem State.usedBytes_resetWith (n : Nat) (p : Params) (pipe : Pipeline) (host : List HostEvent) (seen : List Word) :
    (State.resetWith n p pipe host seen).usedBytes = 0 := by
  have hslots : (State.resetWith n p pipe host seen).descs.map slotBytes = List.replicate n 0 := List.map_replicate
  rw [State.usedBytes, hslots, List.sum_replicate, smul_zero]

/-- An IDLE block with nothing pending waits (R257, R270). -/
theorem step_waits {s : State} (hb : s.status.busy = false) (hh : s.host = []) : step s = .next s :=
  step_of_idle (by rw [State.hostTurn, hh]) hb

/-- Settles O13: the step asserts reset, and what a reset block holds is said by the lemmas about `State.resetWith`. -/
theorem resetInputResetsTheBlock : Obligations.ResetInputResetsTheBlock := by
  intro s rest early hh he
  exact ⟨_, step_reset hh he, rfl, rfl, State.nHandles_assertReset _, State.busRead_resetWith _ _ _ _ _, rfl, rfl,
    State.image?_resetWith _ _ _ _ _, State.usedBytes_resetWith _ _ _ _ _, rfl, rfl, rfl,
    fun hrest => step_waits rfl hrest⟩

/-! ### Two CMD writes with no WAIT -/

theorem run_succ {s t : State} (h : step s = .next t) (k : Nat) :
    Host.Core.run core (k + 1) s = Host.Core.run core k t := by
  have hstep : core.step s = .next t := h
  simp only [Host.Core.run, hstep]

/-- A CMD write on its turn, of an IDLE block, is accepted (R21). -/
theorem step_cmdWrite_idle {s : State} {v : Word} {early : Bool} {rest : List HostEvent} (hb : s.status.busy = false)
    (hh : s.host = ⟨.write s.params.regBase 32 v, early⟩ :: rest) :
    step s = .next (({ s with host := rest } : State).accept v) := by
  obtain ⟨-, -, hwrite⟩ := cmdWriteStartsACommandOrOverruns
  obtain ⟨t, ht, rfl, -⟩ := (hwrite s v early rest hh).1 hb
  exact ht

/-- A CMD write ordered before the completion of the running command sets OVERRUN and does nothing else (R26, R281). -/
theorem step_cmdWrite_busy {s : State} {v : Word} {rest : List HostEvent} (hb : s.status.busy = true)
    (hh : s.host = ⟨.write s.params.regBase 32 v, true⟩ :: rest) :
    step s = .next { s with host := rest, status := s.status.setOverrun } := by
  obtain ⟨-, -, hwrite⟩ := cmdWriteStartsACommandOrOverruns
  exact (hwrite s v true rest hh).2 hb rfl

/-- An accepted NOP completes in its own step (R230). -/
theorem step_nop {s : State} (hturn : s.hostTurn = none) (hb : s.status.busy = true) (hcmd : s.cmd = 0) :
    step s = .next (s.complete 0) := by
  have hdecode : decode 0 = .ok .nop := by decide
  rw [step_of_busy hturn hb, hcmd, hdecode]
  exact exec_nop s

/-- Two steps perform a CMD write of NOP and the command, where the next host action is ordered after its completion. -/
theorem run_nopWrite {s : State} {early : Bool} {rest : List HostEvent} (hb : s.status.busy = false)
    (hh : s.host = ⟨.write s.params.regBase 32 0, early⟩ :: rest)
    (hturn : (({ s with host := rest } : State).accept 0).hostTurn = none) (k : Nat) :
    Host.Core.run core (k + 2) s = Host.Core.run core k ((({ s with host := rest } : State).accept 0).complete 0) := by
  rw [run_succ (step_cmdWrite_idle hb hh), run_succ (step_nop hturn rfl rfl)]

/-- Settles O17: the second write waits for the first NOP's completion and is accepted, or comes before it and sets OVERRUN;
then the last of the four steps is an IDLE one. -/
theorem racingCmdWritesEndInOneOfTwoStates : Obligations.RacingCmdWritesEndInOneOfTwoStates := by
  intro s e e' hb hh
  cases e' with
  | false =>
    rw [Bool.or_false, run_nopWrite hb hh rfl, run_nopWrite rfl rfl rfl]
    exact ⟨_, rfl, rfl, rfl⟩
  | true =>
    rw [Bool.or_true, run_succ (step_cmdWrite_idle hb hh), run_succ (step_cmdWrite_busy rfl rfl),
      run_succ (step_nop rfl rfl rfl), run_succ (step_waits rfl rfl)]
    exact ⟨_, rfl, rfl, rfl⟩

end Sys2Proof.Machine
end
